-- ==== Sys2Proof/Word.lean ====
section
/-! DEFINITION. The word types of the block: bytes, 20-bit event words, levels, ports and pins
(spec/00_scope.md R8, R12, R14, R16; spec/30_encoding.md R80). -/

namespace Sys2Proof

/-- A register byte: every register is 8 bits (R12). -/
abbrev Byte := BitVec 8

/-- One event is one 20-bit word (R80). -/
abbrev EventWord := BitVec 20

/-- A level is one bit, 0 = low (`false`), 1 = high (`true`) (R16). -/
abbrev Level := Bool

/-- A pull setting is one bit, 1 (`true`) = enabled (R38, R39). -/
abbrev Pull := Bool

/-- A pin number in 0..15 (R8). -/
abbrev Pin := Fin 16

/-- A bit position of a register byte, 0 the least significant (R14). -/
abbrev BitIdx := Fin 8

/-- The two ports: A is number 0, B is number 1 (R8). -/
inductive Port where
  | a
  | b
  deriving DecidableEq, Repr

end Sys2Proof
end

