-- ==== Sys2Proof/Syntax.lean ====
section
/-! DEFINITION. The operations of the block: one constructor of `Instr` per row of
spec/opcode_table.json, in the table's order (spec/30_encoding.md R87), and the eleven register
types (spec/10_state.md R21). -/

namespace Sys2Proof

/-- The eleven register types, in the order that gives their type index (R21). -/
inductive RegType where
  | iodir
  | ipol
  | gpinten
  | defval
  | intcon
  | iocon
  | gppu
  | intf
  | intcap
  | gpio
  | olat
  deriving DecidableEq, Repr

/-- The 37 operations (R87). A register operation carries its port `x = addr[0]`; `IOCON`
answers at both ports' addresses (R61). Ignored fields are not operands (R90). -/
inductive Instr where
  -- class 0x0, RD
  | rdIodir (x : Port)
  | rdIpol (x : Port)
  | rdGpinten (x : Port)
  | rdDefval (x : Port)
  | rdIntcon (x : Port)
  | rdIocon (x : Port)
  | rdGppu (x : Port)
  | rdIntf (x : Port)
  | rdIntcap (x : Port)
  | rdGpio (x : Port)
  | rdOlat (x : Port)
  | rdUndef (addr : Byte)
  -- class 0x1, WR
  | wrIodir (x : Port) (data : Byte)
  | wrIpol (x : Port) (data : Byte)
  | wrGpinten (x : Port) (data : Byte)
  | wrDefval (x : Port) (data : Byte)
  | wrIntcon (x : Port) (data : Byte)
  | wrIocon (x : Port) (data : Byte)
  | wrGppu (x : Port) (data : Byte)
  | wrIntf (x : Port) (data : Byte)
  | wrIntcap (x : Port) (data : Byte)
  | wrGpio (x : Port) (data : Byte)
  | wrOlat (x : Port) (data : Byte)
  | wrUndef (addr : Byte) (data : Byte)
  -- class 0x2, REQ: kinds 0 to 7 (R83)
  | reqOut (p : Pin) (l : Level)
  | reqNone (p : Pin) (u : Pull)
  | reqRead (p : Pin) (u : Pull)
  | reqWstate (p : Pin) (t : Level) (u : Pull)
  | reqWany (p : Pin) (u : Pull)
  | reqWspec (p : Pin) (t : Level) (u : Pull)
  | reqWatch (p : Pin) (u : Pull)
  | reqRsvd (p : Pin)
  -- classes 0x3 to 0x6
  | pin (p : Pin) (level : Level)
  | poll (p : Pin)
  | svc (x : Port)
  | reset
  -- classes 0x7 to 0xF
  | rsvdClass (cls : BitVec 4)
  deriving DecidableEq, Repr

end Sys2Proof
end

