-- ==== Sys2Proof/WellFormed.lean ====
section
/-! DEFINITION. Which terms of `Instr` an event word can stand for: the constraints of
spec/opcode_table.json on the operands that their types do not already bound. -/

namespace Sys2Proof

/-- An address outside the map: 0x16 to 0xFF (spec/20_memory.md R62). -/
def undefinedAddr (a : Byte) : Bool := decide (0x16 ≤ a.toNat)

/-- A reserved class: 0x7 to 0xF (spec/30_encoding.md R88). -/
def reservedClass (c : BitVec 4) : Bool := decide (7 ≤ c.toNat)

/-- RD.UNDEF and WR.UNDEF carry an undefined address, RSVD.CLASS a reserved class; every other
operation is well formed for every operand (R67: all addresses are legal). -/
def Instr.wellFormed : Instr → Bool
  | .rdIodir _ => true
  | .rdIpol _ => true
  | .rdGpinten _ => true
  | .rdDefval _ => true
  | .rdIntcon _ => true
  | .rdIocon _ => true
  | .rdGppu _ => true
  | .rdIntf _ => true
  | .rdIntcap _ => true
  | .rdGpio _ => true
  | .rdOlat _ => true
  | .rdUndef addr => undefinedAddr addr
  | .wrIodir _ _ => true
  | .wrIpol _ _ => true
  | .wrGpinten _ _ => true
  | .wrDefval _ _ => true
  | .wrIntcon _ _ => true
  | .wrIocon _ _ => true
  | .wrGppu _ _ => true
  | .wrIntf _ _ => true
  | .wrIntcap _ _ => true
  | .wrGpio _ _ => true
  | .wrOlat _ _ => true
  | .wrUndef addr _ => undefinedAddr addr
  | .reqOut _ _ => true
  | .reqNone _ _ => true
  | .reqRead _ _ => true
  | .reqWstate _ _ _ => true
  | .reqWany _ _ => true
  | .reqWspec _ _ _ => true
  | .reqWatch _ _ => true
  | .reqRsvd _ => true
  | .pin _ _ => true
  | .poll _ => true
  | .svc _ => true
  | .reset => true
  | .rsvdClass cls => reservedClass cls

end Sys2Proof
end

