-- ==== Sys2Proof/Decode.lean ====
section
/-! DEFINITION. The decoder and the encoder of event words (spec/30_encoding.md R80 to R94,
spec/20_memory.md R61, R62), total on every 20-bit word (R91): nothing is rejected, a reserved
class is the operation RSVD.CLASS and a reserved kind the operation REQ.RSVD. -/

namespace Sys2Proof

/-! ## Ports and register addresses -/

/-- The number of a port as the bit `addr[0]` or `W[8]`: A is 0, B is 1 (R8, R85, R86). -/
def Port.toBit : Port → Bool
  | .a => false
  | .b => true

/-- The port a one-bit field selects. -/
def Port.ofBit (b : Bool) : Port := if b then .b else .a

/-- The type index of a register type (R21). -/
def RegType.index : RegType → Nat
  | .iodir => 0
  | .ipol => 1
  | .gpinten => 2
  | .defval => 3
  | .intcon => 4
  | .iocon => 5
  | .gppu => 6
  | .intf => 7
  | .intcap => 8
  | .gpio => 9
  | .olat => 10

/-- The register type of a type index; none above 10 (R61). -/
def RegType.ofIndex : Nat → Option RegType
  | 0 => some .iodir
  | 1 => some .ipol
  | 2 => some .gpinten
  | 3 => some .defval
  | 4 => some .intcon
  | 5 => some .iocon
  | 6 => some .gppu
  | 7 => some .intf
  | 8 => some .intcap
  | 9 => some .gpio
  | 10 => some .olat
  | _ => none

/-- The address `a = 2*i + X` of a register (R61). -/
def addrOf (t : RegType) (x : Port) : Byte := BitVec.ofNat 8 (2 * t.index + x.toBit.toNat)

/-- The port of an address, `addr[0]` (R86). -/
def portOfAddr (a : Byte) : Port := Port.ofBit (a.getLsbD 0)

/-- The register type of an address, `addr[7:1]`; none for 0x16 to 0xFF (R61, R62, R86). -/
def regOfAddr (a : Byte) : Option RegType := RegType.ofIndex (a.extractLsb' 1 7).toNat

/-! ## Fields of the event word (R80, R82 to R85) -/

/-- The class `W[19:16]` (R80). -/
def classField (w : EventWord) : BitVec 4 := w.extractLsb' 16 4
/-- `addr` of format A (R82). -/
def addrField (w : EventWord) : Byte := w.extractLsb' 8 8
/-- `data` of format A (R82). -/
def dataField (w : EventWord) : Byte := w.extractLsb' 0 8
/-- `pin` of formats Q and P (R83, R84). -/
def pinField (w : EventWord) : Pin := (w.extractLsb' 12 4).toFin
/-- `kind` of format Q (R83). -/
def kindField (w : EventWord) : BitVec 3 := w.extractLsb' 9 3
/-- Bit 8: `arg` of format Q, `level` of format P, `port` of format S (R83 to R85). -/
def bit8Field (w : EventWord) : Bool := w.getLsbD 8
/-- `pull` of format Q (R83). -/
def pullField (w : EventWord) : Pull := w.getLsbD 7

/-! ## The decoder (R87) -/

/-- Class 0: one operation per register type; `data` is ignored (R82). -/
def decodeRd (a : Byte) : Instr :=
  match regOfAddr a with
  | some .iodir => .rdIodir (portOfAddr a)
  | some .ipol => .rdIpol (portOfAddr a)
  | some .gpinten => .rdGpinten (portOfAddr a)
  | some .defval => .rdDefval (portOfAddr a)
  | some .intcon => .rdIntcon (portOfAddr a)
  | some .iocon => .rdIocon (portOfAddr a)
  | some .gppu => .rdGppu (portOfAddr a)
  | some .intf => .rdIntf (portOfAddr a)
  | some .intcap => .rdIntcap (portOfAddr a)
  | some .gpio => .rdGpio (portOfAddr a)
  | some .olat => .rdOlat (portOfAddr a)
  | none => .rdUndef a

/-- Class 1. -/
def decodeWr (a v : Byte) : Instr :=
  match regOfAddr a with
  | some .iodir => .wrIodir (portOfAddr a) v
  | some .ipol => .wrIpol (portOfAddr a) v
  | some .gpinten => .wrGpinten (portOfAddr a) v
  | some .defval => .wrDefval (portOfAddr a) v
  | some .intcon => .wrIntcon (portOfAddr a) v
  | some .iocon => .wrIocon (portOfAddr a) v
  | some .gppu => .wrGppu (portOfAddr a) v
  | some .intf => .wrIntf (portOfAddr a) v
  | some .intcap => .wrIntcap (portOfAddr a) v
  | some .gpio => .wrGpio (portOfAddr a) v
  | some .olat => .wrOlat (portOfAddr a) v
  | none => .wrUndef a v

/-- Class 2: one operation per `kind` (R83). -/
def decodeReq (p : Pin) (kind : Nat) (arg : Bool) (u : Pull) : Instr :=
  match kind with
  | 0 => .reqOut p arg
  | 1 => .reqNone p u
  | 2 => .reqRead p u
  | 3 => .reqWstate p arg u
  | 4 => .reqWany p u
  | 5 => .reqWspec p arg u
  | 6 => .reqWatch p u
  | _ => .reqRsvd p

/-- Every 20-bit word decodes to exactly one operation (R91). -/
def decode (w : EventWord) : Instr :=
  match (classField w).toNat with
  | 0 => decodeRd (addrField w)
  | 1 => decodeWr (addrField w) (dataField w)
  | 2 => decodeReq (pinField w) (kindField w).toNat (bit8Field w) (pullField w)
  | 3 => .pin (pinField w) (bit8Field w)
  | 4 => .poll (pinField w)
  | 5 => .svc (Port.ofBit (bit8Field w))
  | 6 => .reset
  | _ => .rsvdClass (classField w)

/-- The instruction the decoder reads from a table row's bits. An event is one 20-bit word (R80),
numbered as the table numbers it; a number of more than 20 bits is no event word (log entry 19). -/
def decodeTableWord (_nbits w : Nat) : Option Instr :=
  if w < 2 ^ 20 then some (decode (BitVec.ofNat 20 w)) else none

/-! ## The encoder: the canonical word, ignored bits 0 (R82 to R85, R87) -/

/-- Format A (R82). -/
def formatA (cls : BitVec 4) (addr data : Byte) : EventWord := cls ++ addr ++ data

/-- Format Q, class 2 (R83). -/
def formatQ (p : Pin) (kind : BitVec 3) (arg : Bool) (u : Pull) : EventWord :=
  2#4 ++ BitVec.ofFin (w := 4) p ++ kind ++ BitVec.ofBool arg ++ BitVec.ofBool u ++ 0#7

/-- Format P (R84). -/
def formatP (cls : BitVec 4) (p : Pin) (level : Level) : EventWord :=
  cls ++ BitVec.ofFin (w := 4) p ++ 0#3 ++ BitVec.ofBool level ++ 0#8

/-- Format S (R85). -/
def formatS (cls : BitVec 4) (port : Bool) : EventWord :=
  cls ++ 0#7 ++ BitVec.ofBool port ++ 0#8

/-- The event word of an operation (R87). -/
def encode : Instr → EventWord
  | .rdIodir x => formatA 0 (addrOf .iodir x) 0
  | .rdIpol x => formatA 0 (addrOf .ipol x) 0
  | .rdGpinten x => formatA 0 (addrOf .gpinten x) 0
  | .rdDefval x => formatA 0 (addrOf .defval x) 0
  | .rdIntcon x => formatA 0 (addrOf .intcon x) 0
  | .rdIocon x => formatA 0 (addrOf .iocon x) 0
  | .rdGppu x => formatA 0 (addrOf .gppu x) 0
  | .rdIntf x => formatA 0 (addrOf .intf x) 0
  | .rdIntcap x => formatA 0 (addrOf .intcap x) 0
  | .rdGpio x => formatA 0 (addrOf .gpio x) 0
  | .rdOlat x => formatA 0 (addrOf .olat x) 0
  | .rdUndef a => formatA 0 a 0
  | .wrIodir x v => formatA 1 (addrOf .iodir x) v
  | .wrIpol x v => formatA 1 (addrOf .ipol x) v
  | .wrGpinten x v => formatA 1 (addrOf .gpinten x) v
  | .wrDefval x v => formatA 1 (addrOf .defval x) v
  | .wrIntcon x v => formatA 1 (addrOf .intcon x) v
  | .wrIocon x v => formatA 1 (addrOf .iocon x) v
  | .wrGppu x v => formatA 1 (addrOf .gppu x) v
  | .wrIntf x v => formatA 1 (addrOf .intf x) v
  | .wrIntcap x v => formatA 1 (addrOf .intcap x) v
  | .wrGpio x v => formatA 1 (addrOf .gpio x) v
  | .wrOlat x v => formatA 1 (addrOf .olat x) v
  | .wrUndef a v => formatA 1 a v
  | .reqOut p l => formatQ p 0 l false
  | .reqNone p u => formatQ p 1 false u
  | .reqRead p u => formatQ p 2 false u
  | .reqWstate p t u => formatQ p 3 t u
  | .reqWany p u => formatQ p 4 false u
  | .reqWspec p t u => formatQ p 5 t u
  | .reqWatch p u => formatQ p 6 false u
  | .reqRsvd p => formatQ p 7 false false
  | .pin p b => formatP 3 p b
  | .poll p => formatP 4 p false
  | .svc x => formatS 5 x.toBit
  | .reset => formatS 6 false
  | .rsvdClass c => formatS c false

/-- The bits of a word that take part in decoding (R82 to R85, R90), by its class and, in class 2,
its kind: every other bit is ignored. -/
def usedBits (w : EventWord) : EventWord :=
  match (classField w).toNat with
  | 0 => 0xFFF00
  | 1 => 0xFFFFF
  | 2 =>
    match (kindField w).toNat with
    | 0 => 0xFFF00
    | 3 => 0xFFF80
    | 5 => 0xFFF80
    | 7 => 0xFFE00
    | _ => 0xFFE80
  | 3 => 0xFF100
  | 4 => 0xFF000
  | 5 => 0xF0100
  | _ => 0xF0000

/-! ## Pseudo-operations and the symbolic interface (R93, R94) -/

/-- `PULSE p`: `PIN p, 1` then `PIN p, 0` (R93). -/
def pulse (p : Pin) : List EventWord := [encode (.pin p true), encode (.pin p false)]

/-- `INIT` is `RESET` (R93). -/
def init : List EventWord := [encode .reset]

/-- `on_register_write(port, register, value)`: WR at `2*index(register) + port` (R94). -/
def onRegisterWrite (x : Port) (t : RegType) (v : Byte) : EventWord := formatA 1 (addrOf t x) v

/-- `on_register_read(port, register)`: RD at the same address (R94). -/
def onRegisterRead (x : Port) (t : RegType) : EventWord := formatA 0 (addrOf t x) 0

/-! ## Textual syntax (R92) -/

/-- The name of a register in the textual syntax, with its port letter (R92); `IOCON` of port B
is written `IOCON.B`. -/
def regText (t : RegType) (x : Port) : String :=
  let name := match t with
    | .iodir => "IODIR"
    | .ipol => "IPOL"
    | .gpinten => "GPINTEN"
    | .defval => "DEFVAL"
    | .intcon => "INTCON"
    | .iocon => "IOCON"
    | .gppu => "GPPU"
    | .intf => "INTF"
    | .intcap => "INTCAP"
    | .gpio => "GPIO"
    | .olat => "OLAT"
  match t, x with
  | .iocon, .a => name
  | .iocon, .b => name ++ ".B"
  | _, .a => name ++ "A"
  | _, .b => name ++ "B"

/-- One hexadecimal digit. -/
def hexDigit (n : Nat) : String :=
  if n < 10 then toString n
  else match n with
    | 10 => "A" | 11 => "B" | 12 => "C" | 13 => "D" | 14 => "E" | _ => "F"

/-- A byte as `0x` and two digits (R14). -/
def byteText (b : Byte) : String := "0x" ++ hexDigit (b.toNat / 16) ++ hexDigit (b.toNat % 16)

/-- A level as one digit. -/
def levelText (l : Level) : String := if l then "1" else "0"

/-- The optional word `pull` (R92). -/
def pullText (u : Pull) : String := if u then " pull" else ""

/-- A REQ line for pin `p`. -/
def reqText (p : Pin) (rest : String) : String := "REQ " ++ toString p.val ++ ", " ++ rest

/-- The line of an operation in the textual syntax; none for the reserved encodings, which the
syntax does not write (R92). -/
def Instr.text : Instr → Option String
  | .rdIodir x => some ("RD " ++ regText .iodir x)
  | .rdIpol x => some ("RD " ++ regText .ipol x)
  | .rdGpinten x => some ("RD " ++ regText .gpinten x)
  | .rdDefval x => some ("RD " ++ regText .defval x)
  | .rdIntcon x => some ("RD " ++ regText .intcon x)
  | .rdIocon x => some ("RD " ++ regText .iocon x)
  | .rdGppu x => some ("RD " ++ regText .gppu x)
  | .rdIntf x => some ("RD " ++ regText .intf x)
  | .rdIntcap x => some ("RD " ++ regText .intcap x)
  | .rdGpio x => some ("RD " ++ regText .gpio x)
  | .rdOlat x => some ("RD " ++ regText .olat x)
  | .rdUndef a => some ("RD @" ++ byteText a)
  | .wrIodir x v => some ("WR " ++ regText .iodir x ++ ", " ++ byteText v)
  | .wrIpol x v => some ("WR " ++ regText .ipol x ++ ", " ++ byteText v)
  | .wrGpinten x v => some ("WR " ++ regText .gpinten x ++ ", " ++ byteText v)
  | .wrDefval x v => some ("WR " ++ regText .defval x ++ ", " ++ byteText v)
  | .wrIntcon x v => some ("WR " ++ regText .intcon x ++ ", " ++ byteText v)
  | .wrIocon x v => some ("WR " ++ regText .iocon x ++ ", " ++ byteText v)
  | .wrGppu x v => some ("WR " ++ regText .gppu x ++ ", " ++ byteText v)
  | .wrIntf x v => some ("WR " ++ regText .intf x ++ ", " ++ byteText v)
  | .wrIntcap x v => some ("WR " ++ regText .intcap x ++ ", " ++ byteText v)
  | .wrGpio x v => some ("WR " ++ regText .gpio x ++ ", " ++ byteText v)
  | .wrOlat x v => some ("WR " ++ regText .olat x ++ ", " ++ byteText v)
  | .wrUndef a v => some ("WR @" ++ byteText a ++ ", " ++ byteText v)
  | .reqOut p l => some (reqText p ("OUT " ++ levelText l))
  | .reqNone p u => some (reqText p ("NONE" ++ pullText u))
  | .reqRead p u => some (reqText p ("READ" ++ pullText u))
  | .reqWstate p t u => some (reqText p ("WSTATE " ++ levelText t ++ pullText u))
  | .reqWany p u => some (reqText p ("WANY" ++ pullText u))
  | .reqWspec p t u => some (reqText p ("WSPEC " ++ levelText t ++ pullText u))
  | .reqWatch p u => some (reqText p ("WATCH" ++ pullText u))
  | .reqRsvd _ => none
  | .pin p b => some ("PIN " ++ toString p.val ++ ", " ++ levelText b)
  | .poll p => some ("POLL " ++ toString p.val)
  | .svc x => some ("SVC " ++ (match x with | .a => "A" | .b => "B"))
  | .reset => some "RESET"
  | .rsvdClass _ => none

end Sys2Proof
end

