-- ==== Sys2Proof/Config.lean ====
section
/-! DEFINITION. The parameters of the block: what an implementation fixes for a run
(spec/00_scope.md R9 to R11, spec/10_state.md R59), as plain data, and the reset constants the
spec decides (R13). Log entries 4 to 8. -/

namespace Sys2Proof

/-- The event source of a pin (R11). The payload of `PollEvery(duration)` has no value in the
source and no rule depends on it (spec/60_exceptions.md R207), so it is not held. -/
inductive EventSource where
  | nativeInterrupt
  | pollEvery
  deriving DecidableEq, Repr

/-- The open parameters, constant over a run: every one is quantified over in the statements. -/
structure Config where
  /-- `IODIR_OUT`: the value of an `IODIR` bit that means output (R9). -/
  iodirOut : Level
  /-- `IOCON_FIXED`: the byte the Reset Handler writes to `IOCON` (R10). -/
  ioconFixed : Byte
  /-- `SRC[p]`: the event source of each pin (R11). -/
  src : Vector EventSource 16
  deriving DecidableEq, Repr

/-- `IODIR_IN = 1 - IODIR_OUT` (R9). -/
def Config.iodirIn (c : Config) : Level := !c.iodirOut

/-- `IODIR_ALLIN`: the byte with all eight bits equal to `IODIR_IN` (R9). -/
def Config.iodirAllIn (c : Config) : Byte := if c.iodirOut then 0x00 else 0xFF

/-- The values used by the spec's vectors (spec/92_eei_decisions.md, open parameters):
`IODIR_OUT = 1`, `IOCON_FIXED = 0x00`, every pin natively interrupting. `State.reset` takes them.
DESIGN CHOICE (log entries 5, 6, 8): unsafe for a claim that rests on one of them. -/
def Config.vectors : Config :=
  { iodirOut := true, ioconFixed := 0x00, src := Vector.replicate 16 .nativeInterrupt }

/-- `RV_DEFVAL` (R13). -/
def Config.rvDefval : Byte := 0x00
/-- `RV_OLAT` (R13). -/
def Config.rvOlat : Byte := 0x00
/-- `RV_INTCAP` (R13). -/
def Config.rvIntcap : Byte := 0x00
/-- `RV_GPIO` (R13). -/
def Config.rvGpio : Byte := 0x00

end Sys2Proof
end

