-- ==== Sys2Proof/Machine/State.lean ====
section
/-! DEFINITION. The state of the block as plain data (spec/10_state.md), the reasons a step can
stop (none), and the state after reset (R58, spec/70_reset_and_hazards.md R222). -/

namespace Sys2Proof.Machine

/-- No event faults: "a model gives every event a next state and never a fault"
(spec/60_exceptions.md R190). The type is closed and has no constructor (log entry 21). -/
inductive Fault where
  deriving DecidableEq, Repr

/-- The reasons an instruction is refused. -/
inductive Refusal where
  /-- Raised by an arm of `exec` whose instruction has no meaning yet; safe. No arm raises it. -/
  | notModelled (mnemonic : String)
  deriving DecidableEq, Repr

/-- The direction of a pad (R37). -/
inductive Dir where
  | input
  | output
  deriving DecidableEq, Repr

/-- The seven requests (R39): `l` the desired level, `t` the target level, `u` the pull. -/
inductive Request where
  | output (l : Level)
  | inNone (u : Pull)
  | inRead (u : Pull)
  | waitState (u : Pull) (t : Level)
  | waitAny (u : Pull)
  | waitSpec (u : Pull) (t : Level)
  | watch (u : Pull)
  deriving DecidableEq, Repr

/-- The lifecycle status of a pin's request; the result of `done` is none, 0 or 1 (R40). -/
inductive Status where
  | idle
  | pending
  | processing
  | done (r : Option Level)
  deriving DecidableEq, Repr

/-- `ews[p]`: the level observed when arming and the edges still required, 0, 1 or 2 (R41). -/
structure EdgeWait where
  start : Level
  rem : Fin 3
  deriving DecidableEq, Repr

/-- One Pin Runtime State record (R36 to R43). -/
@[ext]
structure PinState where
  /-- `dir[p]`, the direction of the pad (R37). -/
  dir : Dir
  /-- `pull[p]`, the pull setting of the pad (R38). -/
  pull : Pull
  /-- `req[p]`; `none` is `NoReq`, which holds only after reset (R39). -/
  req : Option Request
  /-- `st[p]` (R40). -/
  st : Status
  /-- `ews[p]` (R41). -/
  ews : EdgeWait
  /-- `drv[p]`, the level driven while the pad is an output (R42). -/
  drv : Level
  /-- `ref[p]`, the poll reference (R43). -/
  ref : Level
  deriving DecidableEq, Repr

/-- The ten registers replicated per port (R21). -/
@[ext]
structure PortRegs where
  iodir : Byte
  ipol : Byte
  gpinten : Byte
  defval : Byte
  intcon : Byte
  gppu : Byte
  intf : Byte
  intcap : Byte
  gpio : Byte
  olat : Byte
  deriving DecidableEq, Repr

/-- The drive mode of an interrupt-output pin (R45). -/
inductive PinMode where
  | pushPull
  | openDrain
  deriving DecidableEq, Repr

/-- One interrupt-output pin record; open drain at level 0 pulls low, at level 1 releases (R45). -/
structure IntPin where
  mode : PinMode
  level : Level
  deriving DecidableEq, Repr

/-- A result event of the trace `OUT` (R53). -/
inductive ResultEvent where
  | done (p : Pin) (r : Option Level)
  | emit (p : Pin) (l : Level)
  deriving DecidableEq, Repr

/-- The state of the block (R20) and the model's own fields `cfg`, `inbox`, `ret`. -/
structure State where
  /-- The parameters of the run; no event writes them (R59; log entry 4). -/
  cfg : Config
  /-- The registers of port A (R21). -/
  portA : PortRegs
  /-- The registers of port B (R21). -/
  portB : PortRegs
  /-- `IOCON`, one byte shared by the ports (R28). -/
  iocon : Byte
  /-- The sixteen Pin Runtime States (R36). -/
  pins : Vector PinState 16
  /-- `INTPIN[0]`, INTA (R45). -/
  intA : IntPin
  /-- `INTPIN[1]`, INTB (R45). -/
  intB : IntPin
  /-- `ext[p]`, the levels the outside world puts on the pads (R51). -/
  ext : Vector Level 16
  /-- `OUT`, the result trace, oldest first (R53). -/
  out : List ResultEvent
  /-- The model's own: event words sent to the block and not yet taken, oldest first (log entry 1). -/
  inbox : List EventWord
  /-- The model's own: the byte the last event returned to the host, if it returned one (log entry 3). -/
  ret : Option Byte
  deriving DecidableEq, Repr

/-- A pin record after reset (R58). -/
def PinState.reset : PinState :=
  { dir := .input, pull := false, req := none, st := .idle, ews := ⟨false, 0⟩, drv := false, ref := false }

/-- The registers of a port after reset (R58). -/
def PortRegs.reset (c : Config) : PortRegs :=
  { iodir := c.iodirAllIn, ipol := 0x00, gpinten := 0x00, defval := Config.rvDefval, intcon := 0x00,
    gppu := 0x00, intf := 0x00, intcap := Config.rvIntcap, gpio := Config.rvGpio, olat := Config.rvOlat }

/-- A de-asserted interrupt output, as the three configurations of R200 give it: `ODR` (bit 2)
released, else push-pull at the opposite of `INTPOL` (bit 1). -/
def IntPin.idle (iocon : Byte) : IntPin :=
  if iocon.getLsbD 2 then { mode := .openDrain, level := true }
  else { mode := .pushPull, level := !(iocon.getLsbD 1) }

/-- The state at the start of a run with the parameters `c` and the pad levels `ext`: the table of
R58, with `OUT` empty (R222), nothing sent yet and nothing returned. -/
def State.powerOn (c : Config) (ext : Vector Level 16) : State :=
  { cfg := c
    portA := PortRegs.reset c
    portB := PortRegs.reset c
    iocon := c.ioconFixed
    pins := Vector.replicate 16 PinState.reset
    intA := IntPin.idle c.ioconFixed
    intB := IntPin.idle c.ioconFixed
    ext := ext
    out := []
    inbox := []
    ret := none }

/-- The machine right after reset: "the reset state" of spec/95_test_vectors.md, with the values
its vectors use for the open parameters (log entries 5 to 8). -/
def State.reset : State := State.powerOn Config.vectors (Vector.replicate 16 false)

end Sys2Proof.Machine
end

