-- ==== Sys2Proof/Machine/Operands.lean ====
section
/-! DEFINITION. The operand forms: a bit of a byte, the port and bit of a pin, the register of a
type and port, the bit `R<p>` of a pin, the pin record, the pad levels
(spec/00_scope.md R14, spec/10_state.md R22, R47, R50, R52, spec/30_encoding.md R86). -/

namespace Sys2Proof.Machine

/-! ## Bits of a byte (R14) -/

/-- The bit positions in ascending order: `for n in 0..7` (R15). -/
def bitOrder : List BitIdx := [0, 1, 2, 3, 4, 5, 6, 7]

/-- `b[n]` (R14). -/
def bitAt (b : Byte) (n : BitIdx) : Level := b.getLsbD n.val

/-- The byte `b` with bit `n` set to `v` and the other seven as they were (R14). -/
def setBitAt (b : Byte) (n : BitIdx) (v : Level) : Byte :=
  if v then b ||| (1#8 <<< n.val) else b &&& ~~~(1#8 <<< n.val)

/-- The byte whose bit `n` is `f n`. -/
def byteOf (f : BitIdx → Level) : Byte :=
  bitOrder.foldl (fun b n => setBitAt b n (f n)) 0x00

/-- `for n in 0..7` over the state (R15). -/
def forBits (f : BitIdx → State → State) (s : State) : State :=
  bitOrder.foldl (fun s n => f n s) s

/-! ## Pins and ports: bit n of port X is pin 8X+n (R8, R22, R86) -/

/-- The port of a pin, `p div 8`. -/
def portOf (p : Pin) : Port := if p.val < 8 then .a else .b

/-- The bit of a pin in its port, `p mod 8`. -/
def bitOf (p : Pin) : BitIdx := ⟨p.val % 8, Nat.mod_lt _ (by decide)⟩

/-- The pin `8X+n`. -/
def pinOf (x : Port) (n : BitIdx) : Pin :=
  match x with
  | .a => ⟨n.val, Nat.lt_trans n.isLt (by decide)⟩
  | .b => ⟨8 + n.val, Nat.add_lt_add_left n.isLt 8⟩

/-! ## Registers (R21) -/

/-- The registers of a port. -/
def State.port (s : State) : Port → PortRegs
  | .a => s.portA
  | .b => s.portB

/-- The state with the registers of one port replaced. -/
def State.setPort (s : State) (x : Port) (r : PortRegs) : State :=
  match x with
  | .a => { s with portA := r }
  | .b => { s with portB := r }

/-- The byte `R[X]` of a register type; `IOCON` is one byte for both ports (R21). -/
def State.reg (s : State) (t : RegType) (x : Port) : Byte :=
  match t with
  | .iodir => (s.port x).iodir
  | .ipol => (s.port x).ipol
  | .gpinten => (s.port x).gpinten
  | .defval => (s.port x).defval
  | .intcon => (s.port x).intcon
  | .iocon => s.iocon
  | .gppu => (s.port x).gppu
  | .intf => (s.port x).intf
  | .intcap => (s.port x).intcap
  | .gpio => (s.port x).gpio
  | .olat => (s.port x).olat

/-- `R[X] <- v`. -/
def State.setReg (s : State) (t : RegType) (x : Port) (v : Byte) : State :=
  match t with
  | .iodir => s.setPort x { s.port x with iodir := v }
  | .ipol => s.setPort x { s.port x with ipol := v }
  | .gpinten => s.setPort x { s.port x with gpinten := v }
  | .defval => s.setPort x { s.port x with defval := v }
  | .intcon => s.setPort x { s.port x with intcon := v }
  | .iocon => { s with iocon := v }
  | .gppu => s.setPort x { s.port x with gppu := v }
  | .intf => s.setPort x { s.port x with intf := v }
  | .intcap => s.setPort x { s.port x with intcap := v }
  | .gpio => s.setPort x { s.port x with gpio := v }
  | .olat => s.setPort x { s.port x with olat := v }

/-- `R<p>`, the one bit of pin `p` (R14). -/
def State.regBit (s : State) (t : RegType) (p : Pin) : Level := bitAt (s.reg t (portOf p)) (bitOf p)

/-- `R<p> <- v`: that one bit is written, the other seven stay (R14). -/
def State.setRegBit (s : State) (t : RegType) (p : Pin) (v : Level) : State :=
  s.setReg t (portOf p) (setBitAt (s.reg t (portOf p)) (bitOf p) v)

/-- The 16-bit view `R[1] ++ R[0]` of a register type: bit `p` is pin `p` (spec/20_memory.md R66). -/
def State.view16 (s : State) (t : RegType) : BitVec 16 := s.reg t .b ++ s.reg t .a

/-- `IODIR<p> = IODIR_OUT` (R23). -/
def State.iodirIsOut (s : State) (p : Pin) : Bool := s.regBit .iodir p == s.cfg.iodirOut

/-! ## Pin records and pads -/

/-- The Pin Runtime State of pin `p` (R36). -/
def State.pin (s : State) (p : Pin) : PinState := s.pins[p]

/-- The state with the record of pin `p` replaced. -/
def State.setPin (s : State) (p : Pin) (x : PinState) : State :=
  { s with pins := s.pins.set p x }

/-- `ext[p]` (R51). -/
def State.extLevel (s : State) (p : Pin) : Level := s.ext[p]

/-- `ext[p] <- b` (R51). -/
def State.setExt (s : State) (p : Pin) (b : Level) : State :=
  { s with ext := s.ext.set p b }

/-- `SRC[p]` (R11). -/
def State.source (s : State) (p : Pin) : EventSource := s.cfg.src[p]

/-- `OUT += e` (R15, R53). -/
def State.append (s : State) (e : ResultEvent) : State := { s with out := s.out ++ [e] }

/-- `INTPIN[k]`: INTA serves port A, INTB port B (R45). -/
def State.intPin (s : State) : Port → IntPin
  | .a => s.intA
  | .b => s.intB

/-- `PinLevel(p)`: the driven level of an output, the external level of an input (R52). -/
def State.pinLevel (s : State) (p : Pin) : Level :=
  match (s.pin p).dir with
  | .output => (s.pin p).drv
  | .input => s.extLevel p

/-- `Sample(X)`: bit `n` is `PinLevel(8X+n)`; no inversion (R52). -/
def State.sample (s : State) (x : Port) : Byte := byteOf (fun n => s.pinLevel (pinOf x n))

/-- Pad output `DIR[p]` (R47). -/
def State.padDir (s : State) (p : Pin) : Dir := (s.pin p).dir

/-- Pad output `PULL[p]` (R47). -/
def State.padPull (s : State) (p : Pin) : Pull := (s.pin p).pull

/-- Pad output `DRV[p]`: the block drives the pad only while the pin is an output (R47). -/
def State.padDrive (s : State) (p : Pin) : Option Level :=
  match (s.pin p).dir with
  | .output => some (s.pin p).drv
  | .input => none

end Sys2Proof.Machine
end

