-- ==== Sys2Proof/Machine/Flags.lean ====
section
/-! DEFINITION. The flags `INTF` and the interrupt outputs computed from them
(spec/60_exceptions.md R197 to R203). -/

namespace Sys2Proof.Machine

/-- `IntOut(iocon, fa, fb)`: MIRROR is bit 6, ODR bit 2, INTPOL bit 1 (R199; log entry 9). -/
def intOut (iocon fa fb : Byte) : IntPin × IntPin :=
  let mirror := iocon.getLsbD 6
  let odr := iocon.getLsbD 2
  let intpol := iocon.getLsbD 1
  let a := fa != 0x00
  let b := fb != 0x00
  let both := a || b
  let a := if mirror then both else a
  let b := if mirror then both else b
  let mode : PinMode := if odr then .openDrain else .pushPull
  let active := if odr then false else intpol
  ({ mode := mode, level := if a then active else !active },
   { mode := mode, level := if b then active else !active })

/-- `UpdateInt()` (R199). -/
def updateInt (s : State) : State :=
  let o := intOut s.iocon (s.reg .intf .a) (s.reg .intf .b)
  { s with intA := o.1, intB := o.2 }

/-- What a firing source does, shared by PIN and POLL; this block's counterpart of taking an
exception (R202): the flag is set, the outputs follow, nothing else changes. -/
def raiseFlag (p : Pin) (s : State) : State := updateInt (s.setRegBit .intf p true)

/-- A source is enabled: an input pin that is armed (R171, R173, R197, R198). -/
def sourceEnabled (p : Pin) (s : State) : Bool :=
  (s.pin p).dir == .input && s.regBit .gpinten p

end Sys2Proof.Machine
end

