-- ==== Sys2Proof/Machine/Ops.lean ====
section
/-! DEFINITION. The procedures the events share: Arm, Disarm, Complete, Assign and the entries of
the requests (spec/41_request_port.md R143 to R154), Advance and the compound GPIO read
(spec/42_pin_events.md R176, R177), the derived request (spec/40_register_port.md R122), the byte
returned to the host, and the taking of the next event. -/

namespace Sys2Proof.Machine

/-! ## Arming and completing -/

/-- `Arm(p, l)` (R143). -/
def arm (p : Pin) (l : Level) (s : State) : State :=
  let s := s.setRegBit .gpinten p true
  s.setPin p { s.pin p with ref := l }

/-- `Disarm(p)` (R144). -/
def disarm (p : Pin) (s : State) : State :=
  updateInt ((s.setRegBit .gpinten p false).setRegBit .intf p false)

/-- `st[p] <- v`. -/
def setStatus (p : Pin) (v : Status) (s : State) : State := s.setPin p { s.pin p with st := v }

/-- `st[p] <- Done(r) ; OUT += DONE(p, r)`, the end of a request. -/
def finish (p : Pin) (r : Option Level) (s : State) : State :=
  (setStatus p (.done r) s).append (.done p r)

/-- `Complete(p, r)` (R145). -/
def complete (p : Pin) (r : Level) (s : State) : State := finish p (some r) (disarm p s)

/-! ## Delivery -/

/-- `rem - 1`; the counter never goes below 0 (R153 corner (e); log entry 12). -/
def decRem (r : Fin 3) : Fin 3 := ⟨r.val - 1, Nat.lt_of_le_of_lt (Nat.sub_le _ _) r.isLt⟩

/-- The case table of `Advance` (R177), for the request `r` of a suspended, armed pin. -/
def resume (p : Pin) (f l : Level) (r : Option Request) (s : State) : State :=
  match r with
  | some (.waitState _ t) => if l == t then complete p t s else s
  | some (.waitAny _) => if f then complete p l s else s
  | some (.waitSpec _ t) =>
    if f then
      let rem := decRem (s.pin p).ews.rem
      let s := s.setPin p { s.pin p with ews := { (s.pin p).ews with rem := rem } }
      if rem == 0 then complete p t s else s
    else s
  | some (.watch _) => if f then s.append (.emit p l) else s
  | some (.output _) => s
  | some (.inNone _) => s
  | some (.inRead _) => s
  | none => s

/-- `Advance(p, f, l)` (R177): nothing for a pin that is not suspended and armed. -/
def advance (p : Pin) (f l : Level) (s : State) : State :=
  if (s.pin p).st == .processing && s.regBit .gpinten p then resume p f l (s.pin p).req s else s

/-- `GpioRead(X)`, the compound GPIO read (R176): the byte read and the state after it. INTF is
captured first; this is also the block's counterpart of returning from an interrupt (R203). -/
def gpioRead (x : Port) (s : State) : Byte × State :=
  let f := s.reg .intf x
  let v := s.sample x
  let s := updateInt ((s.setReg .gpio x v).setReg .intf x 0x00)
  (v, forBits (fun n => advance (pinOf x n) (bitAt f n) (bitAt v n)) s)

/-! ## Assigning a request -/

/-- `EntryInput(p, u)` (R147). -/
def entryInput (p : Pin) (u : Pull) (s : State) : State :=
  let s := s.setRegBit .iodir p s.cfg.iodirIn
  let s := s.setPin p { s.pin p with dir := .input }
  let s := s.setRegBit .gppu p u
  s.setPin p { s.pin p with pull := u }

/-- The entry of `Output(l)` (R148). -/
def entryOutput (p : Pin) (l : Level) (s : State) : State :=
  let s := s.setRegBit .iodir p s.cfg.iodirOut
  let s := s.setRegBit .olat p l
  let s := s.setPin p { s.pin p with drv := l, dir := .output }
  finish p none s

/-- The entry of `InNone(u)` (R149). -/
def entryNone (p : Pin) (u : Pull) (s : State) : State := finish p none (entryInput p u s)

/-- The entry of `InRead(u)` (R150). -/
def entryRead (p : Pin) (u : Pull) (s : State) : State :=
  let r := gpioRead (portOf p) (entryInput p u s)
  finish p (some (bitAt r.1 (bitOf p))) r.2

/-- The entry of `WaitState(u, t)` (R151). -/
def entryWaitState (p : Pin) (u : Pull) (t : Level) (s : State) : State :=
  let r := gpioRead (portOf p) (entryInput p u s)
  let v := bitAt r.1 (bitOf p)
  if v == t then finish p (some t) r.2 else arm p v r.2

/-- The entry of `WaitAny(u)` (R152): no GPIO read. -/
def entryWaitAny (p : Pin) (u : Pull) (s : State) : State :=
  let s := entryInput p u s
  arm p (s.extLevel p) s

/-- The entry of `WaitSpec(u, t)` (R153). -/
def entryWaitSpec (p : Pin) (u : Pull) (t : Level) (s : State) : State :=
  let r := gpioRead (portOf p) (entryInput p u s)
  let v := bitAt r.1 (bitOf p)
  let s := r.2
  let s := s.setPin p { s.pin p with ews := { start := v, rem := if v != t then 1 else 2 } }
  arm p v s

/-- The entry of `Watch(u)` (R154). -/
def entryWatch (p : Pin) (u : Pull) (s : State) : State :=
  let r := gpioRead (portOf p) (entryInput p u s)
  let v := bitAt r.1 (bitOf p)
  arm p v (r.2.append (.emit p v))

/-- `Entry(p, r)` (R147 to R154). -/
def entry (p : Pin) (r : Request) (s : State) : State :=
  match r with
  | .output l => entryOutput p l s
  | .inNone u => entryNone p u s
  | .inRead u => entryRead p u s
  | .waitState u t => entryWaitState p u t s
  | .waitAny u => entryWaitAny p u s
  | .waitSpec u t => entryWaitSpec p u t s
  | .watch u => entryWatch p u s

/-- `Assign(p, r)`, the one way a pin gets a request (R146). -/
def assign (p : Pin) (r : Request) (s : State) : State :=
  let s := disarm p s
  let s := s.setPin p { s.pin p with req := some r, ews := ⟨false, 0⟩ }
  let s := setStatus p .pending s
  let s := setStatus p .processing s
  entry p r s

/-- `Derive(p)`, the request the registers of a pin express (R122). -/
def derive (p : Pin) (s : State) : Request :=
  if s.iodirIsOut p then .output (s.regBit .olat p)
  else if s.regBit .gpinten p then .watch (s.regBit .gppu p)
  else .inNone (s.regBit .gppu p)

/-! ## The host's side and the next event -/

/-- An RD event's outcome: the byte is its output (R82; log entry 3). -/
def returning (r : Byte × State) : State := { r.2 with ret := some r.1 }

/-- The next event and the state it is taken in: the oldest word of the inbox leaves it, and no
byte has been returned yet (R70; log entries 1 and 3). -/
def fetch (s : State) : Option (EventWord × State) :=
  match s.inbox with
  | [] => none
  | w :: rest => some (w, { s with inbox := rest, ret := none })

end Sys2Proof.Machine
end

