-- ==== Sys2Proof/Machine/PinEvents.lean ====
section
/-! DEFINITION. The PIN, POLL and SVC operations (spec/42_pin_events.md R171, R173, R175). -/

namespace Sys2Proof.Machine

/-- The effect of PIN (R171). -/
def pinEvent (p : Pin) (b : Level) (s : State) : State :=
  let old := s.extLevel p
  let s := s.setExt p b
  if b != old && s.source p == .nativeInterrupt && sourceEnabled p s then raiseFlag p s else s

/-- The effect of POLL (R173). -/
def pollEvent (p : Pin) (s : State) : State :=
  if s.source p == .pollEvery && sourceEnabled p s then
    let s := if s.extLevel p != (s.pin p).ref then raiseFlag p s else s
    s.setPin p { s.pin p with ref := s.extLevel p }
  else s

/-- The effect of SVC (R175): the value read is dropped. -/
def serviceEvent (x : Port) (s : State) : State :=
  if s.reg .intf x != 0x00 then (gpioRead x s).2 else s

/-- PIN (R171). -/
def execPin (p : Pin) (b : Level) (s : State) : Host.Outcome State Fault Refusal :=
  .next (pinEvent p b s)

/-- POLL (R173). -/
def execPoll (p : Pin) (s : State) : Host.Outcome State Fault Refusal :=
  .next (pollEvent p s)

/-- SVC (R175). -/
def execSvc (x : Port) (s : State) : Host.Outcome State Fault Refusal :=
  .next (serviceEvent x s)

end Sys2Proof.Machine
end

