-- ==== Sys2Proof/Machine/RegisterReads.lean ====
section
/-! DEFINITION. The RD operations (spec/40_register_port.md R100 to R111) and the primitive
`RegRead` (spec/20_memory.md R63). -/

namespace Sys2Proof.Machine

/-- The read rule of each register type: the fixed registers read 0x00, `GPIO` takes a compound
read, the others read the stored byte (R34, R100 to R110). -/
def readReg (t : RegType) (x : Port) (s : State) : Byte × State :=
  match t with
  | .iodir => (s.reg .iodir x, s)
  | .ipol => (0x00, s)
  | .gpinten => (s.reg .gpinten x, s)
  | .defval => (s.reg .defval x, s)
  | .intcon => (0x00, s)
  | .iocon => (s.reg .iocon x, s)
  | .gppu => (s.reg .gppu x, s)
  | .intf => (s.reg .intf x, s)
  | .intcap => (0x00, s)
  | .gpio => gpioRead x s
  | .olat => (s.reg .olat x, s)

/-- `RegRead(a)` (R63): an undefined address reads 0x00 and changes nothing (R62). -/
def regRead (a : Byte) (s : State) : Byte × State :=
  match regOfAddr a with
  | some t => readReg t (portOfAddr a) s
  | none => (0x00, s)

/-- RD.IODIR (R101). -/
def execRdIodir (x : Port) (s : State) : Host.Outcome State Fault Refusal :=
  .next (returning (readReg .iodir x s))

/-- RD.IPOL (R102). -/
def execRdIpol (x : Port) (s : State) : Host.Outcome State Fault Refusal :=
  .next (returning (readReg .ipol x s))

/-- RD.GPINTEN (R103). -/
def execRdGpinten (x : Port) (s : State) : Host.Outcome State Fault Refusal :=
  .next (returning (readReg .gpinten x s))

/-- RD.DEFVAL (R104). -/
def execRdDefval (x : Port) (s : State) : Host.Outcome State Fault Refusal :=
  .next (returning (readReg .defval x s))

/-- RD.INTCON (R105). -/
def execRdIntcon (x : Port) (s : State) : Host.Outcome State Fault Refusal :=
  .next (returning (readReg .intcon x s))

/-- RD.IOCON (R106): both addresses give the one byte. -/
def execRdIocon (x : Port) (s : State) : Host.Outcome State Fault Refusal :=
  .next (returning (readReg .iocon x s))

/-- RD.GPPU (R107). -/
def execRdGppu (x : Port) (s : State) : Host.Outcome State Fault Refusal :=
  .next (returning (readReg .gppu x s))

/-- RD.INTF (R108): no side effect. -/
def execRdIntf (x : Port) (s : State) : Host.Outcome State Fault Refusal :=
  .next (returning (readReg .intf x s))

/-- RD.INTCAP (R109). -/
def execRdIntcap (x : Port) (s : State) : Host.Outcome State Fault Refusal :=
  .next (returning (readReg .intcap x s))

/-- RD.GPIO (R110): the one read with a side effect. -/
def execRdGpio (x : Port) (s : State) : Host.Outcome State Fault Refusal :=
  .next (returning (readReg .gpio x s))

/-- RD.OLAT (R100). -/
def execRdOlat (x : Port) (s : State) : Host.Outcome State Fault Refusal :=
  .next (returning (readReg .olat x s))

/-- RD.UNDEF (R111): 0x00, whatever the address. -/
def execRdUndef (_addr : Byte) (s : State) : Host.Outcome State Fault Refusal :=
  .next (returning (0x00, s))

end Sys2Proof.Machine
end

