-- ==== Sys2Proof/Machine/RequestPort.lean ====
section
/-! DEFINITION. The REQ operations (spec/41_request_port.md R148 to R155): each assigns one request
to one pin; the reserved kind does nothing. -/

namespace Sys2Proof.Machine

/-- REQ.OUT (R148). -/
def execReqOut (p : Pin) (l : Level) (s : State) : Host.Outcome State Fault Refusal :=
  .next (assign p (.output l) s)

/-- REQ.NONE (R149). -/
def execReqNone (p : Pin) (u : Pull) (s : State) : Host.Outcome State Fault Refusal :=
  .next (assign p (.inNone u) s)

/-- REQ.READ (R150). -/
def execReqRead (p : Pin) (u : Pull) (s : State) : Host.Outcome State Fault Refusal :=
  .next (assign p (.inRead u) s)

/-- REQ.WSTATE (R151). -/
def execReqWstate (p : Pin) (t : Level) (u : Pull) (s : State) : Host.Outcome State Fault Refusal :=
  .next (assign p (.waitState u t) s)

/-- REQ.WANY (R152). -/
def execReqWany (p : Pin) (u : Pull) (s : State) : Host.Outcome State Fault Refusal :=
  .next (assign p (.waitAny u) s)

/-- REQ.WSPEC (R153). -/
def execReqWspec (p : Pin) (t : Level) (u : Pull) (s : State) : Host.Outcome State Fault Refusal :=
  .next (assign p (.waitSpec u t) s)

/-- REQ.WATCH (R154). -/
def execReqWatch (p : Pin) (u : Pull) (s : State) : Host.Outcome State Fault Refusal :=
  .next (assign p (.watch u) s)

/-- REQ.RSVD (R155, R89): ignored; the pin's current request is not abandoned (log entry 11). -/
def execReqRsvd (_p : Pin) (s : State) : Host.Outcome State Fault Refusal := .next s

end Sys2Proof.Machine
end

