-- ==== Sys2Proof/Machine/ResetHandler.lean ====
section
/-! DEFINITION. The RESET operation (spec/70_reset_and_hazards.md R220) and the reserved classes
(spec/30_encoding.md R88). -/

namespace Sys2Proof.Machine

/-- `for p in 0..15` (R220). -/
def forPins (f : Pin → State → State) (s : State) : State :=
  forBits (fun n => f (pinOf .b n)) (forBits (fun n => f (pinOf .a n)) s)

/-- What RESET does to one pin: it is abandoned, silently (R220). -/
def resetPin (p : Pin) (s : State) : State :=
  let s := (s.setRegBit .gpinten p false).setRegBit .intf p false
  s.setPin p
    { dir := .input, pull := false, req := none, st := .idle, ews := ⟨false, 0⟩, drv := false, ref := false }

/-- What RESET does to the registers of one port (R220). -/
def resetPort (x : Port) (s : State) : State :=
  let s := s.setReg .iodir x s.cfg.iodirAllIn
  let s := ((s.setReg .ipol x 0x00).setReg .intcon x 0x00).setReg .intcap x Config.rvIntcap
  let s := (s.setReg .gpinten x 0x00).setReg .intf x 0x00
  (((s.setReg .defval x Config.rvDefval).setReg .gppu x 0x00).setReg .gpio x Config.rvGpio).setReg
    .olat x Config.rvOlat

/-- The effect of RESET (R220): `ext` and `OUT` are not touched. -/
def resetEvent (s : State) : State :=
  let s := forPins resetPin s
  let s := resetPort .b (resetPort .a s)
  updateInt (s.setReg .iocon .a s.cfg.ioconFixed)

/-- RESET (R220). -/
def execReset (s : State) : Host.Outcome State Fault Refusal := .next (resetEvent s)

/-- RSVD.CLASS (R88): not an operation; the word is ignored (log entry 11). -/
def execRsvdClass (_cls : BitVec 4) (s : State) : Host.Outcome State Fault Refusal := .next s

end Sys2Proof.Machine
end

