-- ==== Sys2Proof/Machine/RegisterWrites.lean ====
section
/-! DEFINITION. The WR operations that originate no request (spec/40_register_port.md R112 to
R119): all are ignored but WR.DEFVAL. -/

namespace Sys2Proof.Machine

/-- An ignored write changes nothing (spec/60_exceptions.md R191). -/
def ignoreWrite (s : State) : State := s

/-- `DEFVAL[X] <- data`: the byte is stored whole (R114). -/
def writeDefval (x : Port) (data : Byte) (s : State) : State := s.setReg .defval x data

/-- WR.IPOL (R112). -/
def execWrIpol (_x : Port) (_data : Byte) (s : State) : Host.Outcome State Fault Refusal :=
  .next (ignoreWrite s)

/-- WR.DEFVAL (R114). -/
def execWrDefval (x : Port) (data : Byte) (s : State) : Host.Outcome State Fault Refusal :=
  .next (writeDefval x data s)

/-- WR.INTCON (R115). -/
def execWrIntcon (_x : Port) (_data : Byte) (s : State) : Host.Outcome State Fault Refusal :=
  .next (ignoreWrite s)

/-- WR.IOCON (R116). -/
def execWrIocon (_x : Port) (_data : Byte) (s : State) : Host.Outcome State Fault Refusal :=
  .next (ignoreWrite s)

/-- WR.INTF (R117). -/
def execWrIntf (_x : Port) (_data : Byte) (s : State) : Host.Outcome State Fault Refusal :=
  .next (ignoreWrite s)

/-- WR.INTCAP (R118). -/
def execWrIntcap (_x : Port) (_data : Byte) (s : State) : Host.Outcome State Fault Refusal :=
  .next (ignoreWrite s)

/-- WR.GPIO (R119): it does not write `OLAT` and does not clear `INTF`. -/
def execWrGpio (_x : Port) (_data : Byte) (s : State) : Host.Outcome State Fault Refusal :=
  .next (ignoreWrite s)

/-- WR.UNDEF (R113). -/
def execWrUndef (_addr _data : Byte) (s : State) : Host.Outcome State Fault Refusal :=
  .next (ignoreWrite s)

end Sys2Proof.Machine
end

