-- ==== Sys2Proof/Machine/Translator.lean ====
section
/-! DEFINITION. The translator: the WR operations that originate requests
(spec/40_register_port.md R121 to R129), and the primitive `RegWrite` (spec/20_memory.md R64). -/

namespace Sys2Proof.Machine

/-- One pin of WR.IODIR: `d` is its bit of `data`, `old` its bit of the byte stored when the event
began (R123, R127). -/
def writeIodirPin (p : Pin) (d old : Level) (s : State) : State :=
  if d != old then
    if d == s.cfg.iodirOut then assign p (.output (s.regBit .olat p)) s
    else assign p (.inNone (s.regBit .gppu p)) s
  else s

/-- One pin of WR.OLAT (R124). -/
def writeOlatPin (p : Pin) (d old : Level) (s : State) : State :=
  if d != old then
    if s.iodirIsOut p then assign p (.output d) s
    else s.setRegBit .olat p d
  else s

/-- One pin of WR.GPPU (R125): `GPINTEN<p>` is read when the loop reaches the pin. -/
def writeGppuPin (p : Pin) (d old : Level) (s : State) : State :=
  if d != old then
    if s.iodirIsOut p then s.setRegBit .gppu p d
    else if s.regBit .gpinten p then assign p (.watch d) s
    else assign p (.inNone d) s
  else s

/-- One pin of WR.GPINTEN (R126): an output pin cannot be armed. -/
def writeGpintenPin (p : Pin) (d old : Level) (s : State) : State :=
  let e := if s.iodirIsOut p then false else d
  if e != old then
    if e then assign p (.watch (s.regBit .gppu p)) s
    else assign p (.inNone (s.regBit .gppu p)) s
  else s

/-- The loop of a translator write: `old` is taken once, before it (R127, R129). -/
def translate (f : Pin → Level → Level → State → State) (x : Port) (data old : Byte) (s : State) : State :=
  forBits (fun n => f (pinOf x n) (bitAt data n) (bitAt old n)) s

/-- The effect of WR.IODIR (R123). -/
def writeIodir (x : Port) (data : Byte) (s : State) : State :=
  translate writeIodirPin x data (s.reg .iodir x) s

/-- The effect of WR.OLAT (R124). -/
def writeOlat (x : Port) (data : Byte) (s : State) : State :=
  translate writeOlatPin x data (s.reg .olat x) s

/-- The effect of WR.GPPU (R125). -/
def writeGppu (x : Port) (data : Byte) (s : State) : State :=
  translate writeGppuPin x data (s.reg .gppu x) s

/-- The effect of WR.GPINTEN (R126). -/
def writeGpinten (x : Port) (data : Byte) (s : State) : State :=
  translate writeGpintenPin x data (s.reg .gpinten x) s

/-- The write rule of each register type (R34). -/
def writeReg (t : RegType) (x : Port) (data : Byte) (s : State) : State :=
  match t with
  | .iodir => writeIodir x data s
  | .ipol => ignoreWrite s
  | .gpinten => writeGpinten x data s
  | .defval => writeDefval x data s
  | .intcon => ignoreWrite s
  | .iocon => ignoreWrite s
  | .gppu => writeGppu x data s
  | .intf => ignoreWrite s
  | .intcap => ignoreWrite s
  | .gpio => ignoreWrite s
  | .olat => writeOlat x data s

/-- `RegWrite(a, v)` (R64): a write to an undefined address changes nothing (R62). -/
def regWrite (a v : Byte) (s : State) : State :=
  match regOfAddr a with
  | some t => writeReg t (portOfAddr a) v s
  | none => s

/-- WR.IODIR (R123). -/
def execWrIodir (x : Port) (data : Byte) (s : State) : Host.Outcome State Fault Refusal :=
  .next (writeIodir x data s)

/-- WR.GPINTEN (R126). -/
def execWrGpinten (x : Port) (data : Byte) (s : State) : Host.Outcome State Fault Refusal :=
  .next (writeGpinten x data s)

/-- WR.GPPU (R125). -/
def execWrGppu (x : Port) (data : Byte) (s : State) : Host.Outcome State Fault Refusal :=
  .next (writeGppu x data s)

/-- WR.OLAT (R124). -/
def execWrOlat (x : Port) (data : Byte) (s : State) : Host.Outcome State Fault Refusal :=
  .next (writeOlat x data s)

end Sys2Proof.Machine
end

