-- ==== Sys2Proof/Machine/Dispatch.lean ====
section
/-! DEFINITION. The dispatch of an event to its meaning, one arm per operation. -/

namespace Sys2Proof.Machine

def exec (i : Instr) (s : State) : Host.Outcome State Fault Refusal :=
  match i with
  | .rdIodir x => Sys2Proof.Machine.execRdIodir x s
  | .rdIpol x => Sys2Proof.Machine.execRdIpol x s
  | .rdGpinten x => Sys2Proof.Machine.execRdGpinten x s
  | .rdDefval x => Sys2Proof.Machine.execRdDefval x s
  | .rdIntcon x => Sys2Proof.Machine.execRdIntcon x s
  | .rdIocon x => Sys2Proof.Machine.execRdIocon x s
  | .rdGppu x => Sys2Proof.Machine.execRdGppu x s
  | .rdIntf x => Sys2Proof.Machine.execRdIntf x s
  | .rdIntcap x => Sys2Proof.Machine.execRdIntcap x s
  | .rdGpio x => Sys2Proof.Machine.execRdGpio x s
  | .rdOlat x => Sys2Proof.Machine.execRdOlat x s
  | .rdUndef a => Sys2Proof.Machine.execRdUndef a s
  | .wrIodir x v => Sys2Proof.Machine.execWrIodir x v s
  | .wrIpol x v => Sys2Proof.Machine.execWrIpol x v s
  | .wrGpinten x v => Sys2Proof.Machine.execWrGpinten x v s
  | .wrDefval x v => Sys2Proof.Machine.execWrDefval x v s
  | .wrIntcon x v => Sys2Proof.Machine.execWrIntcon x v s
  | .wrIocon x v => Sys2Proof.Machine.execWrIocon x v s
  | .wrGppu x v => Sys2Proof.Machine.execWrGppu x v s
  | .wrIntf x v => Sys2Proof.Machine.execWrIntf x v s
  | .wrIntcap x v => Sys2Proof.Machine.execWrIntcap x v s
  | .wrGpio x v => Sys2Proof.Machine.execWrGpio x v s
  | .wrOlat x v => Sys2Proof.Machine.execWrOlat x v s
  | .wrUndef a v => Sys2Proof.Machine.execWrUndef a v s
  | .reqOut p l => Sys2Proof.Machine.execReqOut p l s
  | .reqNone p u => Sys2Proof.Machine.execReqNone p u s
  | .reqRead p u => Sys2Proof.Machine.execReqRead p u s
  | .reqWstate p t u => Sys2Proof.Machine.execReqWstate p t u s
  | .reqWany p u => Sys2Proof.Machine.execReqWany p u s
  | .reqWspec p t u => Sys2Proof.Machine.execReqWspec p t u s
  | .reqWatch p u => Sys2Proof.Machine.execReqWatch p u s
  | .reqRsvd p => Sys2Proof.Machine.execReqRsvd p s
  | .pin p b => Sys2Proof.Machine.execPin p b s
  | .poll p => Sys2Proof.Machine.execPoll p s
  | .svc x => Sys2Proof.Machine.execSvc x s
  | .reset => Sys2Proof.Machine.execReset s
  | .rsvdClass cls => Sys2Proof.Machine.execRsvdClass cls s

end Sys2Proof.Machine
end

