-- ==== Sys2Proof/Machine/Step.lean ====
section
/-! DEFINITION. One step of the block, and the outside world's side of the inbox. -/

namespace Sys2Proof.Machine

/-- One step: the oldest event word is taken, decoded and executed whole (spec/20_memory.md R70).
With nothing sent the block waits, unchanged (log entry 2). -/
def step (s : State) : Host.Outcome State Fault Refusal :=
  match fetch s with
  | none => .next s
  | some (w, s1) => exec (decode w) s1

/-- The outside world sends an event word: it is taken after those already sent. -/
def State.feed (s : State) (w : EventWord) : State := { s with inbox := s.inbox ++ [w] }

/-- The state whose next step takes the event word `w`; a number of more than 20 bits is no event
word and sends nothing (log entries 18, 19). -/
def State.withFetchWord (s : State) (_nbits w : Nat) : State :=
  if w < 2 ^ 20 then { s with inbox := BitVec.ofNat 20 w :: s.inbox } else s

end Sys2Proof.Machine
end

