-- ==== Sys2Proof/Safety.lean ====
section
/-! DEFINITION. The terms the statements use: the invariants of spec/10_state.md R35, the frames,
and what one compound GPIO read does to one pin, read off the case table of
spec/42_pin_events.md R177. -/

namespace Sys2Proof.Machine

/-! ## Invariants -/

/-- The four requests that wait for events: WaitState, WaitAny, WaitSpec, Watch. -/
def isWaiting : Option Request → Bool
  | some (.waitState _ _) => true
  | some (.waitAny _) => true
  | some (.waitSpec _ _) => true
  | some (.watch _) => true
  | _ => false

/-- The request is `Output`. -/
def isOutput : Option Request → Bool
  | some (.output _) => true
  | _ => false

/-- The request is `Watch`. -/
def isWatch : Option Request → Bool
  | some (.watch _) => true
  | _ => false

/-- The request is `WaitSpec`. -/
def isWaitSpec : Option Request → Bool
  | some (.waitSpec _ _) => true
  | _ => false

/-- The interrupt outputs equal `IntOut` of the current registers (R35 (g), R199). -/
abbrev outputsFollow (s : State) : Prop :=
  s.intA = (intOut s.iocon (s.reg .intf .a) (s.reg .intf .b)).1 ∧
  s.intB = (intOut s.iocon (s.reg .intf .a) (s.reg .intf .b)).2

/-- The invariants of one pin: R35 (b) to (f) and (h), and from R40 and R41 that `Idle` is `NoReq`,
that a `Watch` is never done and that an armed `WaitSpec` still has an edge to come. -/
abbrev PinInv (s : State) (p : Pin) : Prop :=
  (s.regBit .gpinten p = true ↔ (s.pin p).st = .processing) ∧
  ((s.pin p).st = .processing → isWaiting (s.pin p).req = true) ∧
  (s.regBit .intf p = true → s.regBit .gpinten p = true) ∧
  (s.iodirIsOut p = true ↔ (s.pin p).dir = .output) ∧
  ((s.pin p).dir = .output ↔ isOutput (s.pin p).req = true) ∧
  ((s.pin p).dir = .input → s.regBit .gppu p = (s.pin p).pull) ∧
  ((s.pin p).dir = .output → s.regBit .olat p = (s.pin p).drv) ∧
  (s.pin p).st ≠ .pending ∧
  ((s.pin p).st = .idle ↔ (s.pin p).req = none) ∧
  (isWatch (s.pin p).req = true → (s.pin p).st = .processing) ∧
  (isWaitSpec (s.pin p).req = true → (s.pin p).st = .processing → (s.pin p).ews.rem ≠ 0)

/-- The registers that read as zero in every reachable state (R35 (a)). -/
abbrev fixedRegsZero (s : State) : Prop :=
  s.reg .ipol .a = 0x00 ∧ s.reg .ipol .b = 0x00 ∧ s.reg .intcon .a = 0x00 ∧ s.reg .intcon .b = 0x00 ∧
  s.reg .intcap .a = 0x00 ∧ s.reg .intcap .b = 0x00

/-- The invariants of R35, with `IOCON = IOCON_FIXED` (R28, R106). -/
abbrev Inv (s : State) : Prop :=
  fixedRegsZero s ∧ (∀ p, PinInv s p) ∧ outputsFollow s ∧ s.iocon = s.cfg.ioconFixed

/-! ## Frames -/

/-- What no RD, WR, REQ, POLL or SVC event changes: the parameters, `IOCON`, the outside levels, the
words still to come. -/
abbrev keepsOutside (s t : State) : Prop :=
  t.cfg = s.cfg ∧ t.iocon = s.iocon ∧ t.ext = s.ext ∧ t.inbox = s.inbox

/-- Every register bit but those of `w` is kept (`IOCON` too, through its bits). -/
abbrev keepsBitsBut (w : RegType → Pin → Prop) (s t : State) : Prop :=
  ∀ ty q, ¬ w ty q → t.regBit ty q = s.regBit ty q

/-- Every pin record but those of `w` is kept. -/
abbrev keepsPinsBut (w : Pin → Prop) (s t : State) : Prop :=
  ∀ q, ¬ w q → t.pin q = s.pin q

/-! ## Delivery to one pin -/

/-- What a compound read leaves of one pin: its record, its `GPINTEN` bit and its results. -/
structure Delivery where
  pin : PinState
  armed : Bool
  results : List ResultEvent
  deriving DecidableEq, Repr

/-- The wait of pin `p` ends with `r`: `Done(r)`, disarmed, one `DONE` (R145). -/
def Delivery.ends (p : Pin) (x : PinState) (r : Level) : Delivery :=
  { pin := { x with st := .done (some r) }, armed := false, results := [.done p (some r)] }

/-- Nothing happens to the pin. -/
def Delivery.nothing (x : PinState) (armed : Bool) : Delivery := { pin := x, armed := armed, results := [] }

/-- The case table of R177 for a suspended, armed pin with record `x` and request `r`, captured flag
`f` and sampled level `l`. -/
def deliverTo (p : Pin) (x : PinState) (f l : Bool) (r : Option Request) : Delivery :=
  match r with
  | some (.waitState _ t) => if l = t then .ends p x t else .nothing x true
  | some (.waitAny _) => if f then .ends p x l else .nothing x true
  | some (.waitSpec _ t) =>
    if f then
      if x.ews.rem = 2 then .nothing { x with ews := { x.ews with rem := 1 } } true
      else .ends p { x with ews := { x.ews with rem := 0 } } t
    else .nothing x true
  | some (.watch _) => { pin := x, armed := true, results := if f then [.emit p l] else [] }
  | _ => .nothing x true

/-- What `Advance` does to a pin with record `x` and `GPINTEN` bit `armed` (R177). -/
def deliver (p : Pin) (x : PinState) (armed f l : Bool) : Delivery :=
  if x.st = .processing ∧ armed = true then deliverTo p x f l x.req else .nothing x armed

/-- What a compound read of its port does to pin `q` of state `s`: with its flag and its level as
they stand there (R176). -/
def delivered (s : State) (q : Pin) : Delivery :=
  deliver q (s.pin q) (s.regBit .gpinten q) (s.regBit .intf q) (s.pinLevel q)

/-- The results of delivery to the pins of port `x` other than `but`, as a list whose order carries
no meaning (R179). -/
def deliveredResults (s : State) (x : Port) (but : Option Pin) : List ResultEvent :=
  bitOrder.flatMap fun n => if some (pinOf x n) = but then [] else (delivered s (pinOf x n)).results

/-! ## What an entry read does beside its own request -/

/-- What the assignment of an input-like request with pull `u` to pin `p`, with an entry read, does
to everything but the record, the `GPINTEN` bit and the results of `p` itself: the pin is an input
with that pull (R147); the other pins of the port are delivered to; `INTF` of the port is cleared and
`GPIO` holds the sample, taken with `p` an input (R176); the rest is kept. -/
abbrev readsAtEntry (p : Pin) (u : Pull) (s t : State) : Prop :=
  t.regBit .iodir p = s.cfg.iodirIn ∧ t.regBit .gppu p = u ∧
  (∀ q, q ≠ p → t.pin q = if portOf q = portOf p then (delivered s q).pin else s.pin q) ∧
  (∀ q, q ≠ p →
    t.regBit .gpinten q = if portOf q = portOf p then (delivered s q).armed else s.regBit .gpinten q) ∧
  (∀ q, t.regBit .intf q = if portOf q = portOf p then false else s.regBit .intf q) ∧
  (∀ q, t.regBit .gpio q =
    if q = p then s.extLevel p else if portOf q = portOf p then s.pinLevel q else s.regBit .gpio q) ∧
  keepsBitsBut (fun ty q => ty = .gpinten ∨ ty = .intf ∨ ty = .gpio ∨ ((ty = .iodir ∨ ty = .gppu) ∧ q = p)) s t ∧
  keepsOutside s t ∧ t.ret = s.ret ∧ outputsFollow t

/-- `t` has the results of `s`, then some order of `rs`, then `own` (the order within one snapshot
carries no meaning, R179). -/
abbrev appendsSome (s t : State) (rs own : List ResultEvent) : Prop :=
  t.out.take s.out.length = s.out ∧
  List.Perm ((t.out.drop s.out.length).take rs.length) rs ∧
  (t.out.drop s.out.length).drop rs.length = own

/-! ## Events and ports -/

/-- The port an event acts on; none for RESET, which acts on both, and for the ignored operations,
which act on none. -/
def targetPort : Instr → Option Port
  | .rdIodir x => some x
  | .rdIpol x => some x
  | .rdGpinten x => some x
  | .rdDefval x => some x
  | .rdIntcon x => some x
  | .rdIocon x => some x
  | .rdGppu x => some x
  | .rdIntf x => some x
  | .rdIntcap x => some x
  | .rdGpio x => some x
  | .rdOlat x => some x
  | .rdUndef _ => none
  | .wrIodir x _ => some x
  | .wrIpol x _ => some x
  | .wrGpinten x _ => some x
  | .wrDefval x _ => some x
  | .wrIntcon x _ => some x
  | .wrIocon x _ => some x
  | .wrGppu x _ => some x
  | .wrIntf x _ => some x
  | .wrIntcap x _ => some x
  | .wrGpio x _ => some x
  | .wrOlat x _ => some x
  | .wrUndef _ _ => none
  | .reqOut p _ => some (portOf p)
  | .reqNone p _ => some (portOf p)
  | .reqRead p _ => some (portOf p)
  | .reqWstate p _ _ => some (portOf p)
  | .reqWany p _ => some (portOf p)
  | .reqWspec p _ _ => some (portOf p)
  | .reqWatch p _ => some (portOf p)
  | .reqRsvd p => some (portOf p)
  | .pin p _ => some (portOf p)
  | .poll p => some (portOf p)
  | .svc x => some x
  | .reset => none
  | .rsvdClass _ => none

/-- The state without the registers that no rule but a host read of them reads: `IPOL`, `DEFVAL`,
`INTCON`, `INTCAP` and the stored byte of `GPIO` (R24, R26, R27, R31, R32). -/
def eraseInert (s : State) : State :=
  let clear := fun (t : RegType) (s : State) => (s.setReg t .a 0x00).setReg t .b 0x00
  clear .ipol (clear .defval (clear .intcon (clear .intcap (clear .gpio s))))

end Sys2Proof.Machine
end

