-- ==== Sys2Proof/Certificates/Slice0/Obligations.lean ====
section
/-! DEFINITION. The statements for the provers, from the numbered rules of spec/. Every statement is
about every state, every value of the parameters (`cfg`) and every level on the pads. -/

open Sys2Proof Sys2Proof.Machine

/-! ## The encoding (spec/30_encoding.md) -/

/-- Decoding the encoded word of a well-formed operation gives it back, with every operand at every
value: no bit of an encoding is dropped (sections 2 and 3 of 30_encoding.md). -/
def Obligations.DecodeEncodeRoundTrip : Prop :=
  ∀ i : Instr, i.wellFormed = true → decode (encode i) = i

/-- Every word decodes to a well-formed operation, and encoding that operation gives the word back
but for its ignored bits, which become 0 (30_encoding.md, the derived rule on totality and the rule on
ignored fields; the encoding is the spec's own decision D1). -/
def Obligations.EncodeDecodeKeepsUsedBits : Prop :=
  ∀ w : EventWord, (decode w).wellFormed = true ∧ encode (decode w) = w &&& usedBits w

/-- Two words that agree on the bits that take part in decoding are the same operation (the spec's own
decision D1). -/
def Obligations.IgnoredBitsDoNotDecode : Prop :=
  ∀ w v : EventWord, w &&& usedBits w = v &&& usedBits w → decode v = decode w

/-- The opcode map of class 0 (the spec's own encoding, decisions D1 and D2): each of the 22 defined
addresses, and every address from 0x16. -/
def Obligations.ReadWordsDecodeByAddress : Prop :=
  ∀ w : EventWord, classField w = 0x0 →
    (addrField w = 0x00 → decode w = .rdIodir .a) ∧ (addrField w = 0x01 → decode w = .rdIodir .b) ∧
    (addrField w = 0x02 → decode w = .rdIpol .a) ∧ (addrField w = 0x03 → decode w = .rdIpol .b) ∧
    (addrField w = 0x04 → decode w = .rdGpinten .a) ∧ (addrField w = 0x05 → decode w = .rdGpinten .b) ∧
    (addrField w = 0x06 → decode w = .rdDefval .a) ∧ (addrField w = 0x07 → decode w = .rdDefval .b) ∧
    (addrField w = 0x08 → decode w = .rdIntcon .a) ∧ (addrField w = 0x09 → decode w = .rdIntcon .b) ∧
    (addrField w = 0x0A → decode w = .rdIocon .a) ∧ (addrField w = 0x0B → decode w = .rdIocon .b) ∧
    (addrField w = 0x0C → decode w = .rdGppu .a) ∧ (addrField w = 0x0D → decode w = .rdGppu .b) ∧
    (addrField w = 0x0E → decode w = .rdIntf .a) ∧ (addrField w = 0x0F → decode w = .rdIntf .b) ∧
    (addrField w = 0x10 → decode w = .rdIntcap .a) ∧ (addrField w = 0x11 → decode w = .rdIntcap .b) ∧
    (addrField w = 0x12 → decode w = .rdGpio .a) ∧ (addrField w = 0x13 → decode w = .rdGpio .b) ∧
    (addrField w = 0x14 → decode w = .rdOlat .a) ∧ (addrField w = 0x15 → decode w = .rdOlat .b) ∧
    (0x16 ≤ (addrField w).toNat → decode w = .rdUndef (addrField w))

/-- The opcode map of class 1 (the spec's own encoding, decisions D1 and D2). -/
def Obligations.WriteWordsDecodeByAddress : Prop :=
  ∀ w : EventWord, classField w = 0x1 →
    let v := dataField w
    (addrField w = 0x00 → decode w = .wrIodir .a v) ∧ (addrField w = 0x01 → decode w = .wrIodir .b v) ∧
    (addrField w = 0x02 → decode w = .wrIpol .a v) ∧ (addrField w = 0x03 → decode w = .wrIpol .b v) ∧
    (addrField w = 0x04 → decode w = .wrGpinten .a v) ∧ (addrField w = 0x05 → decode w = .wrGpinten .b v) ∧
    (addrField w = 0x06 → decode w = .wrDefval .a v) ∧ (addrField w = 0x07 → decode w = .wrDefval .b v) ∧
    (addrField w = 0x08 → decode w = .wrIntcon .a v) ∧ (addrField w = 0x09 → decode w = .wrIntcon .b v) ∧
    (addrField w = 0x0A → decode w = .wrIocon .a v) ∧ (addrField w = 0x0B → decode w = .wrIocon .b v) ∧
    (addrField w = 0x0C → decode w = .wrGppu .a v) ∧ (addrField w = 0x0D → decode w = .wrGppu .b v) ∧
    (addrField w = 0x0E → decode w = .wrIntf .a v) ∧ (addrField w = 0x0F → decode w = .wrIntf .b v) ∧
    (addrField w = 0x10 → decode w = .wrIntcap .a v) ∧ (addrField w = 0x11 → decode w = .wrIntcap .b v) ∧
    (addrField w = 0x12 → decode w = .wrGpio .a v) ∧ (addrField w = 0x13 → decode w = .wrGpio .b v) ∧
    (addrField w = 0x14 → decode w = .wrOlat .a v) ∧ (addrField w = 0x15 → decode w = .wrOlat .b v) ∧
    (0x16 ≤ (addrField w).toNat → decode w = .wrUndef (addrField w) v)

/-- The opcode map of classes 2 to 15: the eight kinds of REQ, PIN, POLL, SVC, RESET and the reserved
classes (the spec's own encoding, decision D1). -/
def Obligations.OtherWordsDecodeByClassAndKind : Prop :=
  ∀ w : EventWord,
    let p := pinField w
    let bit8 := w.getLsbD 8
    let u := w.getLsbD 7
    (classField w = 0x2 →
      (kindField w = 0 → decode w = .reqOut p bit8) ∧ (kindField w = 1 → decode w = .reqNone p u) ∧
      (kindField w = 2 → decode w = .reqRead p u) ∧ (kindField w = 3 → decode w = .reqWstate p bit8 u) ∧
      (kindField w = 4 → decode w = .reqWany p u) ∧ (kindField w = 5 → decode w = .reqWspec p bit8 u) ∧
      (kindField w = 6 → decode w = .reqWatch p u) ∧ (kindField w = 7 → decode w = .reqRsvd p)) ∧
    (classField w = 0x3 → decode w = .pin p bit8) ∧
    (classField w = 0x4 → decode w = .poll p) ∧
    (classField w = 0x5 → decode w = .svc (if bit8 then .b else .a)) ∧
    (classField w = 0x6 → decode w = .reset) ∧
    (7 ≤ (classField w).toNat → decode w = .rsvdClass (classField w))

/-- Words that the spec writes out, in the examples of its operation rules and in its derived vectors,
decode to the operations it says they are (the encoding is the spec's own decision D1). -/
def Obligations.ExampleWordsDecode : Prop :=
  decode 0x23100 = .reqOut 3 true ∧ decode 0x24280 = .reqNone 4 true ∧ decode 0x26400 = .reqRead 6 false ∧
  decode 0x20700 = .reqWstate 0 true false ∧ decode 0x22800 = .reqWany 2 false ∧
  decode 0x25A00 = .reqWspec 5 false false ∧ decode 0x28C00 = .reqWatch 8 false ∧ decode 0x2FF80 = .reqRsvd 15 ∧
  decode 0x32100 = .pin 2 true ∧ decode 0x41000 = .poll 1 ∧ decode 0x50100 = .svc .b ∧ decode 0x60000 = .reset ∧
  decode 0x81200 = .rsvdClass 8 ∧ decode 0x01200 = .rdGpio .a ∧ decode 0x0FF00 = .rdUndef 0xFF ∧
  decode 0x107A5 = .wrDefval .b 0xA5 ∧ decode 0x10B42 = .wrIocon .b 0x42 ∧ decode 0x11655 = .wrUndef 0x16 0x55

/-! ## The step -/

/-- A step takes the oldest event word, decodes it and runs the operation it decodes to, on the state
without that word and with no byte returned yet; with no word to take the state stays (log entries 1
to 3: the inbox, the idle step and `ret` are the model's). -/
def Obligations.StepRunsDecodedWord : Prop :=
  ∀ (s : State),
    (∀ (w : EventWord) (rest : List EventWord), s.inbox = w :: rest →
      step s = exec (decode w) { s with inbox := rest, ret := none }) ∧
    (s.inbox = [] → step s = .next s)

/-- No event faults, stops the block or is refused (60_exceptions.md, first rule). -/
def Obligations.EveryEventHasANextState : Prop :=
  (∀ (i : Instr) (s : State), ∃ t, exec i s = .next t) ∧ (∀ s : State, ∃ t, step s = .next t)

/-- The RD event of every address is the primitive `RegRead` of that address, whatever its ignored
bits: its byte is returned and its state left. -/
def Obligations.ReadEventIsRegRead : Prop :=
  ∀ (a ignored : Byte) (s : State),
    exec (decode (formatA 0x0 a ignored)) s = .next { (regRead a s).2 with ret := some (regRead a s).1 }

/-- The WR event of every address and byte is the primitive `RegWrite`. -/
def Obligations.WriteEventIsRegWrite : Prop :=
  ∀ (a v : Byte) (s : State), exec (decode (formatA 0x1 a v)) s = .next (regWrite a v s)

/-! ## Register reads -/

/-- RD.IPOL and RD.INTCON return 0x00 whatever was written and change nothing else. -/
def Obligations.FixedRegistersReadZero : Prop :=
  (∀ w : EventWord, classField w = 0x0 → (addrField w).extractLsb' 1 7 = 1 →
    decode w = .rdIpol (Port.ofBit ((addrField w).getLsbD 0))) ∧
  (∀ w : EventWord, classField w = 0x0 → (addrField w).extractLsb' 1 7 = 4 →
    decode w = .rdIntcon (Port.ofBit ((addrField w).getLsbD 0))) ∧
  (∀ (x : Port) (s : State),
    exec (.rdIpol x) s = .next { s with ret := some 0x00 } ∧
    exec (.rdIntcon x) s = .next { s with ret := some 0x00 })

/-- RD.IODIR, RD.GPINTEN, RD.DEFVAL, RD.GPPU, RD.INTF and RD.OLAT return the stored byte of the port
and change nothing else; in particular reading `INTF` clears no flag. -/
def Obligations.StoredRegistersRead : Prop :=
  ∀ (s : State),
    (exec (.rdIodir .a) s = .next { s with ret := some s.portA.iodir } ∧
     exec (.rdIodir .b) s = .next { s with ret := some s.portB.iodir }) ∧
    (exec (.rdGpinten .a) s = .next { s with ret := some s.portA.gpinten } ∧
     exec (.rdGpinten .b) s = .next { s with ret := some s.portB.gpinten }) ∧
    (exec (.rdDefval .a) s = .next { s with ret := some s.portA.defval } ∧
     exec (.rdDefval .b) s = .next { s with ret := some s.portB.defval }) ∧
    (exec (.rdGppu .a) s = .next { s with ret := some s.portA.gppu } ∧
     exec (.rdGppu .b) s = .next { s with ret := some s.portB.gppu }) ∧
    (exec (.rdIntf .a) s = .next { s with ret := some s.portA.intf } ∧
     exec (.rdIntf .b) s = .next { s with ret := some s.portB.intf }) ∧
    (exec (.rdOlat .a) s = .next { s with ret := some s.portA.olat } ∧
     exec (.rdOlat .b) s = .next { s with ret := some s.portB.olat })

/-- RD.IOCON returns the one shared byte at both addresses, RD.INTCAP and RD.UNDEF return 0x00; none
changes anything else (the spec's own decisions D14 and D15). -/
def Obligations.DecidedRegisterReads : Prop :=
  ∀ (x : Port) (a : Byte) (s : State),
    exec (.rdIocon x) s = .next { s with ret := some s.iocon } ∧
    exec (.rdIntcap x) s = .next { s with ret := some 0x00 } ∧
    exec (.rdUndef a) s = .next { s with ret := some 0x00 }

/-- RD.GPIO (the compound read is the spec's own decision D8): the byte returned has bit n = the driven
level of an output pin, the outside level of an input pin; it is stored in `GPIO`; all flags of the port
are cleared; every pin of the port is delivered its captured flag and level; the results are appended;
the other port, and everything else, is kept; the interrupt outputs follow. (That an output pin reads its
driven level is the spec's own decision D13.) -/
def Obligations.GpioReadEventResult : Prop :=
  ∀ (x : Port) (s : State), ∃ t, exec (.rdGpio x) s = .next t ∧
    (∃ v : Byte, t.ret = some v ∧ t.reg .gpio x = v ∧ ∀ n, bitAt v n =
      match (s.pin (pinOf x n)).dir with
      | .output => (s.pin (pinOf x n)).drv
      | .input => s.extLevel (pinOf x n)) ∧
    t.reg .intf x = 0x00 ∧
    (∀ q, portOf q = x → t.pin q = (delivered s q).pin ∧ t.regBit .gpinten q = (delivered s q).armed) ∧
    keepsPinsBut (fun q => portOf q = x) s t ∧
    keepsBitsBut (fun ty q => portOf q = x ∧ (ty = .gpio ∨ ty = .intf ∨ ty = .gpinten)) s t ∧
    appendsSome s t (deliveredResults s x none) [] ∧
    keepsOutside s t ∧ outputsFollow t

/-! ## Register writes that originate no request -/

/-- WR.IPOL, WR.INTCON, WR.IOCON, WR.INTF, WR.INTCAP and WR.GPIO change nothing (the spec's own decision
D14), nor do the reserved REQ kind and the reserved classes (decision D27; log entry 11). -/
def Obligations.IgnoredEventsChangeNothing : Prop :=
  ∀ (x : Port) (v : Byte) (p : Pin) (c : BitVec 4) (s : State),
    exec (.wrIpol x v) s = .next s ∧ exec (.wrIntcon x v) s = .next s ∧ exec (.wrIocon x v) s = .next s ∧
    exec (.wrIntf x v) s = .next s ∧ exec (.wrIntcap x v) s = .next s ∧ exec (.wrGpio x v) s = .next s ∧
    exec (.reqRsvd p) s = .next s ∧ exec (.rsvdClass c) s = .next s

/-- WR.UNDEF: a write to an address from 0x16 to 0xFF changes nothing. -/
def Obligations.UndefinedAddressWriteIgnored : Prop :=
  (∀ w : EventWord, classField w = 0x1 → 0x16 ≤ (addrField w).toNat →
    decode w = .wrUndef (addrField w) (dataField w)) ∧
  (∀ (a v : Byte) (s : State), exec (.wrUndef a v) s = .next s)

/-- WR.DEFVAL stores the byte whole and changes nothing else. -/
def Obligations.WrDefvalStoresWhole : Prop :=
  (∀ w : EventWord, classField w = 0x1 → (addrField w).extractLsb' 1 7 = 3 →
    decode w = .wrDefval (Port.ofBit ((addrField w).getLsbD 0)) (dataField w)) ∧
  (∀ (v : Byte) (s : State),
    exec (.wrDefval .a v) s = .next { s with portA := { s.portA with defval := v } } ∧
    exec (.wrDefval .b v) s = .next { s with portB := { s.portB with defval := v } })

/-! ## The translator -/

/-- WR.IODIR (the spec's own decision D6): a pin whose bit does not change is untouched; a pin that
becomes an output is assigned `Output` at its latched level, a pin that becomes an input is assigned
`InNone` with its stored pull, both disarmed and unflagged; one `DONE` each, ascending; the register
holds the byte; the frame. -/
def Obligations.WrIodirResult : Prop :=
  ∀ (x : Port) (data : Byte) (s : State), ∃ t, exec (.wrIodir x data) s = .next t ∧
    t.reg .iodir x = data ∧
    (∀ n, let p := pinOf x n
      let d := bitAt data n
      (d = s.regBit .iodir p → t.pin p = s.pin p ∧ ∀ ty, t.regBit ty p = s.regBit ty p) ∧
      (d ≠ s.regBit .iodir p → t.regBit .gpinten p = false ∧ t.regBit .intf p = false ∧
        (d = s.cfg.iodirOut → t.pin p =
          { s.pin p with dir := .output, drv := s.regBit .olat p, req := some (.output (s.regBit .olat p)),
                         st := .done none, ews := ⟨false, 0⟩ }) ∧
        (d ≠ s.cfg.iodirOut → t.pin p =
          { s.pin p with dir := .input, pull := s.regBit .gppu p, req := some (.inNone (s.regBit .gppu p)),
                         st := .done none, ews := ⟨false, 0⟩ }))) ∧
    keepsPinsBut (fun q => portOf q = x) s t ∧
    keepsBitsBut (fun ty q => portOf q = x ∧ (ty = .iodir ∨ ty = .gpinten ∨ ty = .intf)) s t ∧
    t.out = s.out ++ (bitOrder.filter fun n => bitAt data n != s.regBit .iodir (pinOf x n)).map
      (fun n => .done (pinOf x n) none) ∧
    keepsOutside s t ∧ t.ret = s.ret ∧ (outputsFollow s → outputsFollow t) ∧
    (data ≠ s.reg .iodir x → outputsFollow t)

/-- WR.OLAT (the spec's own decisions D6 and D31): a changed bit of an output pin assigns `Output` at
the new level; a changed bit of an input pin is latched and nothing else; the frame. -/
def Obligations.WrOlatResult : Prop :=
  ∀ (x : Port) (data : Byte) (s : State), ∃ t, exec (.wrOlat x data) s = .next t ∧
    t.reg .olat x = data ∧
    (∀ n, let p := pinOf x n
      let d := bitAt data n
      (d ≠ s.regBit .olat p ∧ s.regBit .iodir p = s.cfg.iodirOut →
        t.regBit .gpinten p = false ∧ t.regBit .intf p = false ∧ t.pin p =
          { s.pin p with dir := .output, drv := d, req := some (.output d), st := .done none, ews := ⟨false, 0⟩ }) ∧
      (d = s.regBit .olat p ∨ s.regBit .iodir p ≠ s.cfg.iodirOut →
        t.pin p = s.pin p ∧ ∀ ty, ty ≠ .olat → t.regBit ty p = s.regBit ty p)) ∧
    keepsPinsBut (fun q => portOf q = x) s t ∧
    keepsBitsBut (fun ty q => portOf q = x ∧ (ty = .olat ∨ ty = .gpinten ∨ ty = .intf)) s t ∧
    t.out = s.out ++ (bitOrder.filter fun n => bitAt data n != s.regBit .olat (pinOf x n) &&
      s.regBit .iodir (pinOf x n) == s.cfg.iodirOut).map (fun n => .done (pinOf x n) none) ∧
    keepsOutside s t ∧ t.ret = s.ret ∧ (outputsFollow s → outputsFollow t)

/-- WR.GPPU (the spec's own decisions D6 and D31; R129 for what happens inside the loop). A changed bit
of an output pin is stored and nothing else. A changed bit of an input pin assigns `Watch` with the new
pull if the pin is armed when the loop reaches it, else `InNone`. The first `Watch` of the loop reads
`GPIO`, so every pin that still holds its old request then is delivered to. -/
def Obligations.WrGppuResult : Prop :=
  ∀ (x : Port) (data : Byte) (s : State),
    let changed := fun n => bitAt data n != s.regBit .gppu (pinOf x n)
    let isOut := fun n => s.regBit .iodir (pinOf x n) == s.cfg.iodirOut
    let starts := fun n => changed n && !isOut n && s.regBit .gpinten (pinOf x n)
    let readBefore := fun n => bitOrder.any fun m => decide (m < n) && starts m
    let read := bitOrder.any starts
    let armedAt := fun n => if readBefore n then (delivered s (pinOf x n)).armed else s.regBit .gpinten (pinOf x n)
    let deliveredTo := fun n => if changed n && !isOut n then readBefore n else read
    ∃ t, exec (.wrGppu x data) s = .next t ∧
    t.reg .gppu x = data ∧
    (∀ n, let p := pinOf x n
      let d := bitAt data n
      (changed n = false ∨ isOut n = true →
        t.pin p = (if read then (delivered s p).pin else s.pin p) ∧
        t.regBit .gpinten p = (if read then (delivered s p).armed else s.regBit .gpinten p)) ∧
      (changed n = true → isOut n = false → armedAt n = true → t.regBit .gpinten p = true ∧ t.pin p =
        { s.pin p with dir := .input, pull := d, req := some (.watch d), st := .processing, ews := ⟨false, 0⟩,
                       ref := s.extLevel p }) ∧
      (changed n = true → isOut n = false → armedAt n = false → t.regBit .gpinten p = false ∧ t.pin p =
        { s.pin p with dir := .input, pull := d, req := some (.inNone d), st := .done none, ews := ⟨false, 0⟩ }) ∧
      t.regBit .intf p = (if read || (changed n && !isOut n) then false else s.regBit .intf p)) ∧
    keepsPinsBut (fun q => portOf q = x) s t ∧
    keepsBitsBut (fun ty q => portOf q = x ∧ (ty = .gppu ∨ ty = .gpinten ∨ ty = .intf ∨ (ty = .gpio ∧ read = true))) s t ∧
    appendsSome s t (bitOrder.flatMap fun n =>
      (if deliveredTo n then (delivered s (pinOf x n)).results else []) ++
      (if changed n && !isOut n then
        [if armedAt n then .emit (pinOf x n) (s.extLevel (pinOf x n)) else .done (pinOf x n) none] else [])) [] ∧
    keepsOutside s t ∧ t.ret = s.ret ∧ (outputsFollow s → outputsFollow t)

/-- WR.GPINTEN (the spec's own decision D6; R129 for what happens inside the loop). A bit of an output
pin counts as 0. A bit that goes to 1 assigns `Watch`, a bit that goes to 0 assigns `InNone`, with the
stored pull. The first `Watch` of the loop reads `GPIO`, so every pin that still holds its old request
then is delivered to; a bit that the write leaves may so be cleared by a completion. (Only in states no
run reaches is an output pin armed: it becomes an input.) -/
def Obligations.WrGpintenResult : Prop :=
  ∀ (x : Port) (data : Byte) (s : State),
    let old := fun n => s.regBit .gpinten (pinOf x n)
    let e := fun n => if s.regBit .iodir (pinOf x n) = s.cfg.iodirOut then false else bitAt data n
    let arms := fun n => e n && !old n
    let readBefore := fun n => bitOrder.any fun m => decide (m < n) && arms m
    let read := bitOrder.any arms
    let deliveredTo := fun n => if e n = old n then read else readBefore n
    ∃ t, exec (.wrGpinten x data) s = .next t ∧
    (∀ n, let p := pinOf x n
      let u := s.regBit .gppu p
      (e n = old n →
        t.pin p = (if read then (delivered s p).pin else s.pin p) ∧
        t.regBit .gpinten p = (if read then (delivered s p).armed else old n)) ∧
      (e n = true → old n = false → t.regBit .gpinten p = true ∧ t.pin p =
        { s.pin p with dir := .input, pull := u, req := some (.watch u), st := .processing, ews := ⟨false, 0⟩,
                       ref := s.extLevel p }) ∧
      (e n = false → old n = true → t.regBit .gpinten p = false ∧ t.regBit .iodir p = s.cfg.iodirIn ∧ t.pin p =
        { s.pin p with dir := .input, pull := u, req := some (.inNone u), st := .done none, ews := ⟨false, 0⟩ }) ∧
      t.regBit .intf p = (if read || e n != old n then false else s.regBit .intf p)) ∧
    keepsPinsBut (fun q => portOf q = x) s t ∧
    keepsBitsBut (fun ty q => portOf q = x ∧ (ty = .gpinten ∨ ty = .intf ∨ (ty = .gpio ∧ read = true) ∨
      (ty = .iodir ∧ s.regBit .iodir q = s.cfg.iodirOut ∧ s.regBit .gpinten q = true))) s t ∧
    appendsSome s t (bitOrder.flatMap fun n =>
      (if deliveredTo n then (delivered s (pinOf x n)).results else []) ++
      (if e n = old n then [] else
        [if e n then .emit (pinOf x n) (s.extLevel (pinOf x n)) else .done (pinOf x n) none])) [] ∧
    keepsOutside s t ∧ t.ret = s.ret ∧ (outputsFollow s → outputsFollow t)

/-- A translator write of the byte a register holds changes no state; for WR.GPINTEN, of a byte whose
effective bits are the stored ones (a derived rule of 40_register_port.md, section 3). -/
def Obligations.EqualWriteChangesNothing : Prop :=
  ∀ (x : Port) (s : State),
    exec (.wrIodir x (s.reg .iodir x)) s = .next s ∧
    exec (.wrOlat x (s.reg .olat x)) s = .next s ∧
    exec (.wrGppu x (s.reg .gppu x)) s = .next s ∧
    (∀ data : Byte,
      (∀ n, s.regBit .gpinten (pinOf x n) =
        if s.regBit .iodir (pinOf x n) = s.cfg.iodirOut then false else bitAt data n) →
      exec (.wrGpinten x data) s = .next s)

/-- The request the translator leaves on a pin it assigned is the one that the pin's registers express
(the spec's own decision D6): after the write, a pin whose changed bit originated a request holds the
request `Derive` reads off the registers. -/
def Obligations.TranslatorAssignsDerivedRequest : Prop :=
  ∀ (x : Port) (data : Byte) (s t : State) (n : BitIdx),
    let p := pinOf x n
    (exec (.wrIodir x data) s = .next t → bitAt data n ≠ s.regBit .iodir p →
      (t.pin p).req = some (derive p t)) ∧
    (exec (.wrOlat x data) s = .next t → bitAt data n ≠ s.regBit .olat p → s.iodirIsOut p = true →
      (t.pin p).req = some (derive p t)) ∧
    (exec (.wrGppu x data) s = .next t → bitAt data n ≠ s.regBit .gppu p → s.iodirIsOut p = false →
      (t.pin p).req = some (derive p t)) ∧
    (exec (.wrGpinten x data) s = .next t → bitAt data n ≠ s.regBit .gpinten p → s.iodirIsOut p = false →
      (t.pin p).req = some (derive p t))

/-! ## The request port -/

/-- REQ.OUT (that pull and `GPPU` are left is the spec's own decision D26; the cleared flag decision
D10): the pin is an output at level `l`, its registers agree, it is disarmed and unflagged, `Done(none)`;
one `DONE`; the frame. -/
def Obligations.ReqOutResult : Prop :=
  ∀ (p : Pin) (l : Level) (s : State), ∃ t, exec (.reqOut p l) s = .next t ∧
    t.pin p = { s.pin p with dir := .output, drv := l, req := some (.output l), st := .done none, ews := ⟨false, 0⟩ } ∧
    t.regBit .iodir p = s.cfg.iodirOut ∧ t.regBit .olat p = l ∧
    t.regBit .gpinten p = false ∧ t.regBit .intf p = false ∧
    t.out = s.out ++ [.done p none] ∧
    keepsPinsBut (fun q => q = p) s t ∧
    keepsBitsBut (fun ty q => q = p ∧ (ty = .iodir ∨ ty = .olat ∨ ty = .gpinten ∨ ty = .intf)) s t ∧
    keepsOutside s t ∧ t.ret = s.ret ∧ outputsFollow t

/-- REQ.NONE: the pin is an input with pull `u`, disarmed and unflagged, `Done(none)`; one `DONE`; no
`GPIO` read happens; the frame. -/
def Obligations.ReqNoneResult : Prop :=
  (∀ w : EventWord, classField w = 0x2 → kindField w = 1 → decode w = .reqNone (pinField w) (w.getLsbD 7)) ∧
  (∀ (p : Pin) (u : Pull) (s : State), ∃ t, exec (.reqNone p u) s = .next t ∧
    t.pin p = { s.pin p with dir := .input, pull := u, req := some (.inNone u), st := .done none, ews := ⟨false, 0⟩ } ∧
    t.regBit .iodir p = s.cfg.iodirIn ∧ t.regBit .gppu p = u ∧
    t.regBit .gpinten p = false ∧ t.regBit .intf p = false ∧
    t.out = s.out ++ [.done p none] ∧
    keepsPinsBut (fun q => q = p) s t ∧
    keepsBitsBut (fun ty q => q = p ∧ (ty = .iodir ∨ ty = .gppu ∨ ty = .gpinten ∨ ty = .intf)) s t ∧
    keepsOutside s t ∧ t.ret = s.ret ∧ outputsFollow t)

/-- REQ.READ: the pin is an input with pull `u`; one compound read of its port; `Done` with the outside
level of the pin; the pin is not armed; the results of other pins come before its `DONE`. -/
def Obligations.ReqReadResult : Prop :=
  (∀ w : EventWord, classField w = 0x2 → kindField w = 2 → decode w = .reqRead (pinField w) (w.getLsbD 7)) ∧
  (∀ (p : Pin) (u : Pull) (s : State), ∃ t, exec (.reqRead p u) s = .next t ∧
    t.pin p = { s.pin p with dir := .input, pull := u, req := some (.inRead u),
                             st := .done (some (s.extLevel p)), ews := ⟨false, 0⟩ } ∧
    t.regBit .gpinten p = false ∧
    appendsSome s t (deliveredResults s (portOf p) (some p)) [.done p (some (s.extLevel p))] ∧
    readsAtEntry p u s t)

/-- REQ.WSTATE (that any read completes it is the spec's own decision D22): the pin at its target is done
at once and never armed; else it is armed with the level as reference and stays in Processing. -/
def Obligations.ReqWstateResult : Prop :=
  ∀ (p : Pin) (tl : Level) (u : Pull) (s : State), ∃ t, exec (.reqWstate p tl u) s = .next t ∧
    (s.extLevel p = tl →
      t.pin p = { s.pin p with dir := .input, pull := u, req := some (.waitState u tl),
                               st := .done (some tl), ews := ⟨false, 0⟩ } ∧
      t.regBit .gpinten p = false ∧
      appendsSome s t (deliveredResults s (portOf p) (some p)) [.done p (some tl)]) ∧
    (s.extLevel p ≠ tl →
      t.pin p = { s.pin p with dir := .input, pull := u, req := some (.waitState u tl),
                               st := .processing, ews := ⟨false, 0⟩, ref := s.extLevel p } ∧
      t.regBit .gpinten p = true ∧
      appendsSome s t (deliveredResults s (portOf p) (some p)) []) ∧
    readsAtEntry p u s t

/-- REQ.WANY: the pin is an input with pull `u`, armed with the pad's level as reference, in Processing;
no `GPIO` read, no result, and the flags of the other pins stay; and the wait ends in the compound read
that finds the pin flagged, with the level that read sampled, and in no other. -/
def Obligations.ReqWanyResult : Prop :=
  (∀ w : EventWord, classField w = 0x2 → kindField w = 4 → decode w = .reqWany (pinField w) (w.getLsbD 7)) ∧
  (∀ (p : Pin) (u : Pull) (s : State), ∃ t, exec (.reqWany p u) s = .next t ∧
    t.pin p = { s.pin p with dir := .input, pull := u, req := some (.waitAny u), st := .processing,
                             ews := ⟨false, 0⟩, ref := s.extLevel p } ∧
    t.regBit .iodir p = s.cfg.iodirIn ∧ t.regBit .gppu p = u ∧
    t.regBit .gpinten p = true ∧ t.regBit .intf p = false ∧
    t.out = s.out ∧
    keepsPinsBut (fun q => q = p) s t ∧
    keepsBitsBut (fun ty q => q = p ∧ (ty = .iodir ∨ ty = .gppu ∨ ty = .gpinten ∨ ty = .intf)) s t ∧
    keepsOutside s t ∧ t.ret = s.ret ∧ outputsFollow t) ∧
  (∀ (p : Pin) (u : Pull) (s : State), (s.pin p).req = some (.waitAny u) → (s.pin p).st = .processing →
    s.regBit .gpinten p = true →
    let t := (gpioRead (portOf p) s).2
    (s.regBit .intf p = true → t.pin p = { s.pin p with st := .done (some (s.pinLevel p)) } ∧
      t.regBit .gpinten p = false ∧ .done p (some (s.pinLevel p)) ∈ t.out.drop s.out.length) ∧
    (s.regBit .intf p = false → t.pin p = s.pin p ∧ t.regBit .gpinten p = true))

/-- REQ.WSPEC (what is counted and that the result is the target is the spec's own decision D23): always
armed; one edge is required if the level read at entry differs from the target, two if it equals it. -/
def Obligations.ReqWspecResult : Prop :=
  ∀ (p : Pin) (tl : Level) (u : Pull) (s : State), ∃ t, exec (.reqWspec p tl u) s = .next t ∧
    t.pin p = { s.pin p with dir := .input, pull := u, req := some (.waitSpec u tl), st := .processing,
                             ews := ⟨s.extLevel p, if s.extLevel p = tl then 2 else 1⟩, ref := s.extLevel p } ∧
    t.regBit .gpinten p = true ∧
    appendsSome s t (deliveredResults s (portOf p) (some p)) [] ∧
    readsAtEntry p u s t

/-- REQ.WATCH (when it emits is the spec's own decision D21): the level at entry is emitted, after the
results of the other pins, and the pin is armed and in Processing. -/
def Obligations.ReqWatchResult : Prop :=
  ∀ (p : Pin) (u : Pull) (s : State), ∃ t, exec (.reqWatch p u) s = .next t ∧
    t.pin p = { s.pin p with dir := .input, pull := u, req := some (.watch u), st := .processing,
                             ews := ⟨false, 0⟩, ref := s.extLevel p } ∧
    t.regBit .gpinten p = true ∧
    appendsSome s t (deliveredResults s (portOf p) (some p)) [.emit p (s.extLevel p)] ∧
    readsAtEntry p u s t

/-! ## The procedures -/

/-- `Complete(p, r)`: the pin is disarmed and unflagged, its request is `Done(r)`, one `DONE`; the frame. -/
def Obligations.CompleteEndsTheWait : Prop :=
  ∀ (p : Pin) (r : Level) (s : State), let t := complete p r s
    t.regBit .gpinten p = false ∧ t.regBit .intf p = false ∧
    t.pin p = { s.pin p with st := .done (some r) } ∧ t.out = s.out ++ [.done p (some r)] ∧
    keepsPinsBut (fun q => q = p) s t ∧
    keepsBitsBut (fun ty q => q = p ∧ (ty = .gpinten ∨ ty = .intf)) s t ∧
    keepsOutside s t ∧ t.ret = s.ret ∧ outputsFollow t

/-- `EntryInput(p, u)`: direction and pull, of the register bits and of the pad alike; `drv` and `OLAT`
are left as they were, and so is everything else; and it comes first in every input-like entry, so that
one done before changes nothing. -/
def Obligations.EntryInputSetsDirectionAndPull : Prop :=
  ∀ (p : Pin) (u : Pull) (s : State), let t := entryInput p u s
    t.regBit .iodir p = s.cfg.iodirIn ∧ t.regBit .gppu p = u ∧
    t.pin p = { s.pin p with dir := .input, pull := u } ∧ t.regBit .olat p = s.regBit .olat p ∧
    keepsPinsBut (fun q => q = p) s t ∧
    keepsBitsBut (fun ty q => q = p ∧ (ty = .iodir ∨ ty = .gppu)) s t ∧
    t.intA = s.intA ∧ t.intB = s.intB ∧ t.out = s.out ∧ keepsOutside s t ∧ t.ret = s.ret ∧
    (∀ r : Request, (r = .inNone u ∨ r = .inRead u ∨ (∃ tl, r = .waitState u tl) ∨ r = .waitAny u ∨
        (∃ tl, r = .waitSpec u tl) ∨ r = .watch u) →
      entry p r t = entry p r s)

/-- `Arm` and `Disarm` (the spec's own decisions D12 and D10). -/
def Obligations.ArmAndDisarmOnePin : Prop :=
  ∀ (p : Pin) (l : Level) (s : State),
    (let t := arm p l s;
      t.regBit .gpinten p = true ∧ t.pin p = { s.pin p with ref := l } ∧
      keepsPinsBut (fun q => q = p) s t ∧ keepsBitsBut (fun ty q => q = p ∧ ty = .gpinten) s t ∧
      t.intA = s.intA ∧ t.intB = s.intB ∧ t.out = s.out ∧ keepsOutside s t ∧ t.ret = s.ret) ∧
    (let t := disarm p s;
      t.regBit .gpinten p = false ∧ t.regBit .intf p = false ∧ t.pins = s.pins ∧
      keepsBitsBut (fun ty q => q = p ∧ (ty = .gpinten ∨ ty = .intf)) s t ∧
      outputsFollow t ∧ t.out = s.out ∧ keepsOutside s t ∧ t.ret = s.ret)

/-- The case table of `Advance(p, f, l)`: nothing for a pin that is not suspended and armed; `WaitState`
ends at its target level; `WaitAny` ends when flagged, with the sampled level; a flagged `WaitSpec` counts
one edge and ends at none left; a flagged `Watch` emits. -/
def Obligations.AdvanceFollowsTheCaseTable : Prop :=
  ∀ (p : Pin) (f l t : Level) (u : Pull) (s : State),
    ((s.pin p).st ≠ .processing ∨ s.regBit .gpinten p = false → advance p f l s = s) ∧
    ((s.pin p).st = .processing → s.regBit .gpinten p = true →
      ((s.pin p).req = some (.waitState u t) → advance p f l s = if l = t then complete p t s else s) ∧
      ((s.pin p).req = some (.waitAny u) → advance p f l s = if f = true then complete p l s else s) ∧
      ((s.pin p).req = some (.waitSpec u t) → f = false → advance p f l s = s) ∧
      ((s.pin p).req = some (.waitSpec u t) → f = true → (s.pin p).ews.rem = 2 →
        advance p f l s = s.setPin p { s.pin p with ews := ⟨(s.pin p).ews.start, 1⟩ }) ∧
      ((s.pin p).req = some (.waitSpec u t) → f = true → (s.pin p).ews.rem = 1 →
        advance p f l s = complete p t (s.setPin p { s.pin p with ews := ⟨(s.pin p).ews.start, 0⟩ })) ∧
      ((s.pin p).req = some (.watch u) → advance p f l s =
        if f = true then { s with out := s.out ++ [.emit p l] } else s) ∧
      ((s.pin p).req = none ∨ isOutput (s.pin p).req = true ∨ (s.pin p).req = some (.inNone u) ∨
        (s.pin p).req = some (.inRead u) → advance p f l s = s))

/-- The compound read resolves all flags of one snapshot as logically simultaneous (the spec's own
decisions D8 and D19): the loop of `Advance`s, each of which may disarm, clear a flag and recompute the
interrupt outputs, amounts to one delivery to every pin of the port from the state before the read. (That
an output pin samples its driven level is the spec's own decision D13.) -/
def Obligations.CompoundReadDeliversSimultaneously : Prop :=
  ∀ (x : Port) (s : State), let t := (gpioRead x s).2
    (gpioRead x s).1 = t.reg .gpio x ∧
    (∀ n, bitAt (gpioRead x s).1 n = s.pinLevel (pinOf x n)) ∧
    (∀ q, t.pin q = if portOf q = x then (delivered s q).pin else s.pin q) ∧
    (∀ q, t.regBit .gpinten q = if portOf q = x then (delivered s q).armed else s.regBit .gpinten q) ∧
    (∀ q, t.regBit .intf q = if portOf q = x then false else s.regBit .intf q) ∧
    keepsBitsBut (fun ty q => portOf q = x ∧ (ty = .gpio ∨ ty = .intf ∨ ty = .gpinten)) s t ∧
    appendsSome s t (deliveredResults s x none) [] ∧
    keepsOutside s t ∧ t.ret = s.ret ∧ outputsFollow t

/-! ## Pin events and the Coordinator -/

/-- PIN (the spec's own decisions D11 and D30): the outside level changes; a change on a natively
interrupting, armed input pin sets its flag and the outputs follow; in every other case nothing else
happens. No request advances and nothing is appended. -/
def Obligations.PinEventResult : Prop :=
  ∀ (p : Pin) (b : Level) (s : State), ∃ t, exec (.pin p b) s = .next t ∧
    (let fires := b ≠ s.extLevel p ∧ s.cfg.src[p] = .nativeInterrupt ∧ (s.pin p).dir = .input ∧
        s.regBit .gpinten p = true;
      (fires → t.regBit .intf p = true ∧ t.ext = s.ext.set p b ∧ t.pins = s.pins ∧
        keepsBitsBut (fun ty q => q = p ∧ ty = .intf) s t ∧ outputsFollow t ∧
        t.out = s.out ∧ t.cfg = s.cfg ∧ t.inbox = s.inbox ∧ t.ret = s.ret) ∧
      (¬fires → t = { s with ext := s.ext.set p b }))

/-- POLL (the spec's own decisions D11 and D12): for a polled, armed input pin the reference becomes the
outside level, and a level different from the old reference sets the flag; for any other pin the event
does nothing. -/
def Obligations.PollEventResult : Prop :=
  ∀ (p : Pin) (s : State), ∃ t, exec (.poll p) s = .next t ∧
    (let polled := s.cfg.src[p] = .pollEvery ∧ (s.pin p).dir = .input ∧ s.regBit .gpinten p = true;
      (¬polled → t = s) ∧
      (polled →
        t.pin p = { s.pin p with ref := s.extLevel p } ∧ keepsPinsBut (fun q => q = p) s t ∧
        t.regBit .intf p = (s.regBit .intf p || s.extLevel p != (s.pin p).ref) ∧
        keepsBitsBut (fun ty q => q = p ∧ ty = .intf) s t ∧
        (s.extLevel p ≠ (s.pin p).ref → outputsFollow t) ∧
        (s.extLevel p = (s.pin p).ref → t.intA = s.intA ∧ t.intB = s.intB) ∧
        t.out = s.out ∧ keepsOutside s t ∧ t.ret = s.ret))

/-- SVC (the spec's own decision D9): with no flag on the port it does nothing; else it is the compound
read, whose byte is dropped: flags cleared, every pin of the port delivered to, the frame. (That an output
pin samples its driven level is the spec's own decision D13.) -/
def Obligations.ServiceEventResult : Prop :=
  ∀ (x : Port) (s : State), ∃ t, exec (.svc x) s = .next t ∧
    (s.reg .intf x = 0x00 → t = s) ∧
    (s.reg .intf x ≠ 0x00 →
      t.reg .intf x = 0x00 ∧ (∀ n, t.regBit .gpio (pinOf x n) = s.pinLevel (pinOf x n)) ∧
      (∀ q, portOf q = x → t.pin q = (delivered s q).pin ∧ t.regBit .gpinten q = (delivered s q).armed) ∧
      keepsPinsBut (fun q => portOf q = x) s t ∧
      keepsBitsBut (fun ty q => portOf q = x ∧ (ty = .gpio ∨ ty = .intf ∨ ty = .gpinten)) s t ∧
      appendsSome s t (deliveredResults s x none) [] ∧ keepsOutside s t ∧ t.ret = s.ret ∧ outputsFollow t)

/-- `Advance(p, f, l)` leaves of pin `p` the record, the `GPINTEN` bit and the results that `deliver` reads
off the record and the bit before it; the flag of the pin is cleared exactly if its wait ends; the frame.
(For an armed `WaitSpec` with no edge left, which no run reaches, it rests on the model's choice of log
entry 12.) -/
def Obligations.DeliveryToOnePin : Prop :=
  ∀ (p : Pin) (f l : Level) (s : State),
    let d := deliver p (s.pin p) (s.regBit .gpinten p) f l
    let t := advance p f l s
    t.pin p = d.pin ∧ t.regBit .gpinten p = d.armed ∧ t.out = s.out ++ d.results ∧
    t.regBit .intf p = (if d.armed = s.regBit .gpinten p then s.regBit .intf p else false) ∧
    keepsPinsBut (fun q => q = p) s t ∧
    keepsBitsBut (fun ty q => q = p ∧ (ty = .gpinten ∨ ty = .intf)) s t ∧
    (d.armed = s.regBit .gpinten p → t.intA = s.intA ∧ t.intB = s.intB) ∧
    (d.armed ≠ s.regBit .gpinten p → outputsFollow t) ∧
    keepsOutside s t ∧ t.ret = s.ret

/-! ## Reset -/

/-- RESET: from every state, the register file is at its defaults and every pin record is Input, no pull,
no request; `OUT` has nothing added, the outside levels stay; the state is the power-on state of the same
parameters and levels in every other element (the values the spec decides: D16; that power-on is a RESET:
D17; `inbox` and `ret` are the model's). -/
def Obligations.ResetResult : Prop :=
  ∀ s : State, exec .reset s =
    .next { State.powerOn s.cfg s.ext with out := s.out, inbox := s.inbox, ret := s.ret }

/-- Reset round-trip: whatever the prior state, RESET abandons every request without a `DONE`: no pin is
armed or flagged, every record is Input, no pull, no request, `Idle`, and nothing is appended. -/
def Obligations.ResetAbandonsEveryRequest : Prop :=
  ∀ s : State, ∃ t, exec .reset s = .next t ∧ t.out = s.out ∧
    (∀ p, (t.pin p).dir = .input ∧ (t.pin p).pull = false ∧ (t.pin p).req = none ∧ (t.pin p).st = .idle ∧
      t.regBit .gpinten p = false ∧ t.regBit .intf p = false) ∧
    (∀ (p : Pin) (b : Level), ∃ t', exec (.pin p b) t = .next t' ∧ t'.regBit .intf p = false ∧
      t'.pins = t.pins ∧ t'.out = t.out)

/-- Power-on satisfies every invariant, with every value of the parameters and every outside level. -/
def Obligations.PowerOnSatisfiesInvariants : Prop :=
  (∀ (c : Config) (ext : Vector Level 16), Inv (State.powerOn c ext)) ∧ Inv State.reset

/-! ## Interrupt outputs -/

/-- The levels on the pads for the three configurations: push-pull active-low idles at 1 and asserts at
0, push-pull active-high idles at 0 and asserts at 1, open drain idles released (1) and asserts low (0);
the mode is applied to both pins alike. Bits 2 and 1 are ODR and INTPOL, bit 6 MIRROR (the places of the
bits are the spec's from general knowledge, decision D4; log entry 9). -/
def Obligations.InterruptOutputLevels : Prop :=
  ∀ iocon fa fb : Byte,
    let o := intOut iocon fa fb
    let assertedA := if iocon.getLsbD 6 then fa ≠ 0x00 ∨ fb ≠ 0x00 else fa ≠ 0x00
    let assertedB := if iocon.getLsbD 6 then fa ≠ 0x00 ∨ fb ≠ 0x00 else fb ≠ 0x00
    (iocon.getLsbD 2 = false → iocon.getLsbD 1 = false →
      (o.1 = ⟨.pushPull, false⟩ ↔ assertedA) ∧ (o.1 = ⟨.pushPull, true⟩ ↔ ¬assertedA) ∧
      (o.2 = ⟨.pushPull, false⟩ ↔ assertedB) ∧ (o.2 = ⟨.pushPull, true⟩ ↔ ¬assertedB)) ∧
    (iocon.getLsbD 2 = false → iocon.getLsbD 1 = true →
      (o.1 = ⟨.pushPull, true⟩ ↔ assertedA) ∧ (o.1 = ⟨.pushPull, false⟩ ↔ ¬assertedA) ∧
      (o.2 = ⟨.pushPull, true⟩ ↔ assertedB) ∧ (o.2 = ⟨.pushPull, false⟩ ↔ ¬assertedB)) ∧
    (iocon.getLsbD 2 = true →
      (o.1 = ⟨.openDrain, false⟩ ↔ assertedA) ∧ (o.1 = ⟨.openDrain, true⟩ ↔ ¬assertedA) ∧
      (o.2 = ⟨.openDrain, false⟩ ↔ assertedB) ∧ (o.2 = ⟨.openDrain, true⟩ ↔ ¬assertedB))

/-- What corresponds to taking an interrupt: the flag of the pin is set and the output of its port is no
longer at its idle level; nothing else changes. -/
def Obligations.FlagRaisedAssertsOutput : Prop :=
  ∀ (p : Pin) (s : State), let t := raiseFlag p s
    t.regBit .intf p = true ∧ t.intPin (portOf p) ≠ IntPin.idle s.iocon ∧
    (t.intPin (portOf p)).mode = (IntPin.idle s.iocon).mode ∧
    t.pins = s.pins ∧ keepsBitsBut (fun ty q => q = p ∧ ty = .intf) s t ∧
    t.out = s.out ∧ keepsOutside s t ∧ t.ret = s.ret ∧ outputsFollow t

/-- What corresponds to returning: a `GPIO` read of the port clears its flags and its output idles,
unless the outputs are mirrored and the other port is flagged: then both stay asserted until both ports
are read (a derived rule; the MIRROR bit is decision D4). -/
def Obligations.GpioReadReleasesOutput : Prop :=
  ∀ (x y : Port) (s : State), y ≠ x → let t := (gpioRead x s).2
    t.reg .intf x = 0x00 ∧
    (s.iocon.getLsbD 6 = false ∨ s.reg .intf y = 0x00 → t.intPin x = IntPin.idle s.iocon) ∧
    (s.iocon.getLsbD 6 = true → s.reg .intf y ≠ 0x00 →
      t.intPin x ≠ IntPin.idle s.iocon ∧ t.intPin y ≠ IntPin.idle s.iocon)

/-! ## Whole-machine rules -/

/-- The invariants hold after every event: the fixed registers are zero; a pin is armed exactly while its
wait or watch runs; a flag is only on an armed pin; direction, pull and latch registers agree with the
pads; nothing is left Pending; the interrupt outputs follow the flags; `IOCON` is as reset left it
(the invariants (c) to (h) are derived by the spec; the last three of `PinInv` by the model from the
status and edge-wait rules of 10_state.md). -/
def Obligations.EveryStepKeepsInvariants : Prop :=
  ∀ s t : State, Inv s → step s = .next t → Inv t

/-- `OUT` is append-only: no event drops or changes a result (the result trace is the spec's own decision
D5). -/
def Obligations.ResultTraceIsAppendOnly : Prop :=
  ∀ s t : State, step s = .next t → ∃ rs, t.out = s.out ++ rs

/-- Who writes what: only PIN changes an outside level; only RESET writes `IOCON`, `IPOL`, `INTCON` and
`INTCAP`; only WR.DEFVAL and RESET write `DEFVAL`; no event changes the parameters or the words to come. -/
def Obligations.OnlyNamedEventsWrite : Prop :=
  ∀ (i : Instr) (s t : State), exec i s = .next t →
    t.cfg = s.cfg ∧ t.inbox = s.inbox ∧
    ((∀ p b, i ≠ .pin p b) → t.ext = s.ext) ∧
    (i ≠ .reset → t.iocon = s.iocon ∧
      (∀ x, t.reg .ipol x = s.reg .ipol x ∧ t.reg .intcon x = s.reg .intcon x ∧ t.reg .intcap x = s.reg .intcap x) ∧
      ((∀ x v, i ≠ .wrDefval x v) → ∀ x, t.reg .defval x = s.reg .defval x))

/-- The chip never enables the interrupt of a pin not actively waited on: an event that turns a pin's
`GPINTEN` bit on is one of the four waiting requests for that pin or a write of `GPINTEN` for its port,
and it leaves the pin an input in Processing of a waiting request. -/
def Obligations.OnlyWaitingRequestsArm : Prop :=
  ∀ (i : Instr) (s t : State) (q : Pin), exec i s = .next t →
    s.regBit .gpinten q = false → t.regBit .gpinten q = true →
    ((∃ tl u, i = .reqWstate q tl u) ∨ (∃ u, i = .reqWany q u) ∨ (∃ tl u, i = .reqWspec q tl u) ∨
      (∃ u, i = .reqWatch q u) ∨ (∃ v, i = .wrGpinten (portOf q) v)) ∧
    (t.pin q).dir = .input ∧ (t.pin q).st = .processing ∧ isWaiting (t.pin q).req = true

/-- A flag is set only by a PIN or POLL event of its own pin, while the pin is an armed input. -/
def Obligations.OnlyLevelChangesRaiseFlags : Prop :=
  ∀ (i : Instr) (s t : State) (q : Pin), exec i s = .next t →
    s.regBit .intf q = false → t.regBit .intf q = true →
    ((∃ b, i = .pin q b) ∨ i = .poll q) ∧ (s.pin q).dir = .input ∧ s.regBit .gpinten q = true

/-- The two ports are independent under a read: it clears, samples and advances only its own port, and
the byte and the deliveries depend on nothing of the other port. -/
def Obligations.GpioReadIsPortLocal : Prop :=
  (∀ (x : Port) (s : State) (q : Pin), portOf q ≠ x →
    (gpioRead x s).2.pin q = s.pin q ∧ ∀ ty, (gpioRead x s).2.regBit ty q = s.regBit ty q) ∧
  (∀ (x : Port) (s s' : State),
    (∀ n, s.pin (pinOf x n) = s'.pin (pinOf x n) ∧ s.extLevel (pinOf x n) = s'.extLevel (pinOf x n)) →
    s.port x = s'.port x →
    (gpioRead x s).1 = (gpioRead x s').1 ∧ (gpioRead x s).2.port x = (gpioRead x s').2.port x ∧
    ∀ n, (gpioRead x s).2.pin (pinOf x n) = (gpioRead x s').2.pin (pinOf x n))

/-- An event that acts on one port leaves every register bit and every pin record of the other port. -/
def Obligations.EventsStayOnTheirPort : Prop :=
  ∀ (i : Instr) (s t : State) (x : Port), targetPort i = some x → exec i s = .next t →
    ∀ q, portOf q ≠ x → t.pin q = s.pin q ∧ ∀ ty, t.regBit ty q = s.regBit ty q

/-- Re-reading `GPIO` with no event between returns the same byte and changes nothing (a derived rule). -/
def Obligations.GpioRereadIsIdempotent : Prop :=
  ∀ (x : Port) (s : State), gpioRead x (gpioRead x s).2 = ((gpioRead x s).1, (gpioRead x s).2)

/-- The order of level changes on two pins does not matter while no read comes between (the spec's own
decision D19). -/
def Obligations.PinEventsCommute : Prop :=
  ∀ (p q : Pin) (a b : Level) (s s1 s2 t1 t2 : State), p ≠ q →
    exec (.pin p a) s = .next s1 → exec (.pin q b) s1 = .next t1 →
    exec (.pin q b) s = .next s2 → exec (.pin p a) s2 = .next t2 → t1 = t2

/-- The inert registers influence nothing: two states that differ only in `IPOL`, `DEFVAL`, `INTCON`,
`INTCAP` and the stored byte of `GPIO` give, under every event but the host read of `DEFVAL`, states that
differ only there; in particular the same byte is returned and the same results appended. -/
def Obligations.InertRegistersInfluenceNothing : Prop :=
  ∀ (i : Instr) (s s' t t' : State), (∀ x, i ≠ .rdDefval x) → eraseInert s = eraseInert s' →
    exec i s = .next t → exec i s' = .next t' → eraseInert t = eraseInert t'

/-- No flag is lost: a pending flag that an event clears either was captured by a compound read of the
pin's port, which delivered it to the pin as it stood (its results are among those appended), or the
pin's own request was replaced by the event: by a REQ for the pin, or by a translator write whose bit of the
pin is one that assigns a request there; or RESET dropped it (a derived rule of 42_pin_events.md, section 4;
the compound read is the spec's own decision D8, the flag cleared by `Disarm` decision D10, which writes
assign a request decision D6). -/
def Obligations.NoPendingFlagIsLost : Prop :=
  ∀ (i : Instr) (s t : State) (q : Pin), exec i s = .next t →
    s.regBit .intf q = true → t.regBit .intf q = false →
    (t.pin q = (delivered s q).pin ∧ t.regBit .gpinten q = (delivered s q).armed ∧
      ∀ e ∈ (delivered s q).results, e ∈ t.out.drop s.out.length) ∨
    i = .reset ∨ (∃ l, i = .reqOut q l) ∨ (∃ u, i = .reqNone q u) ∨ (∃ u, i = .reqRead q u) ∨
    (∃ tl u, i = .reqWstate q tl u) ∨ (∃ u, i = .reqWany q u) ∨ (∃ tl u, i = .reqWspec q tl u) ∨
    (∃ u, i = .reqWatch q u) ∨
    (∃ v, (i = .wrIodir (portOf q) v ∧ bitAt v (bitOf q) ≠ s.regBit .iodir q) ∨
      (i = .wrOlat (portOf q) v ∧ bitAt v (bitOf q) ≠ s.regBit .olat q ∧ s.iodirIsOut q = true) ∨
      (i = .wrGppu (portOf q) v ∧ bitAt v (bitOf q) ≠ s.regBit .gppu q ∧ s.iodirIsOut q = false) ∨
      (i = .wrGpinten (portOf q) v ∧
        (if s.iodirIsOut q then false else bitAt v (bitOf q)) ≠ s.regBit .gpinten q))

/-- A wait on a natively interrupting pin ends within two events of the change it waits for: the PIN
event flags the pin, and the service of its port ends a `WaitAny` with the new level and a `WaitState`
whose target is the new level, disarms the pin and reports the result. -/
def Obligations.ChangeThenServiceEndsTheWait : Prop :=
  ∀ (p : Pin) (b : Level) (u : Pull) (s : State),
    (s.pin p).req = some (.waitAny u) ∨ (s.pin p).req = some (.waitState u b) →
    (s.pin p).st = .processing → s.regBit .gpinten p = true → (s.pin p).dir = .input →
    s.cfg.src[p] = .nativeInterrupt → s.extLevel p ≠ b →
    ∃ s1 t, exec (.pin p b) s = .next s1 ∧ exec (.svc (portOf p)) s1 = .next t ∧
      (s1.pin p).st = .processing ∧ s1.regBit .intf p = true ∧
      (t.pin p).st = .done (some b) ∧ t.regBit .gpinten p = false ∧ t.regBit .intf p = false ∧
      .done p (some b) ∈ t.out.drop s.out.length

/-! ## Views -/

/-- Bit n of a per-port register of port X is pin 8X+n, and writing the bit of one pin writes that bit
alone; `IOCON` has no bits of pins. -/
def Obligations.RegisterBitsArePins : Prop :=
  (∀ (x : Port) (n : BitIdx), (pinOf x n).val = 8 * x.toBit.toNat + n.val) ∧
  (∀ (ty : RegType) (s : State), ty ≠ .iocon →
    (∀ (x : Port) (n : BitIdx), s.regBit ty (pinOf x n) = (s.reg ty x).getLsbD n.val) ∧
    (∀ (p q : Pin) (v : Level), (s.setRegBit ty p v).regBit ty q = if q = p then v else s.regBit ty q))

/-- The 16-bit view of a register type has port B in the high byte and the bit of pin p at position p
(the view is the spec's own decision D25). -/
def Obligations.View16BitsArePins : Prop :=
  ∀ (ty : RegType) (s : State) (p : Pin), (s.view16 ty).getLsbD p.val = s.regBit ty p
end

