-- ==== Sys2Proof/Laws/Bits.lean ====
section
/-! SUPPORT. Lemmas about the bits of a byte, the pins of a port and the loop over bits. -/

namespace Sys2Proof.Machine

@[simp] theorem bitAt_setBitAt (b : Byte) (n m : BitIdx) (v : Level) :
    bitAt (setBitAt b n v) m = if m = n then v else bitAt b m := by
  have key : (1#8 <<< n.val).getLsbD m.val = decide (m = n) := by
    revert n m; decide
  unfold bitAt setBitAt
  cases v
  · simp only [Bool.false_eq_true, if_false, BitVec.getLsbD_and, BitVec.getLsbD_not, key]
    by_cases h : m = n <;> simp [h, m.isLt]
  · simp only [if_true, BitVec.getLsbD_or, key]
    by_cases h : m = n <;> simp [h]

/-- Two bytes with the same eight bits are equal. -/
theorem byte_eq_of_bitAt {a b : Byte} (h : ∀ n, bitAt a n = bitAt b n) : a = b := by
  apply BitVec.eq_of_getLsbD_eq
  intro i hi
  exact h ⟨i, hi⟩

theorem bitAt_zero (n : BitIdx) : bitAt 0x00 n = false := by
  revert n; decide

@[simp] theorem bitAt_lit_zero (n : BitIdx) : bitAt 0#8 n = false := bitAt_zero n

@[simp] theorem setBitAt_self (b : Byte) (n : BitIdx) : setBitAt b n (bitAt b n) = b :=
  byte_eq_of_bitAt fun m => by rw [bitAt_setBitAt]; split <;> simp_all

theorem setBitAt_of_eq {b : Byte} {n : BitIdx} {v : Level} (h : bitAt b n = v) : setBitAt b n v = b := by
  rw [← h, setBitAt_self]

@[simp] theorem setBitAt_zero (n : BitIdx) : setBitAt 0#8 n false = 0#8 :=
  setBitAt_of_eq (bitAt_lit_zero n)

theorem mem_bitOrder (n : BitIdx) : n ∈ bitOrder := by revert n; decide

theorem nodup_bitOrder : bitOrder.Nodup := by decide

/-- Setting the bits listed in `l` to `f`, one after the other. -/
theorem bitAt_foldl_setBitAt (f : BitIdx → Level) (l : List BitIdx) (b : Byte) (m : BitIdx) :
    bitAt (l.foldl (fun b n => setBitAt b n (f n)) b) m = if m ∈ l then f m else bitAt b m := by
  induction l generalizing b with
  | nil => simp
  | cons n l ih =>
    rw [List.foldl_cons, ih, bitAt_setBitAt]
    by_cases h : m ∈ l
    · simp [h]
    · by_cases h' : m = n <;> simp [h, h']

@[simp] theorem bitAt_byteOf (f : BitIdx → Level) (n : BitIdx) : bitAt (byteOf f) n = f n := by
  rw [byteOf, bitAt_foldl_setBitAt, if_pos (mem_bitOrder n)]

@[simp] theorem portOf_pinOf (x : Port) (n : BitIdx) : portOf (pinOf x n) = x := by
  cases x <;> revert n <;> decide

@[simp] theorem bitOf_pinOf (x : Port) (n : BitIdx) : bitOf (pinOf x n) = n := by
  cases x <;> revert n <;> decide

@[simp] theorem pinOf_portOf_bitOf (p : Pin) : pinOf (portOf p) (bitOf p) = p := by
  revert p; decide

theorem pinOf_inj {x y : Port} {n m : BitIdx} : pinOf x n = pinOf y m ↔ x = y ∧ n = m := by
  constructor
  · intro h
    exact ⟨by simpa using congrArg portOf h, by simpa using congrArg bitOf h⟩
  · rintro ⟨rfl, rfl⟩; rfl

theorem pin_eq_iff {p q : Pin} : p = q ↔ portOf p = portOf q ∧ bitOf p = bitOf q := by
  constructor
  · rintro rfl; exact ⟨rfl, rfl⟩
  · rintro ⟨h1, h2⟩; rw [← pinOf_portOf_bitOf p, ← pinOf_portOf_bitOf q, h1, h2]

theorem eq_pinOf_iff {p : Pin} {x : Port} {n : BitIdx} : p = pinOf x n ↔ portOf p = x ∧ bitOf p = n := by
  rw [pin_eq_iff]; simp

/-- A property of the state that every pass of the loop keeps holds after the loop. -/
theorem forBits_induct {P : State → Prop} {f : BitIdx → State → State} (hf : ∀ n s, P s → P (f n s))
    {s : State} (h : P s) : P (forBits f s) := by
  unfold forBits
  generalize bitOrder = l
  induction l generalizing s with
  | nil => exact h
  | cons n l ih => exact ih (hf n s h)

/-- A projection that every pass keeps is kept by the loop. -/
theorem forBits_keeps {α : Type} (g : State → α) {f : BitIdx → State → State}
    (hf : ∀ n s, g (f n s) = g s) (s : State) : g (forBits f s) = g s :=
  forBits_induct (P := fun t => g t = g s) (fun n t h => (hf n t).trans h) rfl

/-- What only the pass of its own bit changes: a projection `g m` that passes other than `m` keep,
and that pass `m` computes from its value and from what every pass keeps. -/
theorem forBits_at {α : Type} (g : State → α) {f : BitIdx → State → State} (m : BitIdx) (k : α → α)
    (P : State → Prop) (hP : ∀ n s, P s → P (f n s))
    (hk : ∀ s, P s → g (f m s) = k (g s)) (ho : ∀ n s, n ≠ m → P s → g (f n s) = g s)
    {s : State} (h : P s) : g (forBits f s) = k (g s) := by
  have gen : ∀ (l : List BitIdx) (s : State), l.Nodup → P s →
      g (l.foldl (fun s n => f n s) s) = if m ∈ l then k (g s) else g s := by
    intro l
    induction l with
    | nil => intro s _ _; simp
    | cons n l ih =>
      intro s hn hs
      obtain ⟨hnl, hl⟩ := List.nodup_cons.mp hn
      rw [List.foldl_cons, ih (f n s) hl (hP n s hs)]
      by_cases hnm : n = m
      · subst hnm; simp [hnl, hk s hs]
      · rw [ho n s hnm hs]; simp [Ne.symm hnm]
  rw [forBits, gen bitOrder s nodup_bitOrder h, if_pos (mem_bitOrder m)]

end Sys2Proof.Machine
end

