-- ==== Sys2Proof/Laws/State.lean ====
section
/-! SUPPORT. One lemma per field per update of the state: what each named update leaves of each
projection. -/

namespace Sys2Proof.Machine

/-- Two states with equal fields are equal. -/
theorem State.eq_of_fields {s t : State} (h1 : s.cfg = t.cfg) (h2 : s.portA = t.portA)
    (h3 : s.portB = t.portB) (h4 : s.iocon = t.iocon) (h5 : s.pins = t.pins) (h6 : s.intA = t.intA)
    (h7 : s.intB = t.intB) (h8 : s.ext = t.ext) (h9 : s.out = t.out) (h10 : s.inbox = t.inbox)
    (h11 : s.ret = t.ret) : s = t := by
  cases s; cases t; simp_all

/-- Two states are equal when every register byte, every pin record and every other field is. -/
theorem State.eq_of_views {s t : State} (hcfg : s.cfg = t.cfg)
    (hreg : ∀ ty x, s.reg ty x = t.reg ty x) (hpin : ∀ p, s.pin p = t.pin p)
    (hA : s.intA = t.intA) (hB : s.intB = t.intB) (hext : s.ext = t.ext) (hout : s.out = t.out)
    (hin : s.inbox = t.inbox) (hret : s.ret = t.ret) : s = t := by
  refine State.eq_of_fields hcfg ?_ ?_ (hreg .iocon .a) ?_ hA hB hext hout hin hret
  · exact PortRegs.ext (hreg .iodir .a) (hreg .ipol .a) (hreg .gpinten .a) (hreg .defval .a)
      (hreg .intcon .a) (hreg .gppu .a) (hreg .intf .a) (hreg .intcap .a) (hreg .gpio .a) (hreg .olat .a)
  · exact PortRegs.ext (hreg .iodir .b) (hreg .ipol .b) (hreg .gpinten .b) (hreg .defval .b)
      (hreg .intcon .b) (hreg .gppu .b) (hreg .intf .b) (hreg .intcap .b) (hreg .gpio .b) (hreg .olat .b)
  · exact Vector.ext fun i hi => hpin ⟨i, hi⟩

/-! ## setPort -/

@[simp] theorem setPort_port (s : State) (x y : Port) (r : PortRegs) :
    (s.setPort x r).port y = if y = x then r else s.port y := by cases x <;> cases y <;> rfl
@[simp] theorem setPort_cfg (s : State) (x : Port) (r : PortRegs) : (s.setPort x r).cfg = s.cfg := by cases x <;> rfl
@[simp] theorem setPort_iocon (s : State) (x : Port) (r : PortRegs) : (s.setPort x r).iocon = s.iocon := by cases x <;> rfl
@[simp] theorem setPort_pins (s : State) (x : Port) (r : PortRegs) : (s.setPort x r).pins = s.pins := by cases x <;> rfl
@[simp] theorem setPort_intA (s : State) (x : Port) (r : PortRegs) : (s.setPort x r).intA = s.intA := by cases x <;> rfl
@[simp] theorem setPort_intB (s : State) (x : Port) (r : PortRegs) : (s.setPort x r).intB = s.intB := by cases x <;> rfl
@[simp] theorem setPort_ext (s : State) (x : Port) (r : PortRegs) : (s.setPort x r).ext = s.ext := by cases x <;> rfl
@[simp] theorem setPort_out (s : State) (x : Port) (r : PortRegs) : (s.setPort x r).out = s.out := by cases x <;> rfl
@[simp] theorem setPort_inbox (s : State) (x : Port) (r : PortRegs) : (s.setPort x r).inbox = s.inbox := by cases x <;> rfl
@[simp] theorem setPort_ret (s : State) (x : Port) (r : PortRegs) : (s.setPort x r).ret = s.ret := by cases x <;> rfl

/-! ## setReg -/

/-- `IOCON` is one byte: its register is the field whatever the port. -/
@[simp] theorem reg_iocon (s : State) (x : Port) : s.reg .iocon x = s.iocon := rfl

@[simp] theorem setReg_reg (s : State) (t u : RegType) (x y : Port) (v : Byte) :
    (s.setReg t x v).reg u y = if u = t ∧ (y = x ∨ t = .iocon) then v else s.reg u y := by
  cases t <;> cases u <;> cases x <;> cases y <;> rfl
@[simp] theorem setReg_cfg (s : State) (t : RegType) (x : Port) (v : Byte) : (s.setReg t x v).cfg = s.cfg := by cases t <;> simp [State.setReg]
@[simp] theorem setReg_iocon (s : State) (t : RegType) (x : Port) (v : Byte) :
    (s.setReg t x v).iocon = if t = .iocon then v else s.iocon := by cases t <;> simp [State.setReg]
@[simp] theorem setReg_pins (s : State) (t : RegType) (x : Port) (v : Byte) : (s.setReg t x v).pins = s.pins := by cases t <;> simp [State.setReg]
@[simp] theorem setReg_pin (s : State) (t : RegType) (x : Port) (v : Byte) (p : Pin) : (s.setReg t x v).pin p = s.pin p := by simp [State.pin]
@[simp] theorem setReg_intA (s : State) (t : RegType) (x : Port) (v : Byte) : (s.setReg t x v).intA = s.intA := by cases t <;> simp [State.setReg]
@[simp] theorem setReg_intB (s : State) (t : RegType) (x : Port) (v : Byte) : (s.setReg t x v).intB = s.intB := by cases t <;> simp [State.setReg]
@[simp] theorem setReg_ext (s : State) (t : RegType) (x : Port) (v : Byte) : (s.setReg t x v).ext = s.ext := by cases t <;> simp [State.setReg]
@[simp] theorem setReg_extLevel (s : State) (t : RegType) (x : Port) (v : Byte) (p : Pin) : (s.setReg t x v).extLevel p = s.extLevel p := by simp [State.extLevel]
@[simp] theorem setReg_out (s : State) (t : RegType) (x : Port) (v : Byte) : (s.setReg t x v).out = s.out := by cases t <;> simp [State.setReg]
@[simp] theorem setReg_inbox (s : State) (t : RegType) (x : Port) (v : Byte) : (s.setReg t x v).inbox = s.inbox := by cases t <;> simp [State.setReg]
@[simp] theorem setReg_ret (s : State) (t : RegType) (x : Port) (v : Byte) : (s.setReg t x v).ret = s.ret := by cases t <;> simp [State.setReg]

/-! ## setRegBit -/

/-- Writing one bit of a per-port register leaves every other bit of every register. -/
theorem setRegBit_regBit (s : State) {t : RegType} (ht : t ≠ .iocon) (u : RegType) (p q : Pin) (v : Level) :
    (s.setRegBit t p v).regBit u q = if u = t ∧ q = p then v else s.regBit u q := by
  unfold State.regBit State.setRegBit
  rw [setReg_reg]
  by_cases hu : u = t
  · subst hu
    by_cases hx : portOf q = portOf p
    · simp only [true_and, hx, true_or, if_true, bitAt_setBitAt, pin_eq_iff (p := q)]
    · have : q ≠ p := fun h => hx (h ▸ rfl)
      simp [hx, ht, this]
  · simp [hu]

theorem setRegBit_reg_of_ne (s : State) {t u : RegType} (h : u ≠ t) (x : Port) (p : Pin) (v : Level) :
    (s.setRegBit t p v).reg u x = s.reg u x := by simp [State.setRegBit, h]

@[simp] theorem setRegBit_gpinten_regBit (s : State) (u : RegType) (p q : Pin) (v : Level) :
    (s.setRegBit .gpinten p v).regBit u q = if u = .gpinten ∧ q = p then v else s.regBit u q :=
  setRegBit_regBit s (by decide) u p q v
@[simp] theorem setRegBit_intf_regBit (s : State) (u : RegType) (p q : Pin) (v : Level) :
    (s.setRegBit .intf p v).regBit u q = if u = .intf ∧ q = p then v else s.regBit u q :=
  setRegBit_regBit s (by decide) u p q v
@[simp] theorem setRegBit_iodir_regBit (s : State) (u : RegType) (p q : Pin) (v : Level) :
    (s.setRegBit .iodir p v).regBit u q = if u = .iodir ∧ q = p then v else s.regBit u q :=
  setRegBit_regBit s (by decide) u p q v
@[simp] theorem setRegBit_gppu_regBit (s : State) (u : RegType) (p q : Pin) (v : Level) :
    (s.setRegBit .gppu p v).regBit u q = if u = .gppu ∧ q = p then v else s.regBit u q :=
  setRegBit_regBit s (by decide) u p q v
@[simp] theorem setRegBit_olat_regBit (s : State) (u : RegType) (p q : Pin) (v : Level) :
    (s.setRegBit .olat p v).regBit u q = if u = .olat ∧ q = p then v else s.regBit u q :=
  setRegBit_regBit s (by decide) u p q v

@[simp] theorem setRegBit_cfg (s : State) (t : RegType) (p : Pin) (v : Level) : (s.setRegBit t p v).cfg = s.cfg := by simp [State.setRegBit]
theorem setRegBit_iocon (s : State) {t : RegType} (h : t ≠ .iocon) (p : Pin) (v : Level) : (s.setRegBit t p v).iocon = s.iocon := by simp [State.setRegBit, h]
@[simp] theorem setRegBit_pins (s : State) (t : RegType) (p : Pin) (v : Level) : (s.setRegBit t p v).pins = s.pins := by simp [State.setRegBit]
@[simp] theorem setRegBit_pin (s : State) (t : RegType) (p : Pin) (v : Level) (q : Pin) : (s.setRegBit t p v).pin q = s.pin q := by simp [State.setRegBit]
@[simp] theorem setRegBit_intA (s : State) (t : RegType) (p : Pin) (v : Level) : (s.setRegBit t p v).intA = s.intA := by simp [State.setRegBit]
@[simp] theorem setRegBit_intB (s : State) (t : RegType) (p : Pin) (v : Level) : (s.setRegBit t p v).intB = s.intB := by simp [State.setRegBit]
@[simp] theorem setRegBit_ext (s : State) (t : RegType) (p : Pin) (v : Level) : (s.setRegBit t p v).ext = s.ext := by simp [State.setRegBit]
@[simp] theorem setRegBit_extLevel (s : State) (t : RegType) (p : Pin) (v : Level) (q : Pin) : (s.setRegBit t p v).extLevel q = s.extLevel q := by simp [State.setRegBit]
@[simp] theorem setRegBit_out (s : State) (t : RegType) (p : Pin) (v : Level) : (s.setRegBit t p v).out = s.out := by simp [State.setRegBit]
@[simp] theorem setRegBit_inbox (s : State) (t : RegType) (p : Pin) (v : Level) : (s.setRegBit t p v).inbox = s.inbox := by simp [State.setRegBit]
@[simp] theorem setRegBit_ret (s : State) (t : RegType) (p : Pin) (v : Level) : (s.setRegBit t p v).ret = s.ret := by simp [State.setRegBit]

/-- Two bytes of a register are equal when the bits of the port's pins are. -/
theorem reg_eq_of_regBit {s t : State} {u : RegType} {x : Port}
    (h : ∀ n, s.regBit u (pinOf x n) = t.regBit u (pinOf x n)) : s.reg u x = t.reg u x :=
  byte_eq_of_bitAt fun n => by simpa [State.regBit] using h n

theorem regBit_of_reg_eq {s t : State} {u : RegType} {q : Pin} (h : s.reg u (portOf q) = t.reg u (portOf q)) :
    s.regBit u q = t.regBit u q := by simp [State.regBit, h]

/-- Writing back the bit a register holds changes nothing. -/
theorem setRegBit_self (s : State) {t : RegType} (ht : t ≠ .iocon) (p : Pin) : s.setRegBit t p (s.regBit t p) = s := by
  apply State.eq_of_views <;> try simp
  · intro u x
    simp only [State.setRegBit, State.regBit, setBitAt_self, setReg_reg]
    split
    · rename_i h
      obtain ⟨rfl, hx | hx⟩ := h
      · rw [hx]
      · exact absurd hx ht
    · rfl

/-! ## setPin -/

@[simp] theorem setPin_pin (s : State) (p q : Pin) (r : PinState) :
    (s.setPin p r).pin q = if q = p then r else s.pin q := by
  simp [State.setPin, State.pin, Vector.getElem_set, Fin.ext_iff, eq_comm]
@[simp] theorem setPin_reg (s : State) (p : Pin) (r : PinState) (t : RegType) (x : Port) : (s.setPin p r).reg t x = s.reg t x := by cases t <;> cases x <;> rfl
@[simp] theorem setPin_regBit (s : State) (p : Pin) (r : PinState) (t : RegType) (q : Pin) : (s.setPin p r).regBit t q = s.regBit t q := by simp [State.regBit]
@[simp] theorem setPin_cfg (s : State) (p : Pin) (r : PinState) : (s.setPin p r).cfg = s.cfg := rfl
@[simp] theorem setPin_iocon (s : State) (p : Pin) (r : PinState) : (s.setPin p r).iocon = s.iocon := rfl
@[simp] theorem setPin_intA (s : State) (p : Pin) (r : PinState) : (s.setPin p r).intA = s.intA := rfl
@[simp] theorem setPin_intB (s : State) (p : Pin) (r : PinState) : (s.setPin p r).intB = s.intB := rfl
@[simp] theorem setPin_ext (s : State) (p : Pin) (r : PinState) : (s.setPin p r).ext = s.ext := rfl
@[simp] theorem setPin_extLevel (s : State) (p : Pin) (r : PinState) (q : Pin) : (s.setPin p r).extLevel q = s.extLevel q := rfl
@[simp] theorem setPin_out (s : State) (p : Pin) (r : PinState) : (s.setPin p r).out = s.out := rfl
@[simp] theorem setPin_inbox (s : State) (p : Pin) (r : PinState) : (s.setPin p r).inbox = s.inbox := rfl
@[simp] theorem setPin_ret (s : State) (p : Pin) (r : PinState) : (s.setPin p r).ret = s.ret := rfl

/-! ## setExt -/

@[simp] theorem setExt_extLevel (s : State) (p q : Pin) (b : Level) :
    (s.setExt p b).extLevel q = if q = p then b else s.extLevel q := by
  simp [State.setExt, State.extLevel, Vector.getElem_set, Fin.ext_iff, eq_comm]
@[simp] theorem setExt_reg (s : State) (p : Pin) (b : Level) (t : RegType) (x : Port) : (s.setExt p b).reg t x = s.reg t x := by cases t <;> cases x <;> rfl
@[simp] theorem setExt_regBit (s : State) (p : Pin) (b : Level) (t : RegType) (q : Pin) : (s.setExt p b).regBit t q = s.regBit t q := by simp [State.regBit]
@[simp] theorem setExt_pin (s : State) (p q : Pin) (b : Level) : (s.setExt p b).pin q = s.pin q := rfl
@[simp] theorem setExt_cfg (s : State) (p : Pin) (b : Level) : (s.setExt p b).cfg = s.cfg := rfl
@[simp] theorem setExt_source (s : State) (p q : Pin) (b : Level) : (s.setExt p b).source q = s.source q := rfl
@[simp] theorem setExt_iocon (s : State) (p : Pin) (b : Level) : (s.setExt p b).iocon = s.iocon := rfl
@[simp] theorem setExt_intA (s : State) (p : Pin) (b : Level) : (s.setExt p b).intA = s.intA := rfl
@[simp] theorem setExt_intB (s : State) (p : Pin) (b : Level) : (s.setExt p b).intB = s.intB := rfl
@[simp] theorem setExt_out (s : State) (p : Pin) (b : Level) : (s.setExt p b).out = s.out := rfl
@[simp] theorem setExt_inbox (s : State) (p : Pin) (b : Level) : (s.setExt p b).inbox = s.inbox := rfl
@[simp] theorem setExt_ret (s : State) (p : Pin) (b : Level) : (s.setExt p b).ret = s.ret := rfl

/-! ## append -/

@[simp] theorem append_out (s : State) (e : ResultEvent) : (s.append e).out = s.out ++ [e] := rfl
@[simp] theorem append_reg (s : State) (e : ResultEvent) (t : RegType) (x : Port) : (s.append e).reg t x = s.reg t x := by cases t <;> cases x <;> rfl
@[simp] theorem append_regBit (s : State) (e : ResultEvent) (t : RegType) (q : Pin) : (s.append e).regBit t q = s.regBit t q := by simp [State.regBit]
@[simp] theorem append_pin (s : State) (e : ResultEvent) (q : Pin) : (s.append e).pin q = s.pin q := rfl
@[simp] theorem append_cfg (s : State) (e : ResultEvent) : (s.append e).cfg = s.cfg := rfl
@[simp] theorem append_iocon (s : State) (e : ResultEvent) : (s.append e).iocon = s.iocon := rfl
@[simp] theorem append_intA (s : State) (e : ResultEvent) : (s.append e).intA = s.intA := rfl
@[simp] theorem append_intB (s : State) (e : ResultEvent) : (s.append e).intB = s.intB := rfl
@[simp] theorem append_ext (s : State) (e : ResultEvent) : (s.append e).ext = s.ext := rfl
@[simp] theorem append_extLevel (s : State) (e : ResultEvent) (q : Pin) : (s.append e).extLevel q = s.extLevel q := rfl
@[simp] theorem append_inbox (s : State) (e : ResultEvent) : (s.append e).inbox = s.inbox := rfl
@[simp] theorem append_ret (s : State) (e : ResultEvent) : (s.append e).ret = s.ret := rfl

/-! ## updateInt -/

@[simp] theorem updateInt_reg (s : State) (t : RegType) (x : Port) : (updateInt s).reg t x = s.reg t x := by cases t <;> cases x <;> rfl
@[simp] theorem updateInt_regBit (s : State) (t : RegType) (q : Pin) : (updateInt s).regBit t q = s.regBit t q := by simp [State.regBit]
@[simp] theorem updateInt_pin (s : State) (q : Pin) : (updateInt s).pin q = s.pin q := rfl
@[simp] theorem updateInt_cfg (s : State) : (updateInt s).cfg = s.cfg := rfl
@[simp] theorem updateInt_iocon (s : State) : (updateInt s).iocon = s.iocon := rfl
@[simp] theorem updateInt_ext (s : State) : (updateInt s).ext = s.ext := rfl
@[simp] theorem updateInt_extLevel (s : State) (q : Pin) : (updateInt s).extLevel q = s.extLevel q := rfl
@[simp] theorem updateInt_out (s : State) : (updateInt s).out = s.out := rfl
@[simp] theorem updateInt_inbox (s : State) : (updateInt s).inbox = s.inbox := rfl
@[simp] theorem updateInt_ret (s : State) : (updateInt s).ret = s.ret := rfl
theorem updateInt_intA (s : State) : (updateInt s).intA = (intOut s.iocon (s.reg .intf .a) (s.reg .intf .b)).1 := rfl
theorem updateInt_intB (s : State) : (updateInt s).intB = (intOut s.iocon (s.reg .intf .a) (s.reg .intf .b)).2 := rfl

/-! ## Projections computed from others -/

theorem source_of_cfg {s t : State} (h : s.cfg = t.cfg) (p : Pin) : s.source p = t.source p := by simp [State.source, h]

theorem iodirIsOut_of {s t : State} (hc : s.cfg = t.cfg) {p : Pin} (h : s.regBit .iodir p = t.regBit .iodir p) :
    s.iodirIsOut p = t.iodirIsOut p := by simp [State.iodirIsOut, hc, h]

theorem pinLevel_of {s t : State} {p : Pin} (hd : (s.pin p).dir = (t.pin p).dir)
    (hv : (s.pin p).drv = (t.pin p).drv) (he : s.extLevel p = t.extLevel p) : s.pinLevel p = t.pinLevel p := by
  simp [State.pinLevel, hd, hv, he]

@[simp] theorem bitAt_sample (s : State) (x : Port) (n : BitIdx) : bitAt (s.sample x) n = s.pinLevel (pinOf x n) := by
  simp [State.sample]

theorem extLevel_of_ext {s t : State} (h : s.ext = t.ext) (p : Pin) : s.extLevel p = t.extLevel p := by
  simp [State.extLevel, h]

theorem ext_eq_of_extLevel {s t : State} (h : ∀ p, s.extLevel p = t.extLevel p) : s.ext = t.ext :=
  Vector.ext fun i hi => h ⟨i, hi⟩

/-- The bit of a pin in its port's byte. -/
theorem bitAt_reg_pinOf (s : State) (t : RegType) (x : Port) (n : BitIdx) :
    bitAt (s.reg t x) n = s.regBit t (pinOf x n) := by simp [State.regBit]

end Sys2Proof.Machine
end

