-- ==== Sys2Proof/Laws/Ops.lean ====
section
/-! SUPPORT. One group of lemmas per shared procedure: everything it does to each view of the
state. -/

namespace Sys2Proof.Machine

/-! ## Flags -/

theorem outputsFollow_updateInt (s : State) : outputsFollow (updateInt s) := ⟨rfl, rfl⟩

/-- The outputs follow when they, `IOCON` and `INTF` are as in a state where they do. -/
theorem outputsFollow_of {s t : State} (h : outputsFollow s) (hA : t.intA = s.intA) (hB : t.intB = s.intB)
    (hi : t.iocon = s.iocon) (hf : ∀ x, t.reg .intf x = s.reg .intf x) : outputsFollow t := by
  obtain ⟨h1, h2⟩ := h
  exact ⟨by rw [hA, hi, hf, hf]; exact h1, by rw [hB, hi, hf, hf]; exact h2⟩

@[simp] theorem raiseFlag_regBit (p : Pin) (s : State) (u : RegType) (q : Pin) :
    (raiseFlag p s).regBit u q = if u = .intf ∧ q = p then true else s.regBit u q := by simp [raiseFlag]
@[simp] theorem raiseFlag_pin (p : Pin) (s : State) (q : Pin) : (raiseFlag p s).pin q = s.pin q := by simp [raiseFlag]
@[simp] theorem raiseFlag_cfg (p : Pin) (s : State) : (raiseFlag p s).cfg = s.cfg := by simp [raiseFlag]
@[simp] theorem raiseFlag_iocon (p : Pin) (s : State) : (raiseFlag p s).iocon = s.iocon := by simp [raiseFlag, setRegBit_iocon]
@[simp] theorem raiseFlag_ext (p : Pin) (s : State) : (raiseFlag p s).ext = s.ext := by simp [raiseFlag]
@[simp] theorem raiseFlag_extLevel (p : Pin) (s : State) (q : Pin) : (raiseFlag p s).extLevel q = s.extLevel q := by simp [raiseFlag]
@[simp] theorem raiseFlag_out (p : Pin) (s : State) : (raiseFlag p s).out = s.out := by simp [raiseFlag]
@[simp] theorem raiseFlag_inbox (p : Pin) (s : State) : (raiseFlag p s).inbox = s.inbox := by simp [raiseFlag]
@[simp] theorem raiseFlag_ret (p : Pin) (s : State) : (raiseFlag p s).ret = s.ret := by simp [raiseFlag]
theorem raiseFlag_outputsFollow (p : Pin) (s : State) : outputsFollow (raiseFlag p s) := outputsFollow_updateInt _

/-! ## Arm, Disarm, Complete -/

@[simp] theorem arm_regBit (p : Pin) (l : Level) (s : State) (u : RegType) (q : Pin) :
    (arm p l s).regBit u q = if u = .gpinten ∧ q = p then true else s.regBit u q := by simp [arm]
@[simp] theorem arm_pin (p : Pin) (l : Level) (s : State) (q : Pin) :
    (arm p l s).pin q = if q = p then { s.pin p with ref := l } else s.pin q := by simp [arm]
@[simp] theorem arm_cfg (p : Pin) (l : Level) (s : State) : (arm p l s).cfg = s.cfg := by simp [arm]
@[simp] theorem arm_iocon (p : Pin) (l : Level) (s : State) : (arm p l s).iocon = s.iocon := by simp [arm, setRegBit_iocon]
@[simp] theorem arm_intA (p : Pin) (l : Level) (s : State) : (arm p l s).intA = s.intA := by simp [arm]
@[simp] theorem arm_intB (p : Pin) (l : Level) (s : State) : (arm p l s).intB = s.intB := by simp [arm]
@[simp] theorem arm_ext (p : Pin) (l : Level) (s : State) : (arm p l s).ext = s.ext := by simp [arm]
@[simp] theorem arm_extLevel (p : Pin) (l : Level) (s : State) (q : Pin) : (arm p l s).extLevel q = s.extLevel q := by simp [arm]
@[simp] theorem arm_out (p : Pin) (l : Level) (s : State) : (arm p l s).out = s.out := by simp [arm]
@[simp] theorem arm_inbox (p : Pin) (l : Level) (s : State) : (arm p l s).inbox = s.inbox := by simp [arm]
@[simp] theorem arm_ret (p : Pin) (l : Level) (s : State) : (arm p l s).ret = s.ret := by simp [arm]
theorem arm_reg_of_ne (p : Pin) (l : Level) (s : State) {u : RegType} (h : u ≠ .gpinten) (x : Port) :
    (arm p l s).reg u x = s.reg u x := by simp [arm, setRegBit_reg_of_ne s h]
theorem arm_outputsFollow (p : Pin) (l : Level) {s : State} (h : outputsFollow s) : outputsFollow (arm p l s) :=
  outputsFollow_of h (by simp) (by simp) (by simp) (fun x => arm_reg_of_ne p l s (by decide) x)

@[simp] theorem disarm_regBit (p : Pin) (s : State) (u : RegType) (q : Pin) :
    (disarm p s).regBit u q = if (u = .gpinten ∨ u = .intf) ∧ q = p then false else s.regBit u q := by
  simp only [disarm, updateInt_regBit, setRegBit_intf_regBit, setRegBit_gpinten_regBit]
  by_cases h1 : u = .intf <;> by_cases h2 : u = .gpinten <;> by_cases h3 : q = p <;> simp_all
@[simp] theorem disarm_pin (p : Pin) (s : State) (q : Pin) : (disarm p s).pin q = s.pin q := by simp [disarm]
@[simp] theorem disarm_cfg (p : Pin) (s : State) : (disarm p s).cfg = s.cfg := by simp [disarm]
@[simp] theorem disarm_iocon (p : Pin) (s : State) : (disarm p s).iocon = s.iocon := by simp [disarm, setRegBit_iocon]
@[simp] theorem disarm_ext (p : Pin) (s : State) : (disarm p s).ext = s.ext := by simp [disarm]
@[simp] theorem disarm_extLevel (p : Pin) (s : State) (q : Pin) : (disarm p s).extLevel q = s.extLevel q := by simp [disarm]
@[simp] theorem disarm_out (p : Pin) (s : State) : (disarm p s).out = s.out := by simp [disarm]
@[simp] theorem disarm_inbox (p : Pin) (s : State) : (disarm p s).inbox = s.inbox := by simp [disarm]
@[simp] theorem disarm_ret (p : Pin) (s : State) : (disarm p s).ret = s.ret := by simp [disarm]
theorem disarm_reg_of_ne (p : Pin) (s : State) {u : RegType} (h1 : u ≠ .gpinten) (h2 : u ≠ .intf) (x : Port) :
    (disarm p s).reg u x = s.reg u x := by
  simp [disarm, setRegBit_reg_of_ne _ h2, setRegBit_reg_of_ne _ h1]
theorem disarm_outputsFollow (p : Pin) (s : State) : outputsFollow (disarm p s) := outputsFollow_updateInt _

@[simp] theorem setStatus_pin (p : Pin) (v : Status) (s : State) (q : Pin) :
    (setStatus p v s).pin q = if q = p then { s.pin p with st := v } else s.pin q := by simp [setStatus]
@[simp] theorem setStatus_reg (p : Pin) (v : Status) (s : State) (u : RegType) (x : Port) : (setStatus p v s).reg u x = s.reg u x := by simp [setStatus]
@[simp] theorem setStatus_regBit (p : Pin) (v : Status) (s : State) (u : RegType) (q : Pin) : (setStatus p v s).regBit u q = s.regBit u q := by simp [setStatus]
@[simp] theorem setStatus_cfg (p : Pin) (v : Status) (s : State) : (setStatus p v s).cfg = s.cfg := rfl
@[simp] theorem setStatus_iocon (p : Pin) (v : Status) (s : State) : (setStatus p v s).iocon = s.iocon := rfl
@[simp] theorem setStatus_intA (p : Pin) (v : Status) (s : State) : (setStatus p v s).intA = s.intA := rfl
@[simp] theorem setStatus_intB (p : Pin) (v : Status) (s : State) : (setStatus p v s).intB = s.intB := rfl
@[simp] theorem setStatus_ext (p : Pin) (v : Status) (s : State) : (setStatus p v s).ext = s.ext := rfl
@[simp] theorem setStatus_extLevel (p : Pin) (v : Status) (s : State) (q : Pin) : (setStatus p v s).extLevel q = s.extLevel q := rfl
@[simp] theorem setStatus_out (p : Pin) (v : Status) (s : State) : (setStatus p v s).out = s.out := rfl
@[simp] theorem setStatus_inbox (p : Pin) (v : Status) (s : State) : (setStatus p v s).inbox = s.inbox := rfl
@[simp] theorem setStatus_ret (p : Pin) (v : Status) (s : State) : (setStatus p v s).ret = s.ret := rfl

@[simp] theorem finish_pin (p : Pin) (r : Option Level) (s : State) (q : Pin) :
    (finish p r s).pin q = if q = p then { s.pin p with st := .done r } else s.pin q := by simp [finish]
@[simp] theorem finish_reg (p : Pin) (r : Option Level) (s : State) (u : RegType) (x : Port) : (finish p r s).reg u x = s.reg u x := by simp [finish]
@[simp] theorem finish_regBit (p : Pin) (r : Option Level) (s : State) (u : RegType) (q : Pin) : (finish p r s).regBit u q = s.regBit u q := by simp [finish]
@[simp] theorem finish_cfg (p : Pin) (r : Option Level) (s : State) : (finish p r s).cfg = s.cfg := rfl
@[simp] theorem finish_iocon (p : Pin) (r : Option Level) (s : State) : (finish p r s).iocon = s.iocon := rfl
@[simp] theorem finish_intA (p : Pin) (r : Option Level) (s : State) : (finish p r s).intA = s.intA := rfl
@[simp] theorem finish_intB (p : Pin) (r : Option Level) (s : State) : (finish p r s).intB = s.intB := rfl
@[simp] theorem finish_ext (p : Pin) (r : Option Level) (s : State) : (finish p r s).ext = s.ext := rfl
@[simp] theorem finish_extLevel (p : Pin) (r : Option Level) (s : State) (q : Pin) : (finish p r s).extLevel q = s.extLevel q := rfl
@[simp] theorem finish_out (p : Pin) (r : Option Level) (s : State) : (finish p r s).out = s.out ++ [.done p r] := rfl
@[simp] theorem finish_inbox (p : Pin) (r : Option Level) (s : State) : (finish p r s).inbox = s.inbox := rfl
@[simp] theorem finish_ret (p : Pin) (r : Option Level) (s : State) : (finish p r s).ret = s.ret := rfl
theorem finish_outputsFollow (p : Pin) (r : Option Level) {s : State} (h : outputsFollow s) : outputsFollow (finish p r s) :=
  outputsFollow_of h rfl rfl rfl (fun x => by simp)

@[simp] theorem complete_pin (p : Pin) (r : Level) (s : State) (q : Pin) :
    (complete p r s).pin q = if q = p then { s.pin p with st := .done (some r) } else s.pin q := by simp [complete]
@[simp] theorem complete_regBit (p : Pin) (r : Level) (s : State) (u : RegType) (q : Pin) :
    (complete p r s).regBit u q = if (u = .gpinten ∨ u = .intf) ∧ q = p then false else s.regBit u q := by simp [complete]
@[simp] theorem complete_cfg (p : Pin) (r : Level) (s : State) : (complete p r s).cfg = s.cfg := by simp [complete]
@[simp] theorem complete_iocon (p : Pin) (r : Level) (s : State) : (complete p r s).iocon = s.iocon := by simp [complete]
@[simp] theorem complete_ext (p : Pin) (r : Level) (s : State) : (complete p r s).ext = s.ext := by simp [complete]
@[simp] theorem complete_extLevel (p : Pin) (r : Level) (s : State) (q : Pin) : (complete p r s).extLevel q = s.extLevel q := by simp [complete]
@[simp] theorem complete_out (p : Pin) (r : Level) (s : State) : (complete p r s).out = s.out ++ [.done p (some r)] := by simp [complete]
@[simp] theorem complete_inbox (p : Pin) (r : Level) (s : State) : (complete p r s).inbox = s.inbox := by simp [complete]
@[simp] theorem complete_ret (p : Pin) (r : Level) (s : State) : (complete p r s).ret = s.ret := by simp [complete]
theorem complete_outputsFollow (p : Pin) (r : Level) (s : State) : outputsFollow (complete p r s) :=
  finish_outputsFollow p _ (disarm_outputsFollow p s)

/-! ## Advance -/

theorem decRem_eq (r : Fin 3) : decRem r = if r = 2 then 1 else 0 := by revert r; decide

/-- State `t` is state `s` after the delivery `d` to pin `p` and nothing else. -/
structure DeliversTo (p : Pin) (d : Delivery) (s t : State) : Prop where
  pin : ∀ q, t.pin q = if q = p then d.pin else s.pin q
  regBit : ∀ u q, u ≠ .intf → t.regBit u q = if u = .gpinten ∧ q = p then d.armed else s.regBit u q
  intf_le : ∀ q, t.regBit .intf q = true → s.regBit .intf q = true
  intf_of_ne : ∀ q, q ≠ p → t.regBit .intf q = s.regBit .intf q
  out : t.out = s.out ++ d.results
  cfg : t.cfg = s.cfg
  iocon : t.iocon = s.iocon
  ext : t.ext = s.ext
  inbox : t.inbox = s.inbox
  ret : t.ret = s.ret
  outputs : outputsFollow s → outputsFollow t

/-- Nothing is delivered: the state stays. -/
theorem deliversTo_nothing (p : Pin) (s : State) :
    DeliversTo p (.nothing (s.pin p) (s.regBit .gpinten p)) s s where
  pin q := by simp only [Delivery.nothing]; split <;> simp_all
  regBit u q _ := by simp only [Delivery.nothing]; split <;> simp_all
  intf_le _ h := h
  intf_of_ne _ _ := rfl
  out := by simp [Delivery.nothing]
  cfg := rfl
  iocon := rfl
  ext := rfl
  inbox := rfl
  ret := rfl
  outputs := id

/-- A watch emits. -/
theorem deliversTo_emit (p : Pin) (l : Level) (s : State) :
    DeliversTo p { pin := s.pin p, armed := s.regBit .gpinten p, results := [.emit p l] } s (s.append (.emit p l)) where
  pin q := by rw [append_pin]; split <;> simp_all
  regBit u q _ := by rw [append_regBit]; split <;> simp_all
  intf_le _ h := by simpa using h
  intf_of_ne _ _ := by simp
  out := rfl
  cfg := rfl
  iocon := rfl
  ext := rfl
  inbox := rfl
  ret := rfl
  outputs h := outputsFollow_of h rfl rfl rfl (by simp)

/-- Only the record of the pin is rewritten. -/
theorem deliversTo_setPin (p : Pin) (x : PinState) (s : State) :
    DeliversTo p (.nothing x (s.regBit .gpinten p)) s (s.setPin p x) where
  pin q := by simp [Delivery.nothing]
  regBit u q _ := by rw [setPin_regBit]; simp only [Delivery.nothing]; split <;> simp_all
  intf_le _ h := by simpa using h
  intf_of_ne _ _ := by simp
  out := by simp [Delivery.nothing]
  cfg := rfl
  iocon := rfl
  ext := rfl
  inbox := rfl
  ret := rfl
  outputs h := outputsFollow_of h rfl rfl rfl (by simp)

/-- The wait ends. -/
theorem deliversTo_complete (p : Pin) (x : PinState) (r : Level) (s : State) :
    DeliversTo p (.ends p x r) s (complete p r (s.setPin p x)) where
  pin q := by by_cases hq : q = p <;> simp [Delivery.ends, hq]
  regBit u q hu := by simp [Delivery.ends, hu]
  intf_le q := by by_cases hq : q = p <;> simp [hq]
  intf_of_ne q hq := by simp [hq]
  out := by simp [Delivery.ends]
  cfg := by simp
  iocon := by simp
  ext := by simp
  inbox := by simp
  ret := by simp
  outputs _ := complete_outputsFollow p r _

theorem setPin_self (s : State) (p : Pin) : s.setPin p (s.pin p) = s := by
  apply State.eq_of_views <;> intros <;> simp
  rintro rfl; rfl

/-- Everything the case table can do to a suspended, armed pin. -/
theorem resume_deliversTo (p : Pin) (f l : Level) (r : Option Request) (s : State) (h : s.regBit .gpinten p = true) :
    DeliversTo p (deliverTo p (s.pin p) f l r) s (resume p f l r s) := by
  have nothing := deliversTo_nothing p s
  have emit := deliversTo_emit p l s
  have ends := deliversTo_complete p (s.pin p) (s := s)
  have recount := fun x => deliversTo_setPin p x s
  rw [setPin_self] at ends
  rw [h] at nothing emit
  simp only [h] at recount
  match r with
  | some (.waitState _ t) =>
    by_cases hl : l = t
    · simpa [deliverTo, resume, hl] using ends t
    · simpa [deliverTo, resume, hl] using nothing
  | some (.waitAny _) =>
    cases f
    · exact nothing
    · exact ends l
  | some (.waitSpec _ t) =>
    cases f
    · exact nothing
    · by_cases hr : (s.pin p).ews.rem = 2
      · simpa [deliverTo, resume, hr, decRem_eq] using recount _
      · simpa [deliverTo, resume, hr, decRem_eq] using deliversTo_complete p _ t s
  | some (.watch _) =>
    cases f
    · exact nothing
    · exact emit
  | some (.output _) => exact nothing
  | some (.inNone _) => exact nothing
  | some (.inRead _) => exact nothing
  | none => exact nothing

/-- Everything `Advance(p, f, l)` can do (R177), in terms of `deliver`. -/
theorem advance_deliversTo (p : Pin) (f l : Level) (s : State) :
    DeliversTo p (deliver p (s.pin p) (s.regBit .gpinten p) f l) s (advance p f l s) := by
  by_cases h : (s.pin p).st = .processing ∧ s.regBit .gpinten p = true
  · have hg : ((s.pin p).st == .processing && s.regBit .gpinten p) = true := by simp [h]
    unfold deliver advance
    rw [if_pos h, if_pos hg]
    exact resume_deliversTo p f l _ s h.2
  · have hg : ¬((s.pin p).st == .processing && s.regBit .gpinten p) = true := by simpa using h
    unfold deliver advance
    rw [if_neg h, if_neg hg]
    exact deliversTo_nothing p s

/-! ## The compound GPIO read -/

/-- The state in which the loop of a compound read starts. -/
def readStart (x : Port) (s : State) : State :=
  updateInt ((s.setReg .gpio x (s.sample x)).setReg .intf x 0x00)

theorem gpioRead_fst (x : Port) (s : State) : (gpioRead x s).1 = s.sample x := rfl

theorem gpioRead_snd (x : Port) (s : State) :
    (gpioRead x s).2 = forBits (fun n => advance (pinOf x n) (s.regBit .intf (pinOf x n)) (s.pinLevel (pinOf x n)))
      (readStart x s) := by
  simp only [gpioRead, bitAt_reg_pinOf, bitAt_sample]
  rfl

@[simp] theorem readStart_pin (x : Port) (s : State) (q : Pin) : (readStart x s).pin q = s.pin q := by simp [readStart]
@[simp] theorem readStart_reg (x : Port) (s : State) (u : RegType) (y : Port) :
    (readStart x s).reg u y = if u = .intf ∧ y = x then 0x00 else if u = .gpio ∧ y = x then s.sample x else s.reg u y := by
  simp [readStart]
theorem readStart_gpinten (x : Port) (s : State) (q : Pin) : (readStart x s).regBit .gpinten q = s.regBit .gpinten q := by
  simp [State.regBit]
theorem readStart_intf (x : Port) (s : State) (n : BitIdx) : (readStart x s).regBit .intf (pinOf x n) = false := by
  simp [State.regBit]
@[simp] theorem readStart_cfg (x : Port) (s : State) : (readStart x s).cfg = s.cfg := by simp [readStart]
@[simp] theorem readStart_iocon (x : Port) (s : State) : (readStart x s).iocon = s.iocon := by simp [readStart]
@[simp] theorem readStart_ext (x : Port) (s : State) : (readStart x s).ext = s.ext := by simp [readStart]
@[simp] theorem readStart_out (x : Port) (s : State) : (readStart x s).out = s.out := by simp [readStart]
@[simp] theorem readStart_inbox (x : Port) (s : State) : (readStart x s).inbox = s.inbox := by simp [readStart]
@[simp] theorem readStart_ret (x : Port) (s : State) : (readStart x s).ret = s.ret := by simp [readStart]

/-- Everything a compound read of port `x` does to a state (R176). -/
structure ReadsPort (x : Port) (s t : State) : Prop where
  pin : ∀ q, t.pin q = if portOf q = x then (delivered s q).pin else s.pin q
  gpinten : ∀ q, t.regBit .gpinten q = if portOf q = x then (delivered s q).armed else s.regBit .gpinten q
  reg : ∀ u y, u ≠ .gpinten →
    t.reg u y = if u = .intf ∧ y = x then 0x00 else if u = .gpio ∧ y = x then s.sample x else s.reg u y
  out : t.out = s.out ++ deliveredResults s x none
  cfg : t.cfg = s.cfg
  iocon : t.iocon = s.iocon
  ext : t.ext = s.ext
  inbox : t.inbox = s.inbox
  ret : t.ret = s.ret
  outputs : outputsFollow t

/-- The loop of a compound read, over any part of the port's bits. -/
theorem readLoop (x : Port) (s : State) (l : List BitIdx) (hl : l.Nodup) (e : State)
    (hpin : ∀ n ∈ l, e.pin (pinOf x n) = s.pin (pinOf x n))
    (hg : ∀ n ∈ l, e.regBit .gpinten (pinOf x n) = s.regBit .gpinten (pinOf x n)) :
    let t := l.foldl (fun e n => advance (pinOf x n) (s.regBit .intf (pinOf x n)) (s.pinLevel (pinOf x n)) e) e
    (∀ n, t.pin (pinOf x n) = if n ∈ l then (delivered s (pinOf x n)).pin else e.pin (pinOf x n)) ∧
    (∀ n, t.regBit .gpinten (pinOf x n) = if n ∈ l then (delivered s (pinOf x n)).armed else e.regBit .gpinten (pinOf x n)) ∧
    (∀ q, portOf q ≠ x → t.pin q = e.pin q ∧ ∀ u, t.regBit u q = e.regBit u q) ∧
    (∀ u q, u ≠ .gpinten → u ≠ .intf → t.regBit u q = e.regBit u q) ∧
    (∀ q, t.regBit .intf q = true → e.regBit .intf q = true) ∧
    t.out = e.out ++ l.flatMap (fun n => (delivered s (pinOf x n)).results) ∧
    t.cfg = e.cfg ∧ t.iocon = e.iocon ∧ t.ext = e.ext ∧ t.inbox = e.inbox ∧ t.ret = e.ret ∧
    (outputsFollow e → outputsFollow t) := by
  induction l generalizing e with
  | nil => simp
  | cons n l ih =>
    obtain ⟨hnl, hl⟩ := List.nodup_cons.mp hl
    have d := advance_deliversTo (pinOf x n) (s.regBit .intf (pinOf x n)) (s.pinLevel (pinOf x n)) e
    rw [hpin n (by simp), hg n (by simp)] at d
    change DeliversTo (pinOf x n) (delivered s (pinOf x n)) e _ at d
    have hne : ∀ m ∈ l, pinOf x m ≠ pinOf x n := by
      intro m hm h
      exact hnl ((pinOf_inj.mp h).2 ▸ hm)
    obtain ⟨i1, i2, i3, i4, i5, i6, i7, i8, i9, i10, i11, i12⟩ := ih hl
      (advance (pinOf x n) (s.regBit .intf (pinOf x n)) (s.pinLevel (pinOf x n)) e)
      (by intro m hm; rw [d.pin, if_neg (hne m hm)]; exact hpin m (by simp [hm]))
      (by intro m hm; rw [d.regBit _ _ (by decide), if_neg (by simp [hne m hm])]; exact hg m (by simp [hm]))
    simp only [List.foldl_cons]
    refine ⟨?_, ?_, ?_, ?_, ?_, ?_, by rw [i7, d.cfg], by rw [i8, d.iocon], by rw [i9, d.ext], by rw [i10, d.inbox],
      by rw [i11, d.ret], fun h => i12 (d.outputs h)⟩
    · intro m
      rw [i1]
      by_cases hm : m ∈ l
      · simp [hm]
      · by_cases hmn : m = n
        · subst hmn; simp [hm, d.pin]
        · have : pinOf x m ≠ pinOf x n := fun h => hmn (pinOf_inj.mp h).2
          simp [hm, hmn, d.pin, this]
    · intro m
      rw [i2]
      by_cases hm : m ∈ l
      · simp [hm]
      · by_cases hmn : m = n
        · subst hmn; simp [hm, d.regBit]
        · have : pinOf x m ≠ pinOf x n := fun h => hmn (pinOf_inj.mp h).2
          simp [hm, hmn, d.regBit, this]
    · intro q hq
      have hqn : q ≠ pinOf x n := fun h => hq (by simp [h])
      obtain ⟨j1, j2⟩ := i3 q hq
      refine ⟨by rw [j1, d.pin, if_neg hqn], fun u => ?_⟩
      rw [j2]
      by_cases hu : u = .intf
      · rw [hu, d.intf_of_ne q hqn]
      · rw [d.regBit u q hu, if_neg (by simp [hqn])]
    · intro u q h1 h2
      rw [i4 u q h1 h2, d.regBit u q h2, if_neg (by simp [h1])]
    · intro q h; exact d.intf_le q (i5 q h)
    · rw [i6, d.out]; simp

theorem deliveredResults_none (s : State) (x : Port) :
    deliveredResults s x none = bitOrder.flatMap fun n => (delivered s (pinOf x n)).results := by
  simp [deliveredResults]

/-- The compound read says what it does, once (R176, R179). -/
theorem gpioRead_readsPort (x : Port) (s : State) : ReadsPort x s (gpioRead x s).2 := by
  rw [gpioRead_snd]
  obtain ⟨h1, h2, h3, h4, h5, h6, h7, h8, h9, h10, h11, h12⟩ :=
    readLoop x s bitOrder nodup_bitOrder (readStart x s) (by simp) (fun n _ => readStart_gpinten x s _)
  rw [← forBits] at h1 h2 h3 h4 h5 h6 h7 h8 h9 h10 h11 h12
  have hreg : ∀ u y, u ≠ .gpinten → (forBits (fun n => advance (pinOf x n) (s.regBit .intf (pinOf x n))
      (s.pinLevel (pinOf x n))) (readStart x s)).reg u y = (readStart x s).reg u y := by
    intro u y hu
    apply reg_eq_of_regBit
    intro n
    by_cases hi : u = .intf
    · subst hi
      by_cases hy : y = x
      · subst hy
        rw [readStart_intf, Bool.eq_false_iff]
        exact fun h => by simpa [readStart_intf] using h5 _ h
      · exact (h3 (pinOf y n) (by simpa using hy)).2 _
    · exact h4 u _ hu hi
  refine ⟨?_, ?_, ?_, ?_, by simpa using h7, by simpa using h8, by simpa using h9, by simpa using h10,
    by simpa using h11, h12 (outputsFollow_updateInt _)⟩
  · intro q
    by_cases hq : portOf q = x
    · subst hq
      have := h1 (bitOf q)
      simpa [mem_bitOrder] using this
    · simpa [hq] using (h3 q hq).1
  · intro q
    by_cases hq : portOf q = x
    · subst hq
      have := h2 (bitOf q)
      simpa [mem_bitOrder] using this
    · simpa [hq, readStart_gpinten] using (h3 q hq).2 .gpinten
  · intro u y hu
    rw [hreg u y hu, readStart_reg]
  · rw [h6, readStart_out, deliveredResults_none]

end Sys2Proof.Machine
end

