-- ==== Sys2Proof/Laws/Assign.lean ====
section
/-! SUPPORT. What assigning a request does: the state an entry action starts from, the input entry, and
everything an entry read does. -/

namespace Sys2Proof.Machine

/-! ## EntryInput -/

@[simp] theorem entryInput_regBit (p : Pin) (u : Pull) (s : State) (ty : RegType) (q : Pin) :
    (entryInput p u s).regBit ty q =
      if ty = .iodir ∧ q = p then s.cfg.iodirIn else if ty = .gppu ∧ q = p then u else s.regBit ty q := by
  simp only [entryInput, setPin_regBit, setRegBit_gppu_regBit, setRegBit_iodir_regBit]
  by_cases h : ty = .gppu <;> simp [h]
@[simp] theorem entryInput_pin (p : Pin) (u : Pull) (s : State) (q : Pin) :
    (entryInput p u s).pin q = if q = p then { s.pin p with dir := .input, pull := u } else s.pin q := by
  by_cases h : q = p <;> simp [entryInput, h]
@[simp] theorem entryInput_cfg (p : Pin) (u : Pull) (s : State) : (entryInput p u s).cfg = s.cfg := by simp [entryInput]
@[simp] theorem entryInput_iocon (p : Pin) (u : Pull) (s : State) : (entryInput p u s).iocon = s.iocon := by simp [entryInput, setRegBit_iocon]
@[simp] theorem entryInput_intA (p : Pin) (u : Pull) (s : State) : (entryInput p u s).intA = s.intA := by simp [entryInput]
@[simp] theorem entryInput_intB (p : Pin) (u : Pull) (s : State) : (entryInput p u s).intB = s.intB := by simp [entryInput]
@[simp] theorem entryInput_ext (p : Pin) (u : Pull) (s : State) : (entryInput p u s).ext = s.ext := by simp [entryInput]
@[simp] theorem entryInput_extLevel (p : Pin) (u : Pull) (s : State) (q : Pin) : (entryInput p u s).extLevel q = s.extLevel q := by simp [entryInput]
@[simp] theorem entryInput_out (p : Pin) (u : Pull) (s : State) : (entryInput p u s).out = s.out := by simp [entryInput]
@[simp] theorem entryInput_inbox (p : Pin) (u : Pull) (s : State) : (entryInput p u s).inbox = s.inbox := by simp [entryInput]
@[simp] theorem entryInput_ret (p : Pin) (u : Pull) (s : State) : (entryInput p u s).ret = s.ret := by simp [entryInput]
theorem entryInput_reg_of_ne (p : Pin) (u : Pull) (s : State) {ty : RegType} (h1 : ty ≠ .iodir) (h2 : ty ≠ .gppu)
    (x : Port) : (entryInput p u s).reg ty x = s.reg ty x := by
  simp [entryInput, setRegBit_reg_of_ne _ h1, setRegBit_reg_of_ne _ h2]
theorem entryInput_outputsFollow (p : Pin) (u : Pull) {s : State} (h : outputsFollow s) :
    outputsFollow (entryInput p u s) :=
  outputsFollow_of h (by simp) (by simp) (by simp) (fun x => entryInput_reg_of_ne p u s (by decide) (by decide) x)

/-! ## The state an entry action starts from -/

/-- `Assign(p, r)` up to `Entry` (R146). -/
def assignStart (p : Pin) (r : Request) (s : State) : State :=
  setStatus p .processing (setStatus p .pending
    ((disarm p s).setPin p { (disarm p s).pin p with req := some r, ews := ⟨false, 0⟩ }))

theorem assign_eq (p : Pin) (r : Request) (s : State) : assign p r s = entry p r (assignStart p r s) := rfl

@[simp] theorem assignStart_regBit (p : Pin) (r : Request) (s : State) (ty : RegType) (q : Pin) :
    (assignStart p r s).regBit ty q = if (ty = .gpinten ∨ ty = .intf) ∧ q = p then false else s.regBit ty q := by
  simp [assignStart]
@[simp] theorem assignStart_pin (p : Pin) (r : Request) (s : State) (q : Pin) :
    (assignStart p r s).pin q =
      if q = p then { s.pin p with req := some r, st := .processing, ews := ⟨false, 0⟩ } else s.pin q := by
  by_cases h : q = p <;> simp [assignStart, h]
@[simp] theorem assignStart_cfg (p : Pin) (r : Request) (s : State) : (assignStart p r s).cfg = s.cfg := by simp [assignStart]
@[simp] theorem assignStart_iocon (p : Pin) (r : Request) (s : State) : (assignStart p r s).iocon = s.iocon := by simp [assignStart]
@[simp] theorem assignStart_ext (p : Pin) (r : Request) (s : State) : (assignStart p r s).ext = s.ext := by simp [assignStart]
@[simp] theorem assignStart_extLevel (p : Pin) (r : Request) (s : State) (q : Pin) : (assignStart p r s).extLevel q = s.extLevel q := by simp [assignStart]
@[simp] theorem assignStart_out (p : Pin) (r : Request) (s : State) : (assignStart p r s).out = s.out := by simp [assignStart]
@[simp] theorem assignStart_inbox (p : Pin) (r : Request) (s : State) : (assignStart p r s).inbox = s.inbox := by simp [assignStart]
@[simp] theorem assignStart_ret (p : Pin) (r : Request) (s : State) : (assignStart p r s).ret = s.ret := by simp [assignStart]
theorem assignStart_reg_of_ne (p : Pin) (r : Request) (s : State) {ty : RegType} (h1 : ty ≠ .gpinten)
    (h2 : ty ≠ .intf) (x : Port) : (assignStart p r s).reg ty x = s.reg ty x := by
  simp [assignStart, disarm_reg_of_ne p s h1 h2]
theorem assignStart_outputsFollow (p : Pin) (r : Request) (s : State) : outputsFollow (assignStart p r s) :=
  outputsFollow_of (disarm_outputsFollow p s) (by simp [assignStart]) (by simp [assignStart]) (by simp [assignStart])
    (fun x => by simp [assignStart])

/-- The state in which the entry of an input-like request reads or arms (R147). -/
def inputStart (p : Pin) (u : Pull) (r : Request) (s : State) : State := entryInput p u (assignStart p r s)

@[simp] theorem inputStart_regBit (p : Pin) (u : Pull) (r : Request) (s : State) (ty : RegType) (q : Pin) :
    (inputStart p u r s).regBit ty q =
      if ty = .iodir ∧ q = p then s.cfg.iodirIn else if ty = .gppu ∧ q = p then u
      else if (ty = .gpinten ∨ ty = .intf) ∧ q = p then false else s.regBit ty q := by simp [inputStart]
@[simp] theorem inputStart_pin (p : Pin) (u : Pull) (r : Request) (s : State) (q : Pin) :
    (inputStart p u r s).pin q = if q = p then
      { s.pin p with dir := .input, pull := u, req := some r, st := .processing, ews := ⟨false, 0⟩ } else s.pin q := by
  by_cases h : q = p <;> simp [inputStart, h]
@[simp] theorem inputStart_cfg (p : Pin) (u : Pull) (r : Request) (s : State) : (inputStart p u r s).cfg = s.cfg := by simp [inputStart]
@[simp] theorem inputStart_iocon (p : Pin) (u : Pull) (r : Request) (s : State) : (inputStart p u r s).iocon = s.iocon := by simp [inputStart]
@[simp] theorem inputStart_ext (p : Pin) (u : Pull) (r : Request) (s : State) : (inputStart p u r s).ext = s.ext := by simp [inputStart]
@[simp] theorem inputStart_extLevel (p : Pin) (u : Pull) (r : Request) (s : State) (q : Pin) : (inputStart p u r s).extLevel q = s.extLevel q := by simp [inputStart]
@[simp] theorem inputStart_out (p : Pin) (u : Pull) (r : Request) (s : State) : (inputStart p u r s).out = s.out := by simp [inputStart]
@[simp] theorem inputStart_inbox (p : Pin) (u : Pull) (r : Request) (s : State) : (inputStart p u r s).inbox = s.inbox := by simp [inputStart]
@[simp] theorem inputStart_ret (p : Pin) (u : Pull) (r : Request) (s : State) : (inputStart p u r s).ret = s.ret := by simp [inputStart]
theorem inputStart_outputsFollow (p : Pin) (u : Pull) (r : Request) (s : State) : outputsFollow (inputStart p u r s) :=
  entryInput_outputsFollow p u (assignStart_outputsFollow p r s)

/-! ## Delivery, from one state to another -/

/-- What is delivered to a pin depends on its record, its two bits and its outside level alone. -/
theorem delivered_of {s t : State} {q : Pin} (h1 : s.pin q = t.pin q)
    (h2 : s.regBit .gpinten q = t.regBit .gpinten q) (h3 : s.regBit .intf q = t.regBit .intf q)
    (h4 : s.extLevel q = t.extLevel q) : delivered s q = delivered t q := by
  simp only [delivered, h1, h2, h3, pinLevel_of (congrArg PinState.dir h1) (congrArg PinState.drv h1) h4]

/-- Nothing is delivered to a pin that is not armed (R177). -/
theorem delivered_of_not_armed {s : State} {q : Pin} (h : s.regBit .gpinten q = false) :
    delivered s q = ⟨s.pin q, false, []⟩ := by simp [delivered, deliver, h, Delivery.nothing]

/-- Nothing is delivered to a pin that is not in Processing (R177). -/
theorem delivered_of_not_processing {s : State} {q : Pin} (h : (s.pin q).st ≠ .processing) :
    delivered s q = ⟨s.pin q, s.regBit .gpinten q, []⟩ := by simp [delivered, deliver, h, Delivery.nothing]

/-- A delivery arms no pin. -/
theorem armed_of_delivered_armed {s : State} {q : Pin} (h : (delivered s q).armed = true) :
    s.regBit .gpinten q = true := by
  by_contra hn
  rw [delivered_of_not_armed (by simpa using hn)] at h
  exact absurd h (by simp)

theorem deliveredResults_of {s t : State} {x : Port} {but : Option Pin}
    (h : ∀ n, some (pinOf x n) ≠ but → delivered s (pinOf x n) = delivered t (pinOf x n)) :
    deliveredResults s x but = deliveredResults t x but := by
  unfold deliveredResults
  congr 1
  funext n
  split
  · rfl
  · rename_i hn; rw [h n hn]

/-! ## Entry reads -/

/-- Everything the entry read of an input-like request `r` with pull `u` of pin `p` leaves, before the
request arms or finishes (R147, R176). -/
structure EntryReads (p : Pin) (u : Pull) (r : Request) (s t : State) : Prop where
  pin_self : t.pin p =
    { s.pin p with dir := .input, pull := u, req := some r, st := .processing, ews := ⟨false, 0⟩ }
  pin : ∀ q, q ≠ p → t.pin q = if portOf q = portOf p then (delivered s q).pin else s.pin q
  gpinten_self : t.regBit .gpinten p = false
  gpinten : ∀ q, q ≠ p →
    t.regBit .gpinten q = if portOf q = portOf p then (delivered s q).armed else s.regBit .gpinten q
  intf : ∀ q, t.regBit .intf q = if portOf q = portOf p then false else s.regBit .intf q
  gpio : ∀ q, t.regBit .gpio q =
    if q = p then s.extLevel p else if portOf q = portOf p then s.pinLevel q else s.regBit .gpio q
  iodir : ∀ q, t.regBit .iodir q = if q = p then s.cfg.iodirIn else s.regBit .iodir q
  gppu : ∀ q, t.regBit .gppu q = if q = p then u else s.regBit .gppu q
  other : ∀ ty q, ty ≠ .gpinten → ty ≠ .intf → ty ≠ .gpio → ty ≠ .iodir → ty ≠ .gppu →
    t.regBit ty q = s.regBit ty q
  out : t.out = s.out ++ deliveredResults s (portOf p) (some p)
  cfg : t.cfg = s.cfg
  iocon : t.iocon = s.iocon
  ext : t.ext = s.ext
  inbox : t.inbox = s.inbox
  ret : t.ret = s.ret
  outputs : outputsFollow t

theorem delivered_inputStart {p q : Pin} (h : q ≠ p) (u : Pull) (r : Request) (s : State) :
    delivered (inputStart p u r s) q = delivered s q :=
  delivered_of (by simp [h]) (by simp [h]) (by simp [h]) (by simp)

theorem delivered_inputStart_self (p : Pin) (u : Pull) (r : Request) (s : State) :
    delivered (inputStart p u r s) p = ⟨(inputStart p u r s).pin p, false, []⟩ :=
  delivered_of_not_armed (by simp)

/-- The level an entry read samples at its own pin is the outside level (R150 corner (b)). -/
theorem pinLevel_inputStart_self (p : Pin) (u : Pull) (r : Request) (s : State) :
    (inputStart p u r s).pinLevel p = s.extLevel p := by simp [State.pinLevel]

theorem pinLevel_inputStart_of_ne {p q : Pin} (h : q ≠ p) (u : Pull) (r : Request) (s : State) :
    (inputStart p u r s).pinLevel q = s.pinLevel q := by simp [State.pinLevel, h]

/-- The entry read says what it does, once. -/
theorem gpioRead_inputStart (p : Pin) (u : Pull) (r : Request) (s : State) :
    EntryReads p u r s (gpioRead (portOf p) (inputStart p u r s)).2 := by
  have h := gpioRead_readsPort (portOf p) (inputStart p u r s)
  have hreg : ∀ ty q, ty ≠ .gpinten → (gpioRead (portOf p) (inputStart p u r s)).2.regBit ty q =
      if ty = .intf ∧ portOf q = portOf p then false
      else if ty = .gpio ∧ portOf q = portOf p then (inputStart p u r s).pinLevel q
      else (inputStart p u r s).regBit ty q := by
    intro ty q hty
    rw [State.regBit, h.reg ty _ hty]
    split
    · simp
    · split
      · rename_i hq; rw [bitAt_sample, ← hq.2, pinOf_portOf_bitOf]
      · rfl
  constructor
  · rw [h.pin, if_pos rfl, delivered_inputStart_self]; simp
  · intro q hq; rw [h.pin, delivered_inputStart hq]; simp [hq]
  · rw [h.gpinten, if_pos rfl, delivered_inputStart_self]
  · intro q hq; rw [h.gpinten, delivered_inputStart hq]; simp [hq]
  · intro q
    rw [hreg _ _ (by decide)]
    by_cases hq : portOf q = portOf p
    · simp [hq]
    · have : q ≠ p := fun e => hq (e ▸ rfl)
      simp [hq, this]
  · intro q
    rw [hreg _ _ (by decide)]
    by_cases hp : q = p
    · subst hp; simp [pinLevel_inputStart_self]
    · by_cases hq : portOf q = portOf p <;> simp [hp, hq, pinLevel_inputStart_of_ne]
  · intro q; rw [hreg _ _ (by decide)]; simp
  · intro q; rw [hreg _ _ (by decide)]; simp
  · intro ty q h1 h2 h3 h4 h5; rw [hreg _ _ h1]; simp [h1, h2, h3, h4, h5]
  · rw [h.out, inputStart_out]
    congr 1
    rw [deliveredResults_none]
    unfold deliveredResults
    congr 1
    funext n
    split
    · rename_i hn
      have hn : pinOf (portOf p) n = p := by simpa using hn
      rw [hn, delivered_inputStart_self]
    · rename_i hn
      rw [delivered_inputStart (fun e => hn (by rw [e]))]
  · rw [h.cfg]; simp
  · rw [h.iocon]; simp
  · rw [h.ext]; simp
  · rw [h.inbox]; simp
  · rw [h.ret]; simp
  · exact h.outputs

/-- The bit of its own pin in the byte an entry read returns. -/
theorem gpioRead_inputStart_bit (p : Pin) (u : Pull) (r : Request) (s : State) :
    bitAt (gpioRead (portOf p) (inputStart p u r s)).1 (bitOf p) = s.extLevel p := by
  rw [gpioRead_fst, bitAt_sample, pinOf_portOf_bitOf, pinLevel_inputStart_self]

/-! ## Assign, request by request, over the states above -/

theorem assign_inNone (p : Pin) (u : Pull) (s : State) :
    assign p (.inNone u) s = finish p none (inputStart p u (.inNone u) s) := rfl

theorem assign_inRead (p : Pin) (u : Pull) (s : State) :
    assign p (.inRead u) s =
      finish p (some (s.extLevel p)) (gpioRead (portOf p) (inputStart p u (.inRead u) s)).2 := by
  rw [← gpioRead_inputStart_bit p u (.inRead u) s]; rfl

theorem assign_waitState (p : Pin) (u : Pull) (t : Level) (s : State) :
    assign p (.waitState u t) s =
      if s.extLevel p = t then finish p (some t) (gpioRead (portOf p) (inputStart p u (.waitState u t) s)).2
      else arm p (s.extLevel p) (gpioRead (portOf p) (inputStart p u (.waitState u t) s)).2 := by
  rw [← gpioRead_inputStart_bit p u (.waitState u t) s]
  simp only [assign_eq, entry, entryWaitState, beq_iff_eq]; rfl

theorem assign_waitAny (p : Pin) (u : Pull) (s : State) :
    assign p (.waitAny u) s = arm p (s.extLevel p) (inputStart p u (.waitAny u) s) := by
  rw [← inputStart_extLevel p u (.waitAny u) s]; rfl

theorem assign_waitSpec (p : Pin) (u : Pull) (t : Level) (s : State) :
    assign p (.waitSpec u t) s =
      let e := (gpioRead (portOf p) (inputStart p u (.waitSpec u t) s)).2
      arm p (s.extLevel p)
        (e.setPin p { e.pin p with ews := ⟨s.extLevel p, if s.extLevel p = t then 2 else 1⟩ }) := by
  have h : ∀ v : Level, (if v != t then (1 : Fin 3) else 2) = if v = t then 2 else 1 := by
    intro v; cases v <;> cases t <;> rfl
  rw [← gpioRead_inputStart_bit p u (.waitSpec u t) s]
  simp only [assign_eq, entry, entryWaitSpec, h]; rfl

theorem assign_watch (p : Pin) (u : Pull) (s : State) :
    assign p (.watch u) s = arm p (s.extLevel p)
      ((gpioRead (portOf p) (inputStart p u (.watch u) s)).2.append (.emit p (s.extLevel p))) := by
  rw [← gpioRead_inputStart_bit p u (.watch u) s]; rfl

/-- Everything `Assign(p, Output(l))` does (R148). -/
theorem assign_output (p : Pin) (l : Level) (s : State) : let t := assign p (.output l) s
    (∀ q, t.pin q = if q = p then
      { s.pin p with dir := .output, drv := l, req := some (.output l), st := .done none, ews := ⟨false, 0⟩ }
      else s.pin q) ∧
    (∀ ty q, t.regBit ty q = if q = p then
        (if ty = .iodir then s.cfg.iodirOut else if ty = .olat then l
         else if ty = .gpinten ∨ ty = .intf then false else s.regBit ty p)
      else s.regBit ty q) ∧
    t.out = s.out ++ [.done p none] ∧ keepsOutside s t ∧ t.ret = s.ret ∧ outputsFollow t := by
  refine ⟨?_, ?_, ?_, ⟨?_, ?_, ?_, ?_⟩, ?_, ?_⟩
  · intro q; by_cases h : q = p <;> simp [assign_eq, entry, entryOutput, h]
  · intro ty q
    by_cases h : q = p
    · subst h; cases ty <;> simp [assign_eq, entry, entryOutput]
    · simp [assign_eq, entry, entryOutput, h]
  · simp [assign_eq, entry, entryOutput]
  · simp [assign_eq, entry, entryOutput]
  · simp [assign_eq, entry, entryOutput, setRegBit_iocon]
  · simp [assign_eq, entry, entryOutput]
  · simp [assign_eq, entry, entryOutput]
  · simp [assign_eq, entry, entryOutput]
  · refine outputsFollow_of (assignStart_outputsFollow p (.output l) s) ?_ ?_ ?_ ?_
    · simp [assign_eq, entry, entryOutput]
    · simp [assign_eq, entry, entryOutput]
    · simp [assign_eq, entry, entryOutput, setRegBit_iocon]
    · intro x
      simp [assign_eq, entry, entryOutput, setRegBit_reg_of_ne _ (show RegType.intf ≠ .iodir by decide),
        setRegBit_reg_of_ne _ (show RegType.intf ≠ .olat by decide)]

end Sys2Proof.Machine
end

