-- ==== Sys2Proof/Laws/Encoding.lean ====
section
/-! SUPPORT. The fields of the encoder's words, and the address map read back. -/

namespace Sys2Proof

@[simp] theorem Port.ofBit_toBit (x : Port) : Port.ofBit x.toBit = x := by cases x <;> rfl

@[simp] theorem Port.toBit_ofBit (b : Bool) : (Port.ofBit b).toBit = b := by cases b <;> rfl

@[simp] theorem regOfAddr_addrOf (t : RegType) (x : Port) : regOfAddr (addrOf t x) = some t := by
  cases t <;> cases x <;> decide

@[simp] theorem portOfAddr_addrOf (t : RegType) (x : Port) : portOfAddr (addrOf t x) = x := by
  cases t <;> cases x <;> decide

/-- The 22 defined addresses are exactly those below 0x16 (R61, R62). -/
theorem regOfAddr_eq_none_iff (a : Byte) : regOfAddr a = none ↔ 0x16 ≤ a.toNat := by
  revert a; decide

/-- A defined address is the address of the register it decodes to (R61). -/
theorem addrOf_regOfAddr {a : Byte} {t : RegType} (h : regOfAddr a = some t) : addrOf t (portOfAddr a) = a := by
  revert a; cases t <;> decide

section fieldsA
variable (c : BitVec 4) (a v : Byte)

@[simp] theorem classField_formatA : classField (formatA c a v) = c := by
  unfold classField formatA; ext i hi
  simp only [BitVec.getElem_extractLsb', BitVec.getLsbD_append]
  simp [show ¬(16 + i < 8) by omega, show ¬(16 + i - 8 < 8) by omega, show 16 + i - 8 - 8 = i by omega, hi]
@[simp] theorem addrField_formatA : addrField (formatA c a v) = a := by
  unfold addrField formatA; ext i hi
  simp only [BitVec.getElem_extractLsb', BitVec.getLsbD_append]
  simp [hi]
@[simp] theorem dataField_formatA : dataField (formatA c a v) = v := by
  unfold dataField formatA; ext i hi
  simp only [BitVec.getElem_extractLsb', BitVec.getLsbD_append]
  simp [hi]

end fieldsA

section fieldsQ
variable (p : Pin) (k : BitVec 3) (t u : Bool)

/-- The fields of a REQ word (R83), for each of its 512 operands. -/
theorem fields_formatQ : classField (formatQ p k t u) = 2 ∧ pinField (formatQ p k t u) = p ∧
    kindField (formatQ p k t u) = k ∧ bit8Field (formatQ p k t u) = t ∧ pullField (formatQ p k t u) = u := by
  revert p k t u; decide

/-- The fields of a PIN or POLL word (R84). -/
theorem fields_formatP (c : BitVec 4) : classField (formatP c p t) = c ∧ pinField (formatP c p t) = p ∧
    bit8Field (formatP c p t) = t := by
  revert c p t; decide

/-- The fields of an SVC word (R85). -/
theorem fields_formatS (c : BitVec 4) : classField (formatS c t) = c ∧ bit8Field (formatS c t) = t := by
  revert c t; decide

end fieldsQ

end Sys2Proof
end

