-- ==== Sys2Proof/Laws/Events.lean ====
section
/-! SUPPORT. What every assignment keeps, and what the PIN, POLL, SVC and RESET events and the register
primitives do. -/

namespace Sys2Proof.Machine

/-! ## Assign, whatever the request -/

/-- What any event part that acts on the pins of port `x` alone keeps. -/
structure StaysOn (x : Port) (s t : State) : Prop where
  pin : ∀ q, portOf q ≠ x → t.pin q = s.pin q
  regBit : ∀ ty q, portOf q ≠ x → t.regBit ty q = s.regBit ty q
  fixed : ∀ ty q, ty = .ipol ∨ ty = .defval ∨ ty = .intcon ∨ ty = .intcap → t.regBit ty q = s.regBit ty q
  out : ∃ rs, t.out = s.out ++ rs
  cfg : t.cfg = s.cfg
  iocon : t.iocon = s.iocon
  ext : t.ext = s.ext
  inbox : t.inbox = s.inbox
  ret : t.ret = s.ret

theorem StaysOn.refl (x : Port) (s : State) : StaysOn x s s :=
  ⟨fun _ _ => rfl, fun _ _ _ => rfl, fun _ _ _ => rfl, ⟨[], by simp⟩, rfl, rfl, rfl, rfl, rfl⟩

theorem StaysOn.trans {x : Port} {s t r : State} (h : StaysOn x s t) (k : StaysOn x t r) : StaysOn x s r where
  pin q hq := (k.pin q hq).trans (h.pin q hq)
  regBit ty q hq := (k.regBit ty q hq).trans (h.regBit ty q hq)
  fixed ty q hq := (k.fixed ty q hq).trans (h.fixed ty q hq)
  out := by
    obtain ⟨a, ha⟩ := h.out
    obtain ⟨b, hb⟩ := k.out
    exact ⟨a ++ b, by rw [hb, ha, List.append_assoc]⟩
  cfg := k.cfg.trans h.cfg
  iocon := k.iocon.trans h.iocon
  ext := k.ext.trans h.ext
  inbox := k.inbox.trans h.inbox
  ret := k.ret.trans h.ret

theorem ReadsPort.staysOn {x : Port} {s t : State} (h : ReadsPort x s t) : StaysOn x s t where
  pin q hq := by rw [h.pin, if_neg hq]
  regBit ty q hq := by
    by_cases hg : ty = .gpinten
    · rw [hg, h.gpinten, if_neg hq]
    · exact regBit_of_reg_eq (by rw [h.reg _ _ hg]; simp [hq])
  fixed ty q hf := regBit_of_reg_eq (by
    rw [h.reg _ _ (by rintro rfl; simp at hf)]
    rcases hf with rfl | rfl | rfl | rfl <;> simp)
  out := ⟨_, h.out⟩
  cfg := h.cfg
  iocon := h.iocon
  ext := h.ext
  inbox := h.inbox
  ret := h.ret

theorem gpioRead_staysOn (x : Port) (s : State) : StaysOn x s (gpioRead x s).2 := (gpioRead_readsPort x s).staysOn

theorem EntryReads.staysOn {p : Pin} {u : Pull} {r : Request} {s t : State} (h : EntryReads p u r s t) :
    StaysOn (portOf p) s t where
  pin q hq := by
    have : q ≠ p := fun e => hq (e ▸ rfl)
    rw [h.pin q this, if_neg hq]
  regBit ty q hq := by
    have hp : q ≠ p := fun e => hq (e ▸ rfl)
    cases ty <;> first
      | simp [h.gpinten q hp, hq] | simp [h.intf, hq] | simp [h.gpio, hq, hp] | simp [h.iodir, hp]
      | simp [h.gppu, hp] | exact h.other _ q (by decide) (by decide) (by decide) (by decide) (by decide)
  fixed ty q hf := by
    rcases hf with rfl | rfl | rfl | rfl <;>
      exact h.other _ q (by decide) (by decide) (by decide) (by decide) (by decide)
  out := ⟨_, h.out⟩
  cfg := h.cfg
  iocon := h.iocon
  ext := h.ext
  inbox := h.inbox
  ret := h.ret

theorem arm_staysOn (p : Pin) (l : Level) (s : State) : StaysOn (portOf p) s (arm p l s) where
  pin q hq := by
    have hp : q ≠ p := fun e => hq (e ▸ rfl)
    simp [hp]
  regBit ty q hq := by
    have hp : q ≠ p := fun e => hq (e ▸ rfl)
    simp [hp]
  fixed ty q hf := by rcases hf with rfl | rfl | rfl | rfl <;> simp
  out := ⟨[], by simp⟩
  cfg := by simp
  iocon := by simp
  ext := by simp
  inbox := by simp
  ret := by simp

theorem finish_staysOn (p : Pin) (r : Option Level) (s : State) : StaysOn (portOf p) s (finish p r s) where
  pin q hq := by
    have hp : q ≠ p := fun e => hq (e ▸ rfl)
    simp [hp]
  regBit ty q _ := by simp
  fixed ty q _ := by simp
  out := ⟨_, finish_out p r s⟩
  cfg := by simp
  iocon := by simp
  ext := by simp
  inbox := by simp
  ret := by simp

theorem setPin_staysOn (p : Pin) (x : PinState) (s : State) : StaysOn (portOf p) s (s.setPin p x) where
  pin q hq := by
    have hp : q ≠ p := fun e => hq (e ▸ rfl)
    simp [hp]
  regBit ty q _ := by simp
  fixed ty q _ := by simp
  out := ⟨[], by simp⟩
  cfg := by simp
  iocon := by simp
  ext := by simp
  inbox := by simp
  ret := by simp

theorem append_staysOn (x : Port) (e : ResultEvent) (s : State) : StaysOn x s (s.append e) :=
  ⟨fun _ _ => rfl, fun _ _ _ => by simp, fun _ _ _ => by simp, ⟨[e], rfl⟩, rfl, rfl, rfl, rfl, rfl⟩

theorem setRegBit_staysOn (s : State) {ty : RegType}
    (h : ty ≠ .iocon ∧ ty ≠ .ipol ∧ ty ≠ .defval ∧ ty ≠ .intcon ∧ ty ≠ .intcap) (p : Pin) (v : Level) :
    StaysOn (portOf p) s (s.setRegBit ty p v) where
  pin q _ := by simp
  regBit u q hq := by
    have hp : q ≠ p := fun e => hq (e ▸ rfl)
    rw [setRegBit_regBit s h.1, if_neg (by simp [hp])]
  fixed u q hf := by
    rw [setRegBit_regBit s h.1, if_neg]
    rintro ⟨rfl, -⟩
    rcases hf with rfl | rfl | rfl | rfl <;> simp at h
  out := ⟨[], by simp⟩
  cfg := by simp
  iocon := setRegBit_iocon s h.1 p v
  ext := by simp
  inbox := by simp
  ret := by simp

theorem inputStart_staysOn (p : Pin) (u : Pull) (r : Request) (s : State) :
    StaysOn (portOf p) s (inputStart p u r s) where
  pin q hq := by
    have hp : q ≠ p := fun e => hq (e ▸ rfl)
    simp [hp]
  regBit ty q hq := by
    have hp : q ≠ p := fun e => hq (e ▸ rfl)
    simp [hp]
  fixed ty q hf := by rcases hf with rfl | rfl | rfl | rfl <;> simp
  out := ⟨[], by simp⟩
  cfg := by simp
  iocon := by simp
  ext := by simp
  inbox := by simp
  ret := by simp

theorem entryRead_staysOn (p : Pin) (u : Pull) (r : Request) (s : State) :
    StaysOn (portOf p) s (gpioRead (portOf p) (inputStart p u r s)).2 := (gpioRead_inputStart p u r s).staysOn

/-- An assignment acts on its own port, in whatever request. -/
theorem assign_staysOn (p : Pin) (r : Request) (s : State) : StaysOn (portOf p) s (assign p r s) := by
  match r with
  | .output l =>
    obtain ⟨h1, h2, h3, ⟨h4, h5, h6, h7⟩, h8, -⟩ := assign_output p l s
    refine ⟨?_, ?_, ?_, ⟨_, h3⟩, h4, h5, h6, h7, h8⟩
    · intro q hq
      have hp : q ≠ p := fun e => hq (e ▸ rfl)
      rw [h1, if_neg hp]
    · intro ty q hq
      have hp : q ≠ p := fun e => hq (e ▸ rfl)
      rw [h2, if_neg hp]
    · intro ty q hf
      rw [h2]
      split
      · rename_i hq; subst hq; rcases hf with rfl | rfl | rfl | rfl <;> simp
      · rfl
  | .inNone u => exact (inputStart_staysOn p u _ s).trans (finish_staysOn p none _)
  | .inRead u => rw [assign_inRead]; exact (entryRead_staysOn p u _ s).trans (finish_staysOn p _ _)
  | .waitState u t =>
    rw [assign_waitState]
    split
    · exact (entryRead_staysOn p u _ s).trans (finish_staysOn p _ _)
    · exact (entryRead_staysOn p u _ s).trans (arm_staysOn p _ _)
  | .waitAny u => rw [assign_waitAny]; exact (inputStart_staysOn p u _ s).trans (arm_staysOn p _ _)
  | .waitSpec u t =>
    rw [assign_waitSpec]
    exact (entryRead_staysOn p u _ s).trans ((setPin_staysOn p _ _).trans (arm_staysOn p _ _))
  | .watch u =>
    rw [assign_watch]
    exact (entryRead_staysOn p u _ s).trans ((append_staysOn _ _ _).trans (arm_staysOn p _ _))

/-- The interrupt outputs follow after every assignment. -/
theorem assign_outputsFollow (p : Pin) (r : Request) (s : State) : outputsFollow (assign p r s) := by
  match r with
  | .output l => exact (assign_output p l s).2.2.2.2.2
  | .inNone u => exact finish_outputsFollow p none (inputStart_outputsFollow p u _ s)
  | .inRead u => rw [assign_inRead]; exact finish_outputsFollow p _ (gpioRead_inputStart p u _ s).outputs
  | .waitState u t =>
    rw [assign_waitState]
    split
    · exact finish_outputsFollow p _ (gpioRead_inputStart p u _ s).outputs
    · exact arm_outputsFollow p _ (gpioRead_inputStart p u _ s).outputs
  | .waitAny u => rw [assign_waitAny]; exact arm_outputsFollow p _ (inputStart_outputsFollow p u _ s)
  | .waitSpec u t =>
    rw [assign_waitSpec]
    exact arm_outputsFollow p _ (outputsFollow_of (gpioRead_inputStart p u (.waitSpec u t) s).outputs (by simp) (by simp) (by simp) (by simp))
  | .watch u =>
    rw [assign_watch]
    exact arm_outputsFollow p _ (outputsFollow_of (gpioRead_inputStart p u (.watch u) s).outputs (by simp) (by simp) (by simp) (by simp))

/-! ## The translator -/

/-- One pass of a translator write either leaves the state, stores one bit of an unarmed register, or
assigns a request to the pin. -/
theorem writeIodirPin_cases (p : Pin) (d old : Level) (s : State) :
    (d = old ∧ writeIodirPin p d old s = s) ∨
    (d ≠ old ∧ d = s.cfg.iodirOut ∧ writeIodirPin p d old s = assign p (.output (s.regBit .olat p)) s) ∨
    (d ≠ old ∧ d ≠ s.cfg.iodirOut ∧ writeIodirPin p d old s = assign p (.inNone (s.regBit .gppu p)) s) := by
  unfold writeIodirPin
  by_cases h : d = old
  · simp [h]
  · by_cases h' : d = s.cfg.iodirOut
    · exact .inr (.inl ⟨h, h', by simp [← h', h]⟩)
    · exact .inr (.inr ⟨h, h', by simp [h, h']⟩)

theorem writeOlatPin_cases (p : Pin) (d old : Level) (s : State) :
    (d = old ∧ writeOlatPin p d old s = s) ∨
    (d ≠ old ∧ s.iodirIsOut p = true ∧ writeOlatPin p d old s = assign p (.output d) s) ∨
    (d ≠ old ∧ s.iodirIsOut p = false ∧ writeOlatPin p d old s = s.setRegBit .olat p d) := by
  unfold writeOlatPin
  by_cases h : d = old
  · simp [h]
  · by_cases h' : s.iodirIsOut p = true <;> simp [h, h']

theorem writeGppuPin_cases (p : Pin) (d old : Level) (s : State) :
    (d = old ∧ writeGppuPin p d old s = s) ∨
    (d ≠ old ∧ s.iodirIsOut p = true ∧ writeGppuPin p d old s = s.setRegBit .gppu p d) ∨
    (d ≠ old ∧ s.iodirIsOut p = false ∧ s.regBit .gpinten p = true ∧
      writeGppuPin p d old s = assign p (.watch d) s) ∨
    (d ≠ old ∧ s.iodirIsOut p = false ∧ s.regBit .gpinten p = false ∧
      writeGppuPin p d old s = assign p (.inNone d) s) := by
  unfold writeGppuPin
  by_cases h : d = old
  · simp [h]
  · by_cases h' : s.iodirIsOut p = true
    · simp [h, h']
    · by_cases h'' : s.regBit .gpinten p = true <;> simp [h, h', h'']

theorem writeGpintenPin_cases (p : Pin) (d old : Level) (s : State) :
    let e := if s.iodirIsOut p then false else d
    (e = old ∧ writeGpintenPin p d old s = s) ∨
    (e = true ∧ old = false ∧ writeGpintenPin p d old s = assign p (.watch (s.regBit .gppu p)) s) ∨
    (e = false ∧ old = true ∧ writeGpintenPin p d old s = assign p (.inNone (s.regBit .gppu p)) s) := by
  unfold writeGpintenPin
  generalize (if s.iodirIsOut p then false else d) = e
  cases e <;> cases old <;> simp

/-- A loop whose every pass acts on its own port acts on that port. -/
theorem translate_staysOn (f : Pin → Level → Level → State → State) (x : Port) (data old : Byte)
    (hf : ∀ n d o s, StaysOn x s (f (pinOf x n) d o s)) (s : State) : StaysOn x s (translate f x data old s) :=
  forBits_induct (P := StaysOn x s) (fun _ _ h => h.trans (hf _ _ _ _)) (StaysOn.refl x s)

theorem writeIodir_staysOn (x : Port) (data : Byte) (s : State) : StaysOn x s (writeIodir x data s) := by
  refine translate_staysOn _ x data _ (fun n d o s => ?_) s
  have a := fun r => assign_staysOn (pinOf x n) r s
  rw [portOf_pinOf] at a
  rcases writeIodirPin_cases (pinOf x n) d o s with ⟨-, h⟩ | ⟨-, -, h⟩ | ⟨-, -, h⟩ <;> rw [h]
  · exact .refl x s
  · exact a _
  · exact a _

theorem writeOlat_staysOn (x : Port) (data : Byte) (s : State) : StaysOn x s (writeOlat x data s) := by
  refine translate_staysOn _ x data _ (fun n d o s => ?_) s
  have a := fun r => assign_staysOn (pinOf x n) r s
  have b := setRegBit_staysOn s (show _ from ⟨by decide, by decide, by decide, by decide, by decide⟩ :
    RegType.olat ≠ .iocon ∧ _ ∧ _ ∧ _ ∧ _) (pinOf x n) d
  rw [portOf_pinOf] at a b
  rcases writeOlatPin_cases (pinOf x n) d o s with ⟨-, h⟩ | ⟨-, -, h⟩ | ⟨-, -, h⟩ <;> rw [h]
  · exact .refl x s
  · exact a _
  · exact b

theorem writeGppu_staysOn (x : Port) (data : Byte) (s : State) : StaysOn x s (writeGppu x data s) := by
  refine translate_staysOn _ x data _ (fun n d o s => ?_) s
  have a := fun r => assign_staysOn (pinOf x n) r s
  have b := setRegBit_staysOn s (show _ from ⟨by decide, by decide, by decide, by decide, by decide⟩ :
    RegType.gppu ≠ .iocon ∧ _ ∧ _ ∧ _ ∧ _) (pinOf x n) d
  rw [portOf_pinOf] at a b
  rcases writeGppuPin_cases (pinOf x n) d o s with ⟨-, h⟩ | ⟨-, -, h⟩ | ⟨-, -, -, h⟩ | ⟨-, -, -, h⟩ <;> rw [h]
  · exact .refl x s
  · exact b
  · exact a _
  · exact a _

theorem writeGpinten_staysOn (x : Port) (data : Byte) (s : State) : StaysOn x s (writeGpinten x data s) := by
  refine translate_staysOn _ x data _ (fun n d o s => ?_) s
  have a := fun r => assign_staysOn (pinOf x n) r s
  rw [portOf_pinOf] at a
  rcases writeGpintenPin_cases (pinOf x n) d o s with ⟨-, h⟩ | ⟨-, -, h⟩ | ⟨-, -, h⟩ <;> rw [h]
  · exact .refl x s
  · exact a _
  · exact a _

/-! ## PIN, POLL, SVC, RESET -/

/-- The conditions of R171 decide the two outcomes of PIN. -/
theorem pinEvent_cases (p : Pin) (b : Level) (s : State) :
    ((b ≠ s.extLevel p ∧ s.source p = .nativeInterrupt ∧ (s.pin p).dir = .input ∧ s.regBit .gpinten p = true) ∧
      pinEvent p b s = raiseFlag p (s.setExt p b)) ∨
    (¬(b ≠ s.extLevel p ∧ s.source p = .nativeInterrupt ∧ (s.pin p).dir = .input ∧ s.regBit .gpinten p = true) ∧
      pinEvent p b s = s.setExt p b) := by
  unfold pinEvent
  by_cases h : (b ≠ s.extLevel p ∧ s.source p = .nativeInterrupt ∧ (s.pin p).dir = .input ∧
      s.regBit .gpinten p = true)
  · exact .inl ⟨h, by simp [sourceEnabled, h]⟩
  · refine .inr ⟨h, ?_⟩
    rw [if_neg]
    simpa [sourceEnabled, and_assoc] using h

/-- The conditions of R173 decide the three outcomes of POLL. -/
theorem pollEvent_cases (p : Pin) (s : State) :
    let polled := s.source p = .pollEvery ∧ (s.pin p).dir = .input ∧ s.regBit .gpinten p = true
    (¬polled ∧ pollEvent p s = s) ∨
    (polled ∧ s.extLevel p = (s.pin p).ref ∧
      pollEvent p s = s.setPin p { s.pin p with ref := s.extLevel p }) ∨
    (polled ∧ s.extLevel p ≠ (s.pin p).ref ∧
      pollEvent p s = (raiseFlag p s).setPin p { s.pin p with ref := s.extLevel p }) := by
  intro polled
  unfold pollEvent
  by_cases h : s.source p = .pollEvery ∧ (s.pin p).dir = .input ∧ s.regBit .gpinten p = true
  · by_cases hr : s.extLevel p = (s.pin p).ref
    · exact .inr (.inl ⟨h, hr, by simp [sourceEnabled, h, hr]⟩)
    · exact .inr (.inr ⟨h, hr, by simp [sourceEnabled, h, hr]⟩)
  · refine .inl ⟨h, ?_⟩
    rw [if_neg]
    simpa [sourceEnabled, and_assoc] using h

theorem serviceEvent_cases (x : Port) (s : State) :
    (s.reg .intf x = 0x00 ∧ serviceEvent x s = s) ∨
    (s.reg .intf x ≠ 0x00 ∧ serviceEvent x s = (gpioRead x s).2) := by
  unfold serviceEvent
  by_cases h : s.reg .intf x = 0x00
  · exact .inl ⟨h, by simp [h]⟩
  · exact .inr ⟨h, if_pos (by simpa using h)⟩

@[simp] theorem resetPort_reg (x : Port) (s : State) (ty : RegType) (y : Port) :
    (resetPort x s).reg ty y =
      if ty ≠ .iocon ∧ y = x then (if ty = .iodir then s.cfg.iodirAllIn else 0x00) else s.reg ty y := by
  cases ty <;> simp [resetPort, Config.rvDefval, Config.rvOlat, Config.rvIntcap, Config.rvGpio]
@[simp] theorem resetPort_cfg (x : Port) (s : State) : (resetPort x s).cfg = s.cfg := by simp [resetPort]
@[simp] theorem resetPort_iocon (x : Port) (s : State) : (resetPort x s).iocon = s.iocon := by simp [resetPort]
@[simp] theorem resetPort_pin (x : Port) (s : State) (q : Pin) : (resetPort x s).pin q = s.pin q := by simp [resetPort]
@[simp] theorem resetPort_ext (x : Port) (s : State) : (resetPort x s).ext = s.ext := by simp [resetPort]
@[simp] theorem resetPort_out (x : Port) (s : State) : (resetPort x s).out = s.out := by simp [resetPort]
@[simp] theorem resetPort_inbox (x : Port) (s : State) : (resetPort x s).inbox = s.inbox := by simp [resetPort]
@[simp] theorem resetPort_ret (x : Port) (s : State) : (resetPort x s).ret = s.ret := by simp [resetPort]

@[simp] theorem resetPin_pin (p : Pin) (s : State) (q : Pin) :
    (resetPin p s).pin q = if q = p then PinState.reset else s.pin q := by simp [resetPin, PinState.reset]
@[simp] theorem resetPin_regBit (p : Pin) (s : State) (ty : RegType) (q : Pin) :
    (resetPin p s).regBit ty q = if (ty = .gpinten ∨ ty = .intf) ∧ q = p then false else s.regBit ty q := by
  simp only [resetPin, setPin_regBit, setRegBit_intf_regBit, setRegBit_gpinten_regBit]
  by_cases h1 : ty = .intf <;> by_cases h2 : ty = .gpinten <;> by_cases h3 : q = p <;> simp_all
@[simp] theorem resetPin_cfg (p : Pin) (s : State) : (resetPin p s).cfg = s.cfg := by simp [resetPin]
@[simp] theorem resetPin_iocon (p : Pin) (s : State) : (resetPin p s).iocon = s.iocon := by simp [resetPin, setRegBit_iocon]
@[simp] theorem resetPin_ext (p : Pin) (s : State) : (resetPin p s).ext = s.ext := by simp [resetPin]
@[simp] theorem resetPin_out (p : Pin) (s : State) : (resetPin p s).out = s.out := by simp [resetPin]
@[simp] theorem resetPin_inbox (p : Pin) (s : State) : (resetPin p s).inbox = s.inbox := by simp [resetPin]
@[simp] theorem resetPin_ret (p : Pin) (s : State) : (resetPin p s).ret = s.ret := by simp [resetPin]

/-- A projection that every pass keeps is kept by the loop over the pins. -/
theorem forPins_keeps {α : Type} (g : State → α) {f : Pin → State → State}
    (hf : ∀ p s, g (f p s) = g s) (s : State) : g (forPins f s) = g s := by
  unfold forPins
  rw [forBits_keeps g (fun n s => hf _ s), forBits_keeps g (fun n s => hf _ s)]

/-- The loop of RESET makes every pin record the reset record. -/
theorem forPins_resetPin_pin (s : State) (q : Pin) : (forPins resetPin s).pin q = PinState.reset := by
  have h := fun (y : Port) (n : BitIdx) => @forBits_at _ (fun t => t.pin (pinOf y n))
    (fun m => resetPin (pinOf y m)) n (fun _ => PinState.reset) (fun _ => True) (fun _ _ _ => trivial)
    (fun _ _ => by simp) (fun m _ hm _ => by simp [pinOf_inj, Ne.symm hm])
  have k := fun (y z : Port) (n : BitIdx) (hy : y ≠ z) (t : State) =>
    forBits_keeps (fun t => t.pin (pinOf y n)) (f := fun m => resetPin (pinOf z m))
      (fun m _ => by simp [pinOf_inj, hy]) t
  rw [← pinOf_portOf_bitOf q]
  unfold forPins
  cases portOf q
  · rw [k .a .b _ (by decide)]; exact h .a _ trivial
  · exact h .b _ trivial

end Sys2Proof.Machine
end

