-- ==== Sys2Proof/Laws/PerInstr.lean ====
section
/-! SUPPORT. The family CanonicalWord, one lemma per instruction: the encoder writes 0 in every ignored
bit of the word (R90). -/

namespace Sys2Proof.Laws

/-- The word of an operation has no bit set but those that take part in decoding. -/
def CanonicalWord.Statement (i : Instr) : Prop := encode i &&& usedBits (encode i) = encode i

/-- A word of class 1 has no ignored bit. -/
theorem canonicalWord_formatA_one (a v : Byte) :
    formatA 1 a v &&& usedBits (formatA 1 a v) = formatA 1 a v := by
  have h : usedBits (formatA 1 a v) = BitVec.allOnes 20 := by simp [usedBits]
  rw [h, BitVec.and_allOnes]

theorem CanonicalWord.rdIodir (x : Port) : CanonicalWord.Statement (.rdIodir x) := by
  unfold CanonicalWord.Statement; cases x <;> decide
theorem CanonicalWord.rdIpol (x : Port) : CanonicalWord.Statement (.rdIpol x) := by
  unfold CanonicalWord.Statement; cases x <;> decide
theorem CanonicalWord.rdGpinten (x : Port) : CanonicalWord.Statement (.rdGpinten x) := by
  unfold CanonicalWord.Statement; cases x <;> decide
theorem CanonicalWord.rdDefval (x : Port) : CanonicalWord.Statement (.rdDefval x) := by
  unfold CanonicalWord.Statement; cases x <;> decide
theorem CanonicalWord.rdIntcon (x : Port) : CanonicalWord.Statement (.rdIntcon x) := by
  unfold CanonicalWord.Statement; cases x <;> decide
theorem CanonicalWord.rdIocon (x : Port) : CanonicalWord.Statement (.rdIocon x) := by
  unfold CanonicalWord.Statement; cases x <;> decide
theorem CanonicalWord.rdGppu (x : Port) : CanonicalWord.Statement (.rdGppu x) := by
  unfold CanonicalWord.Statement; cases x <;> decide
theorem CanonicalWord.rdIntf (x : Port) : CanonicalWord.Statement (.rdIntf x) := by
  unfold CanonicalWord.Statement; cases x <;> decide
theorem CanonicalWord.rdIntcap (x : Port) : CanonicalWord.Statement (.rdIntcap x) := by
  unfold CanonicalWord.Statement; cases x <;> decide
theorem CanonicalWord.rdGpio (x : Port) : CanonicalWord.Statement (.rdGpio x) := by
  unfold CanonicalWord.Statement; cases x <;> decide
theorem CanonicalWord.rdOlat (x : Port) : CanonicalWord.Statement (.rdOlat x) := by
  unfold CanonicalWord.Statement; cases x <;> decide
theorem CanonicalWord.rdUndef (addr : Byte) : CanonicalWord.Statement (.rdUndef addr) := by
  unfold CanonicalWord.Statement; revert addr; decide
theorem CanonicalWord.wrIodir (x : Port) (data : Byte) : CanonicalWord.Statement (.wrIodir x data) :=
  canonicalWord_formatA_one _ _
theorem CanonicalWord.wrIpol (x : Port) (data : Byte) : CanonicalWord.Statement (.wrIpol x data) :=
  canonicalWord_formatA_one _ _
theorem CanonicalWord.wrGpinten (x : Port) (data : Byte) : CanonicalWord.Statement (.wrGpinten x data) :=
  canonicalWord_formatA_one _ _
theorem CanonicalWord.wrDefval (x : Port) (data : Byte) : CanonicalWord.Statement (.wrDefval x data) :=
  canonicalWord_formatA_one _ _
theorem CanonicalWord.wrIntcon (x : Port) (data : Byte) : CanonicalWord.Statement (.wrIntcon x data) :=
  canonicalWord_formatA_one _ _
theorem CanonicalWord.wrIocon (x : Port) (data : Byte) : CanonicalWord.Statement (.wrIocon x data) :=
  canonicalWord_formatA_one _ _
theorem CanonicalWord.wrGppu (x : Port) (data : Byte) : CanonicalWord.Statement (.wrGppu x data) :=
  canonicalWord_formatA_one _ _
theorem CanonicalWord.wrIntf (x : Port) (data : Byte) : CanonicalWord.Statement (.wrIntf x data) :=
  canonicalWord_formatA_one _ _
theorem CanonicalWord.wrIntcap (x : Port) (data : Byte) : CanonicalWord.Statement (.wrIntcap x data) :=
  canonicalWord_formatA_one _ _
theorem CanonicalWord.wrGpio (x : Port) (data : Byte) : CanonicalWord.Statement (.wrGpio x data) :=
  canonicalWord_formatA_one _ _
theorem CanonicalWord.wrOlat (x : Port) (data : Byte) : CanonicalWord.Statement (.wrOlat x data) :=
  canonicalWord_formatA_one _ _
theorem CanonicalWord.wrUndef (addr : Byte) (data : Byte) : CanonicalWord.Statement (.wrUndef addr data) :=
  canonicalWord_formatA_one _ _
theorem CanonicalWord.reqOut (p : Pin) (l : Level) : CanonicalWord.Statement (.reqOut p l) := by
  unfold CanonicalWord.Statement; revert p l; decide
theorem CanonicalWord.reqNone (p : Pin) (u : Pull) : CanonicalWord.Statement (.reqNone p u) := by
  unfold CanonicalWord.Statement; revert p u; decide
theorem CanonicalWord.reqRead (p : Pin) (u : Pull) : CanonicalWord.Statement (.reqRead p u) := by
  unfold CanonicalWord.Statement; revert p u; decide
theorem CanonicalWord.reqWstate (p : Pin) (t : Level) (u : Pull) : CanonicalWord.Statement (.reqWstate p t u) := by
  unfold CanonicalWord.Statement; revert p t u; decide
theorem CanonicalWord.reqWany (p : Pin) (u : Pull) : CanonicalWord.Statement (.reqWany p u) := by
  unfold CanonicalWord.Statement; revert p u; decide
theorem CanonicalWord.reqWspec (p : Pin) (t : Level) (u : Pull) : CanonicalWord.Statement (.reqWspec p t u) := by
  unfold CanonicalWord.Statement; revert p t u; decide
theorem CanonicalWord.reqWatch (p : Pin) (u : Pull) : CanonicalWord.Statement (.reqWatch p u) := by
  unfold CanonicalWord.Statement; revert p u; decide
theorem CanonicalWord.reqRsvd (p : Pin) : CanonicalWord.Statement (.reqRsvd p) := by
  unfold CanonicalWord.Statement; revert p; decide
theorem CanonicalWord.pin (p : Pin) (level : Level) : CanonicalWord.Statement (.pin p level) := by
  unfold CanonicalWord.Statement; revert p level; decide
theorem CanonicalWord.poll (p : Pin) : CanonicalWord.Statement (.poll p) := by
  unfold CanonicalWord.Statement; revert p; decide
theorem CanonicalWord.svc (x : Port) : CanonicalWord.Statement (.svc x) := by
  unfold CanonicalWord.Statement; cases x <;> decide
theorem CanonicalWord.reset : CanonicalWord.Statement (.reset) := by
  unfold CanonicalWord.Statement; decide
theorem CanonicalWord.rsvdClass (cls : BitVec 4) : CanonicalWord.Statement (.rsvdClass cls) := by
  unfold CanonicalWord.Statement; revert cls; decide

end Sys2Proof.Laws
end

