-- ==== Sys2Proof/Laws/Step.lean ====
section
/-! SUPPORT. Taking the next event, and the outside world's side of the inbox. -/

namespace Sys2Proof.Machine

@[simp] theorem fetch_nil {s : State} (h : s.inbox = []) : fetch s = none := by simp [fetch, h]

@[simp] theorem fetch_cons {s : State} {w : EventWord} {rest : List EventWord} (h : s.inbox = w :: rest) :
    fetch s = some (w, { s with inbox := rest, ret := none }) := by simp [fetch, h]

/-- Fetching only shortens the inbox and forgets the byte returned before. -/
theorem fetch_cases (s : State) :
    (s.inbox = [] ∧ fetch s = none) ∨
    ∃ w rest, s.inbox = w :: rest ∧ fetch s = some (w, { s with inbox := rest, ret := none }) := by
  cases h : s.inbox with
  | nil => exact .inl ⟨rfl, fetch_nil h⟩
  | cons w rest => exact .inr ⟨w, rest, rfl, fetch_cons h⟩

/-! ## The fetched state: everything but `inbox` and `ret` is as before -/

section fetched
variable (s : State) (rest : List EventWord) (r : Option Byte)

@[simp] theorem fetched_reg (t : RegType) (x : Port) : ({ s with inbox := rest, ret := r } : State).reg t x = s.reg t x := by
  cases t <;> cases x <;> rfl
@[simp] theorem fetched_regBit (t : RegType) (q : Pin) :
    ({ s with inbox := rest, ret := r } : State).regBit t q = s.regBit t q := by simp [State.regBit]
@[simp] theorem fetched_pin (q : Pin) : ({ s with inbox := rest, ret := r } : State).pin q = s.pin q := rfl
@[simp] theorem fetched_extLevel (q : Pin) : ({ s with inbox := rest, ret := r } : State).extLevel q = s.extLevel q := rfl
@[simp] theorem fetched_iodirIsOut (q : Pin) : ({ s with inbox := rest, ret := r } : State).iodirIsOut q = s.iodirIsOut q := by
  simp [State.iodirIsOut]

end fetched

theorem feed_inbox (s : State) (w : EventWord) : (s.feed w).inbox = s.inbox ++ [w] := rfl

theorem withFetchWord_inbox (s : State) (nbits w : Nat) (h : w < 2 ^ 20) :
    (s.withFetchWord nbits w).inbox = BitVec.ofNat 20 w :: s.inbox := by
  rw [State.withFetchWord, if_pos h]

/-- What a read event leaves of the state of its read. -/
@[simp] theorem returning_ret (r : Byte × State) : (returning r).ret = some r.1 := rfl
@[simp] theorem returning_reg (r : Byte × State) (t : RegType) (x : Port) : (returning r).reg t x = r.2.reg t x := by
  cases t <;> cases x <;> rfl
@[simp] theorem returning_regBit (r : Byte × State) (t : RegType) (q : Pin) :
    (returning r).regBit t q = r.2.regBit t q := by simp [State.regBit]
@[simp] theorem returning_pin (r : Byte × State) (q : Pin) : (returning r).pin q = r.2.pin q := rfl
@[simp] theorem returning_cfg (r : Byte × State) : (returning r).cfg = r.2.cfg := rfl
@[simp] theorem returning_iocon (r : Byte × State) : (returning r).iocon = r.2.iocon := rfl
@[simp] theorem returning_intA (r : Byte × State) : (returning r).intA = r.2.intA := rfl
@[simp] theorem returning_intB (r : Byte × State) : (returning r).intB = r.2.intB := rfl
@[simp] theorem returning_ext (r : Byte × State) : (returning r).ext = r.2.ext := rfl
@[simp] theorem returning_out (r : Byte × State) : (returning r).out = r.2.out := rfl
@[simp] theorem returning_inbox (r : Byte × State) : (returning r).inbox = r.2.inbox := rfl

end Sys2Proof.Machine
end

