-- ==== Sys2Proof/Tests/Slice0.lean ====
section
/-! SUPPORT. Tests: ill-formed terms, one word per operation written out from spec/30_encoding.md, at most
two one-step tests per operation with results taken from the examples and vectors of spec/, and for every
statement with hypotheses a state and operands that meet them. -/

namespace Sys2Proof.Tests

open Sys2Proof Sys2Proof.Machine

/-! ## Well-formedness refuses ill-formed terms -/

theorem test_rdUndef_defined_address_refused : (Instr.rdUndef 0x15).wellFormed = false := by decide
theorem test_wrUndef_defined_address_refused : (Instr.wrUndef 0x15 0xFF).wellFormed = false := by decide
theorem test_rsvdClass_used_class_refused : (Instr.rsvdClass 6).wellFormed = false := by decide
theorem test_rdUndef_boundary_accepted :
    (Instr.rdUndef 0x16).wellFormed = true ∧ (Instr.rdUndef 0xFF).wellFormed = true := by decide
theorem test_rsvdClass_boundary_accepted :
    (Instr.rsvdClass 7).wellFormed = true ∧ (Instr.rsvdClass 15).wellFormed = true := by decide

/-! ## Decoding: class, then the fields of the class (R82 to R87) -/

theorem test_decode_rdIodir : decode 0b0000_00000000_11111111 = .rdIodir .a := by decide
theorem test_decode_rdIpol : decode 0b0000_00000011_00000000 = .rdIpol .b := by decide
theorem test_decode_rdGpinten : decode 0b0000_00000100_00000000 = .rdGpinten .a := by decide
theorem test_decode_rdDefval : decode 0b0000_00000111_11111111 = .rdDefval .b := by decide
theorem test_decode_rdIntcon : decode 0b0000_00001000_00000000 = .rdIntcon .a := by decide
theorem test_decode_rdIocon : decode 0b0000_00001011_00000000 = .rdIocon .b := by decide
theorem test_decode_rdGppu : decode 0b0000_00001100_11111111 = .rdGppu .a := by decide
theorem test_decode_rdIntf : decode 0b0000_00001111_00000000 = .rdIntf .b := by decide
theorem test_decode_rdIntcap : decode 0b0000_00010000_00000000 = .rdIntcap .a := by decide
theorem test_decode_rdGpio : decode 0b0000_00010011_11111111 = .rdGpio .b := by decide
theorem test_decode_rdOlat : decode 0b0000_00010100_00000000 = .rdOlat .a := by decide
theorem test_decode_rdUndef : decode 0b0000_00010110_00000000 = .rdUndef 0x16 := by decide
theorem test_decode_wrIodir : decode 0b0001_00000001_10100101 = .wrIodir .b 0xA5 := by decide
theorem test_decode_wrIpol : decode 0b0001_00000010_11011010 = .wrIpol .a 0xDA := by decide
theorem test_decode_wrGpinten : decode 0b0001_00000101_00001111 = .wrGpinten .b 0x0F := by decide
theorem test_decode_wrDefval : decode 0b0001_00000110_01000100 = .wrDefval .a 0x44 := by decide
theorem test_decode_wrIntcon : decode 0b0001_00001001_01111001 = .wrIntcon .b 0x79 := by decide
theorem test_decode_wrIocon : decode 0b0001_00001010_10101110 = .wrIocon .a 0xAE := by decide
theorem test_decode_wrGppu : decode 0b0001_00001101_11100011 = .wrGppu .b 0xE3 := by decide
theorem test_decode_wrIntf : decode 0b0001_00001110_00011000 = .wrIntf .a 0x18 := by decide
theorem test_decode_wrIntcap : decode 0b0001_00010001_01001101 = .wrIntcap .b 0x4D := by decide
theorem test_decode_wrGpio : decode 0b0001_00010010_10000010 = .wrGpio .a 0x82 := by decide
theorem test_decode_wrOlat : decode 0b0001_00010101_10110111 = .wrOlat .b 0xB7 := by decide
theorem test_decode_wrUndef : decode 0b0001_11111111_01010101 = .wrUndef 0xFF 0x55 := by decide
theorem test_decode_reqOut : decode 0b0010_0011_000_1_0_0000000 = .reqOut 3 true := by decide
theorem test_decode_reqNone : decode 0b0010_0100_001_0_1_0000000 = .reqNone 4 true := by decide
theorem test_decode_reqRead : decode 0b0010_0110_010_0_0_0000000 = .reqRead 6 false := by decide
theorem test_decode_reqWstate : decode 0b0010_0000_011_1_0_0000000 = .reqWstate 0 true false := by decide
theorem test_decode_reqWany : decode 0b0010_0010_100_0_0_0000000 = .reqWany 2 false := by decide
theorem test_decode_reqWspec : decode 0b0010_0101_101_0_1_0000000 = .reqWspec 5 false true := by decide
theorem test_decode_reqWatch : decode 0b0010_1000_110_1_0_0000000 = .reqWatch 8 false := by decide
theorem test_decode_reqRsvd : decode 0b0010_0000_111_0_0_0000000 = .reqRsvd 0 := by decide
theorem test_decode_pin : decode 0b0011_0010_000_1_00000000 = .pin 2 true := by decide
theorem test_decode_poll : decode 0b0100_0001_000_1_00000000 = .poll 1 := by decide
theorem test_decode_svc : decode 0b0101_0000000_1_00000000 = .svc .b := by decide
theorem test_decode_reset : decode 0b0110_0000000000000001 = .reset := by decide
theorem test_decode_rsvdClass : decode 0b0111_0000000000000000 = .rsvdClass 7 := by decide

/-- The host's question: a table word is read by the decoder; a number of more than 20 bits is none. -/
theorem test_decodeTableWord :
    decodeTableWord 24 0x23100 = some (.reqOut 3 true) ∧ decodeTableWord 24 0x100000 = none := by decide

/-- `PULSE p` and `INIT` (R93), the symbolic interface (R94). -/
theorem test_pseudo : pulse 2 = [0x32100, 0x32000] ∧ init = [0x60000] ∧
    onRegisterWrite .b .defval 0xA5 = 0x107A5 ∧ onRegisterRead .a .gpio = 0x01200 := by decide

/-- The textual syntax (R92). -/
theorem test_text : (Instr.reqNone 4 true).text = some "REQ 4, NONE pull" ∧
    (Instr.rdIocon .b).text = some "RD IOCON.B" ∧ (Instr.wrUndef 0x20 0x55).text = some "WR @0x20, 0x55" ∧
    (Instr.reqRsvd 0).text = none := by decide

/-! ## Small states -/

/-- The state an event leaves. -/
def after (i : Instr) (s : State) : State :=
  match exec i s with
  | .next t => t
  | .fault _ => s
  | .refused _ => s

/-- The state after the step that takes the word of an event. -/
def stepped (i : Instr) (s : State) : State :=
  match step (s.withFetchWord 24 (encode i).toNat) with
  | .next t => t
  | .fault _ => s
  | .refused _ => s

/-- Pin `p` armed in request `r`, its outside level the reference. -/
def waiting (p : Pin) (r : Request) (s : State) : State :=
  (s.setRegBit .gpinten p true).setPin p
    { PinState.reset with req := some r, st := .processing, ref := s.extLevel p }

/-- Pin `p` flagged. -/
def flagged (p : Pin) (s : State) : State := raiseFlag p s

/-- Pin `p` polled. -/
def polled (p : Pin) (s : State) : State :=
  { s with cfg := { s.cfg with src := s.cfg.src.set p .pollEvery } }

/-- Pin 3 of port A an output at level 1, as `REQ 3, OUT 1` leaves it (R148). -/
def out3 : State := after (.reqOut 3 true) State.reset

/-- Pin 2 waiting for any edge and flagged at level 1, as `REQ 2, WANY` and `PIN 2, 1` leave it. -/
def any2 : State := flagged 2 ((waiting 2 (.waitAny false) State.reset).setExt 2 true)

/-! ## One step each: the results are the examples of the rules named -/

theorem test_reset_state : State.reset.reg .iodir .a = 0x00 ∧ State.reset.iocon = 0x00 ∧
    State.reset.intA = ⟨.pushPull, true⟩ ∧ (State.reset.pin 15).req = none := by decide

/-- R101 -/
theorem test_rdIodir : (after (.rdIodir .a) out3).ret = some 0x08 := by decide
/-- R102 -/
theorem test_rdIpol : (after (.rdIpol .a) (after (.wrIpol .a 0xFF) State.reset)).ret = some 0x00 := by decide
/-- R103 -/
theorem test_rdGpinten : (after (.rdGpinten .a) (after (.reqWstate 0 true false) State.reset)).ret = some 0x01 := by decide
/-- R104 -/
theorem test_rdDefval : (after (.rdDefval .b) (after (.wrDefval .b 0xA5) State.reset)).ret = some 0xA5 := by decide
/-- R105 -/
theorem test_rdIntcon : (after (.rdIntcon .a) (after (.wrIntcon .a 0xFF) State.reset)).ret = some 0x00 := by decide
/-- R106 -/
theorem test_rdIocon : (after (.rdIocon .b) { State.reset with iocon := 0x42 }).ret = some 0x42 := by decide
/-- R107 -/
theorem test_rdGppu : (after (.rdGppu .a) (after (.reqNone 4 true) State.reset)).ret = some 0x10 := by decide
/-- R108 -/
theorem test_rdIntf : (after (.rdIntf .a) any2).ret = some 0x04 ∧
    (after (.rdIntf .a) any2).reg .intf .a = 0x04 := by decide
/-- R109 -/
theorem test_rdIntcap : (after (.rdIntcap .a) any2).ret = some 0x00 ∧
    (after (.rdIntcap .a) any2).reg .intf .a = 0x04 := by decide
/-- R110 -/
theorem test_rdGpio : (after (.rdGpio .a) any2).ret = some 0x04 ∧ (after (.rdGpio .a) any2).reg .intf .a = 0x00 ∧
    (after (.rdGpio .a) any2).reg .gpinten .a = 0x00 ∧
    (after (.rdGpio .a) any2).out = [.done 2 (some true)] := by decide
/-- R110 corner (a): an output pin reads its driven level. -/
theorem test_rdGpio_output : (after (.rdGpio .a) out3).ret = some 0x08 := by decide
/-- R100 -/
theorem test_rdOlat : (after (.rdOlat .a) out3).ret = some 0x08 := by decide
/-- R111 -/
theorem test_rdUndef : (after (.rdUndef 0x16) any2).ret = some 0x00 := by decide
/-- R112 -/
theorem test_wrIpol : after (.wrIpol .a 0xFF) any2 = any2 := by decide
/-- R113 -/
theorem test_wrUndef : after (.wrUndef 0x20 0x55) any2 = any2 := by decide
/-- R114 -/
theorem test_wrDefval : (after (.wrDefval .a 0x3C) State.reset).reg .defval .a = 0x3C := by decide
/-- R115 -/
theorem test_wrIntcon : after (.wrIntcon .b 0x01) any2 = any2 := by decide
/-- R116 -/
theorem test_wrIocon : (after (.wrIocon .a 0xFF) State.reset).iocon = 0x00 := by decide
/-- R117 -/
theorem test_wrIntf : (after (.wrIntf .a 0x00) any2).reg .intf .a = 0x04 := by decide
/-- R118 -/
theorem test_wrIntcap : (after (.wrIntcap .a 0xFF) any2).reg .intcap .a = 0x00 := by decide
/-- R119 -/
theorem test_wrGpio : after (.wrGpio .a 0xFF) any2 = any2 := by decide
/-- R123 -/
theorem test_wrIodir : (after (.wrIodir .a 0x08) State.reset).reg .iodir .a = 0x08 ∧
    ((after (.wrIodir .a 0x08) State.reset).pin 3).dir = .output ∧
    (after (.wrIodir .a 0x08) State.reset).out = [.done 3 none] := by decide
/-- R123 corner (a): a pin that becomes an output loses its wait. -/
theorem test_wrIodir_abandons : (after (.wrIodir .a 0x04) any2).reg .gpinten .a = 0x00 ∧
    (after (.wrIodir .a 0x04) any2).out = [.done 2 none] := by decide
/-- R124 -/
theorem test_wrOlat : (after (.wrOlat .a 0x09) (after (.wrIodir .a 0x08) State.reset)).reg .olat .a = 0x09 ∧
    ((after (.wrOlat .a 0x09) (after (.wrIodir .a 0x08) State.reset)).pin 3).drv = true ∧
    ((after (.wrOlat .a 0x09) (after (.wrIodir .a 0x08) State.reset)).pin 0).req = none := by decide
/-- R125, R231: a changed pull bit turns an armed wait into a watch. -/
theorem test_wrGppu : ((after (.wrGppu .a 0x04) (waiting 2 (.waitSpec false true) State.reset)).pin 2).req =
    some (.watch true) := by decide
/-- R125: a changed pull bit of an output pin is stored alone. -/
theorem test_wrGppu_output : (after (.wrGppu .a 0x08) out3).reg .gppu .a = 0x08 ∧
    ((after (.wrGppu .a 0x08) out3).pin 3).pull = false := by decide
/-- R126: a host enables an interrupt. -/
theorem test_wrGpinten : ((after (.wrGpinten .a 0x02) State.reset).pin 1).req = some (.watch false) ∧
    (after (.wrGpinten .a 0x02) State.reset).out = [.emit 1 false] := by decide +kernel
/-- R126: an output pin cannot be armed. -/
theorem test_wrGpinten_output : after (.wrGpinten .a 0x08) out3 = out3 := by decide +kernel
/-- R148 -/
theorem test_reqOut : out3.reg .iodir .a = 0x08 ∧ out3.reg .olat .a = 0x08 ∧ (out3.pin 3).drv = true ∧
    (out3.pin 3).st = .done none ∧ out3.out = [.done 3 none] := by decide
/-- R149 -/
theorem test_reqNone : (after (.reqNone 4 true) State.reset).reg .gppu .a = 0x10 ∧
    ((after (.reqNone 4 true) State.reset).pin 4).pull = true ∧
    (after (.reqNone 4 true) State.reset).out = [.done 4 none] := by decide
/-- R150 -/
theorem test_reqRead : (after (.reqRead 6 false) (State.reset.setExt 6 true)).reg .gpio .a = 0x40 ∧
    (after (.reqRead 6 false) (State.reset.setExt 6 true)).out = [.done 6 (some true)] := by decide
/-- R151: armed at another level, done at once at the target. -/
theorem test_reqWstate : (after (.reqWstate 0 true false) State.reset).reg .gpinten .a = 0x01 ∧
    ((after (.reqWstate 0 true false) State.reset).pin 0).st = .processing ∧
    ((after (.reqWstate 0 false false) State.reset).pin 0).st = .done (some false) := by decide
/-- R152 -/
theorem test_reqWany : (after (.reqWany 2 false) State.reset).reg .gpinten .a = 0x04 ∧
    (after (.reqWany 2 false) State.reset).out = [] := by decide
/-- R153: two edges from the target, one from the other level. -/
theorem test_reqWspec : ((after (.reqWspec 5 false false) State.reset).pin 5).ews = ⟨false, 2⟩ ∧
    ((after (.reqWspec 5 true false) State.reset).pin 5).ews = ⟨false, 1⟩ ∧
    (after (.reqWspec 5 false false) State.reset).reg .gpinten .a = 0x20 := by decide
/-- R154 -/
theorem test_reqWatch : (after (.reqWatch 8 false) State.reset).reg .gpinten .b = 0x01 ∧
    (after (.reqWatch 8 false) State.reset).out = [.emit 8 false] := by decide
/-- R155 -/
theorem test_reqRsvd : after (.reqRsvd 0) any2 = any2 := by decide
/-- R171 -/
theorem test_pin : (after (.pin 2 true) (waiting 2 (.waitAny false) State.reset)).reg .intf .a = 0x04 ∧
    (after (.pin 2 true) (waiting 2 (.waitAny false) State.reset)).intA = ⟨.pushPull, false⟩ ∧
    (after (.pin 2 true) (waiting 2 (.waitAny false) State.reset)).out = [] := by decide
/-- R171 corner (d): a polled pin waits for POLL. -/
theorem test_pin_polled : (after (.pin 1 true) (polled 1 (waiting 1 (.waitAny false) State.reset))).reg .intf .a = 0x00 := by
  decide
/-- R173 -/
theorem test_poll : (after (.poll 1) ((polled 1 (waiting 1 (.waitAny false) State.reset)).setExt 1 true)).reg .intf .a = 0x02 ∧
    ((after (.poll 1) ((polled 1 (waiting 1 (.waitAny false) State.reset)).setExt 1 true)).pin 1).ref = true := by decide
/-- R175 -/
theorem test_svc : (after (.svc .a) any2).out = [.done 2 (some true)] ∧ (after (.svc .a) any2).reg .intf .a = 0x00 := by decide
/-- R220: the request is abandoned with no result. -/
theorem test_reset : (after .reset any2).reg .gpinten .a = 0x00 ∧ ((after .reset any2).pin 2).st = .idle ∧
    (after .reset any2).out = [] := by decide
/-- R88 -/
theorem test_rsvdClass : after (.rsvdClass 8) any2 = any2 := by decide
/-- R70: a step takes the oldest word and runs it. -/
theorem test_step : (stepped (.reqOut 3 true) State.reset).out = [.done 3 none] ∧
    (stepped (.reqOut 3 true) State.reset).inbox = [] := by decide

/-! ## The hypotheses of the statements can be met -/

theorem witness_DecodeEncodeRoundTrip : (Instr.wrUndef 0x16 0x55).wellFormed = true ∧
    (Instr.rdUndef 0xFF).wellFormed = true ∧ (Instr.rsvdClass 15).wellFormed = true ∧
    (Instr.reqWspec 15 true true).wellFormed = true := by decide

theorem witness_IgnoredBitsDoNotDecode :
    (0x01200 : EventWord) &&& usedBits 0x01200 = 0x012FF &&& usedBits 0x01200 := by decide

/-- Every address has a word of class 0 and one of class 1. -/
theorem witness_WordsByAddress (a : Byte) : classField (0x0#4 ++ a ++ 0x00#8) = 0x0 ∧
    classField (0x1#4 ++ a ++ 0xA5#8) = 0x1 ∧ addrField (0x0#4 ++ a ++ 0x00#8) = a ∧
    addrField (0x1#4 ++ a ++ 0xA5#8) = a := by
  revert a; decide

/-- Every kind has a word of class 2, and every class from 3 a word. -/
theorem witness_OtherWordsDecodeByClassAndKind : (∀ k : BitVec 3, classField (0x2F#8 ++ k ++ 0x080#9) = 0x2 ∧
    kindField (0x2F#8 ++ k ++ 0x080#9) = k) ∧ (∀ c : BitVec 4, classField (c ++ 0x0000#16) = c) := by decide

theorem witness_StepRunsDecodedWord : ∃ (s r : State) (rest : List EventWord),
    s.inbox = 0x50100 :: rest ∧ r.inbox = [] :=
  ⟨{ State.reset with inbox := [0x50100, 0x60000] }, State.reset, [0x60000], rfl, rfl⟩

theorem witness_FixedRegistersReadZero : classField 0x00300 = 0x0 ∧ (addrField 0x00300).extractLsb' 1 7 = 1 ∧
    classField 0x00800 = 0x0 ∧ (addrField 0x00800).extractLsb' 1 7 = 4 := by decide

theorem witness_UndefinedAddressWriteIgnored : classField 0x11600 = 0x1 ∧ 0x16 ≤ (addrField 0x11600).toNat ∧
    classField 0x1FF55 = 0x1 ∧ 0x16 ≤ (addrField 0x1FF55).toNat := by decide

theorem witness_WrDefvalStoresWhole : classField 0x107A5 = 0x1 ∧ (addrField 0x107A5).extractLsb' 1 7 = 3 := by decide

/-- WR.IODIR 0x0C on pin 3 an output, pin 2 and the rest inputs: bit 3 does not change, bit 2 becomes an
output; 0x00 makes bit 3 an input. -/
theorem witness_WrIodirResult : bitAt 0x0C 3 = out3.regBit .iodir 3 ∧ bitAt 0x0C 2 ≠ out3.regBit .iodir 2 ∧
    bitAt 0x0C 2 = out3.cfg.iodirOut ∧ bitAt 0x00 3 ≠ out3.regBit .iodir 3 ∧ bitAt 0x00 3 ≠ out3.cfg.iodirOut ∧
    outputsFollow out3 ∧ (0x0C : Byte) ≠ out3.reg .iodir .a := by decide

theorem witness_WrOlatResult : (bitAt 0x00 3 ≠ out3.regBit .olat 3 ∧ out3.regBit .iodir 3 = out3.cfg.iodirOut) ∧
    bitAt 0x08 3 = out3.regBit .olat 3 ∧ out3.regBit .iodir 7 ≠ out3.cfg.iodirOut ∧ outputsFollow out3 := by decide

/-- WR.GPPU 0x0C: bit 0 unchanged, bit 2 changed and armed, bit 3 changed on an output; 0x80: bit 7 changed
and not armed. -/
theorem witness_WrGppuResult : let s := waiting 2 (.waitAny false) out3
    bitAt 0x0C 0 = s.regBit .gppu 0 ∧ bitAt 0x0C 2 ≠ s.regBit .gppu 2 ∧ s.regBit .gpinten 2 = true ∧
    s.regBit .iodir 2 ≠ s.cfg.iodirOut ∧ bitAt 0x0C 3 ≠ s.regBit .gppu 3 ∧ s.regBit .iodir 3 = s.cfg.iodirOut ∧
    bitAt 0x80 7 ≠ s.regBit .gppu 7 ∧ s.regBit .gpinten 7 = false ∧ s.regBit .iodir 7 ≠ s.cfg.iodirOut ∧
    outputsFollow s := by decide

/-- WR.GPINTEN 0x88: bit 7 goes to 1, bit 2 goes to 0, bit 3 (an output) counts as 0 and so is equal. -/
theorem witness_WrGpintenResult : let s := waiting 2 (.waitAny false) out3
    s.regBit .iodir 7 ≠ s.cfg.iodirOut ∧ bitAt 0x88 7 = true ∧ s.regBit .gpinten 7 = false ∧
    s.regBit .iodir 2 ≠ s.cfg.iodirOut ∧ bitAt 0x88 2 = false ∧ s.regBit .gpinten 2 = true ∧
    s.regBit .iodir 3 = s.cfg.iodirOut ∧ s.regBit .gpinten 3 = false ∧ outputsFollow s := by decide

/-- The byte 0x0C has effective bits 0x04 with pin 3 an output, and 0x04 is stored. -/
theorem witness_EqualWriteChangesNothing : let s := waiting 2 (.waitAny false) out3
    ∀ n, s.regBit .gpinten (pinOf .a n) =
      if s.regBit .iodir (pinOf .a n) = s.cfg.iodirOut then false else bitAt 0x0C n := by decide

theorem witness_TranslatorAssignsDerivedRequest :
    (exec (.wrIodir .a 0x80) out3 = .next (after (.wrIodir .a 0x80) out3) ∧
      bitAt 0x80 7 ≠ out3.regBit .iodir (pinOf .a 7)) ∧
    (exec (.wrOlat .a 0x00) out3 = .next (after (.wrOlat .a 0x00) out3) ∧
      bitAt 0x00 3 ≠ out3.regBit .olat (pinOf .a 3) ∧ out3.iodirIsOut (pinOf .a 3) = true) ∧
    (exec (.wrGppu .b 0x01) out3 = .next (after (.wrGppu .b 0x01) out3) ∧
      bitAt 0x01 0 ≠ out3.regBit .gppu (pinOf .b 0) ∧ out3.iodirIsOut (pinOf .b 0) = false) ∧
    (exec (.wrGpinten .b 0x80) out3 = .next (after (.wrGpinten .b 0x80) out3) ∧
      bitAt 0x80 7 ≠ out3.regBit .gpinten (pinOf .b 7) ∧ out3.iodirIsOut (pinOf .b 7) = false) :=
  ⟨⟨rfl, by decide⟩, ⟨rfl, by decide⟩, ⟨rfl, by decide⟩, ⟨rfl, by decide⟩⟩

theorem witness_ReqWords : (classField 0x24280 = 0x2 ∧ kindField 0x24280 = 1) ∧
    (classField 0x26400 = 0x2 ∧ kindField 0x26400 = 2) ∧ (classField 0x22800 = 0x2 ∧ kindField 0x22800 = 4) := by decide

theorem witness_ReqWstateResult : State.reset.extLevel 0 = false ∧ State.reset.extLevel 15 ≠ true := by decide

/-- A waiting pin, flagged and not flagged. -/
theorem witness_ReqWanyResult : ((any2.pin 2).req = some (.waitAny false) ∧ (any2.pin 2).st = .processing ∧
      any2.regBit .gpinten 2 = true ∧ any2.regBit .intf 2 = true) ∧
    (let s := waiting 15 (.waitAny true) State.reset;
      (s.pin 15).req = some (.waitAny true) ∧ (s.pin 15).st = .processing ∧
      s.regBit .gpinten 15 = true ∧ s.regBit .intf 15 = false) := by decide

/-- Each case of the table: not suspended, not armed, and each request while suspended and armed. -/
theorem witness_AdvanceFollowsTheCaseTable : (State.reset.pin 0).st ≠ .processing ∧
    State.reset.regBit .gpinten 15 = false ∧
    (∀ r ∈ [Request.waitState false true, .waitAny false, .waitSpec false true, .watch true, .output true,
        .inNone false, .inRead false],
      ((waiting 2 r State.reset).pin 2).st = .processing ∧ (waiting 2 r State.reset).regBit .gpinten 2 = true ∧
      ((waiting 2 r State.reset).pin 2).req = some r) ∧
    ((after (.reqWspec 5 false false) State.reset).pin 5).ews.rem = 2 ∧
    ((after (.reqWspec 5 true false) State.reset).pin 5).ews.rem = 1 ∧
    (let s := (waiting 2 (.watch true) State.reset);
      let t := s.setPin 2 { s.pin 2 with req := none };
      (t.pin 2).st = .processing ∧ t.regBit .gpinten 2 = true ∧ (t.pin 2).req = none) := by decide

/-- A delivery that ends the wait of its pin, and one that leaves it armed. -/
theorem witness_DeliveryToOnePin :
    (deliver 2 (any2.pin 2) (any2.regBit .gpinten 2) true true).armed ≠ any2.regBit .gpinten 2 ∧
    (deliver 2 (any2.pin 2) (any2.regBit .gpinten 2) false true).armed = any2.regBit .gpinten 2 := by decide

theorem witness_PinEventResult : let s := waiting 2 (.waitAny false) State.reset
    (true ≠ s.extLevel 2 ∧ s.cfg.src[2] = .nativeInterrupt ∧ (s.pin 2).dir = .input ∧ s.regBit .gpinten 2 = true) ∧
    ¬(true ≠ s.extLevel 3 ∧ s.cfg.src[3] = .nativeInterrupt ∧ (s.pin 3).dir = .input ∧ s.regBit .gpinten 3 = true) := by
  decide

theorem witness_PollEventResult : let s := polled 1 (waiting 1 (.waitAny false) State.reset)
    (s.cfg.src[1] = .pollEvery ∧ (s.pin 1).dir = .input ∧ s.regBit .gpinten 1 = true ∧
      s.extLevel 1 = (s.pin 1).ref) ∧
    (s.setExt 1 true).extLevel 1 ≠ ((s.setExt 1 true).pin 1).ref ∧ s.cfg.src[2] ≠ .pollEvery := by decide

theorem witness_ServiceEventResult : State.reset.reg .intf .a = 0x00 ∧ any2.reg .intf .a ≠ 0x00 := by decide

/-- Outputs not mirrored; mirrored with the other port clear; mirrored with the other port flagged. -/
theorem witness_GpioReadReleasesOutput : let m : State := { any2 with iocon := 0x40 }
    (Port.b ≠ .a) ∧ any2.iocon.getLsbD 6 = false ∧ m.iocon.getLsbD 6 = true ∧
    m.reg .intf .b = 0x00 ∧ m.reg .intf .a ≠ 0x00 := by decide

/-- A state with a flagged wait and an output pin meets the invariants, and its next step takes an SVC. -/
theorem witness_EveryStepKeepsInvariants : let s : State := { after (.reqOut 9 true) any2 with inbox := [0x50000] }
    Inv s ∧ step s = .next (after (.svc .a) { s with inbox := [] }) := ⟨by decide, rfl⟩

theorem witness_ResultTraceIsAppendOnly : let s : State := { any2 with inbox := [0x50000] }
    step s = .next (after (.svc .a) { s with inbox := [] }) := rfl

theorem witness_OnlyNamedEventsWrite :
    exec (.wrGpinten .a 0xFF) any2 = .next (after (.wrGpinten .a 0xFF) any2) ∧
    (∀ p b, Instr.wrGpinten .a 0xFF ≠ .pin p b) ∧ Instr.wrGpinten .a 0xFF ≠ .reset ∧
    (∀ x v, Instr.wrGpinten .a 0xFF ≠ .wrDefval x v) :=
  ⟨rfl, by simp, by simp, by simp⟩

set_option maxRecDepth 4000 in
/-- Each of the five events turns an enable bit on. -/
theorem witness_OnlyWaitingRequestsArm : ∀ i ∈ [Instr.reqWstate 15 true false, .reqWany 15 false,
      .reqWspec 15 false true, .reqWatch 15 false, .wrGpinten .b 0x80],
    State.reset.regBit .gpinten 15 = false ∧ (after i State.reset).regBit .gpinten 15 = true ∧
    exec i State.reset = .next (after i State.reset) := by
  have h : ∀ i ∈ [Instr.reqWstate 15 true false, .reqWany 15 false, .reqWspec 15 false true, .reqWatch 15 false,
      .wrGpinten .b 0x80], State.reset.regBit .gpinten 15 = false ∧ (after i State.reset).regBit .gpinten 15 = true := by
    decide
  exact fun i hi => ⟨(h i hi).1, (h i hi).2, by cases i <;> rfl⟩

theorem witness_OnlyLevelChangesRaiseFlags :
    (let s := waiting 2 (.waitAny false) State.reset;
      s.regBit .intf 2 = false ∧ (after (.pin 2 true) s).regBit .intf 2 = true) ∧
    (let s := (polled 1 (waiting 1 (.waitAny false) State.reset)).setExt 1 true;
      s.regBit .intf 1 = false ∧ (after (.poll 1) s).regBit .intf 1 = true) := by decide

/-- Two states that agree on port A and differ on port B. -/
theorem witness_GpioReadIsPortLocal : let s := after (.reqOut 9 true) any2
    portOf 9 ≠ .a ∧ any2.port .a = s.port .a ∧
    (∀ n, any2.pin (pinOf .a n) = s.pin (pinOf .a n) ∧ any2.extLevel (pinOf .a n) = s.extLevel (pinOf .a n)) ∧
    any2 ≠ s := by decide

theorem witness_EventsStayOnTheirPort : targetPort (.reqWatch 8 false) = some .b ∧ portOf 7 ≠ .b ∧
    exec (.reqWatch 8 false) any2 = .next (after (.reqWatch 8 false) any2) := ⟨rfl, by decide, rfl⟩

theorem witness_PinEventsCommute : let s := waiting 2 (.waitAny false) (waiting 9 (.watch false) State.reset)
    let s1 := after (.pin 2 true) s
    let s2 := after (.pin 9 true) s
    (2 : Pin) ≠ 9 ∧ exec (.pin 2 true) s = .next s1 ∧ exec (.pin 9 true) s1 = .next (after (.pin 9 true) s1) ∧
    exec (.pin 9 true) s = .next s2 ∧ exec (.pin 2 true) s2 = .next (after (.pin 2 true) s2) :=
  ⟨by decide, rfl, rfl, rfl, rfl⟩

/-- Two states that differ in the stored bytes of `GPIO` and `DEFVAL`. -/
theorem witness_InertRegistersInfluenceNothing : let s := (any2.setReg .gpio .a 0xFF).setReg .defval .b 0x3C
    eraseInert any2 = eraseInert s ∧ any2 ≠ s ∧ (∀ x, Instr.svc .a ≠ .rdDefval x) := by
  refine ⟨by decide, by decide, by simp⟩

set_option maxRecDepth 4000 in
/-- A pending flag cleared by a service, by a new request and by a translator write. -/
theorem witness_NoPendingFlagIsLost : any2.regBit .intf 2 = true ∧
    (∀ i ∈ [Instr.svc .a, .reqRead 0 false, .reqNone 2 false, .wrIodir .a 0x04, .wrGppu .a 0x04, .wrGpinten .a 0x00,
      .reset], (after i any2).regBit .intf 2 = false) := by decide

/-- The event gives a next state: the other half of the hypotheses above. -/
theorem witness_exec_after : exec (.svc .a) any2 = .next (after (.svc .a) any2) ∧
    exec (.pin 2 true) (waiting 2 (.waitAny false) State.reset) =
      .next (after (.pin 2 true) (waiting 2 (.waitAny false) State.reset)) ∧
    exec (.poll 1) any2 = .next (after (.poll 1) any2) ∧
    exec (.wrGpinten .a 0x00) any2 = .next (after (.wrGpinten .a 0x00) any2) := ⟨rfl, rfl, rfl, rfl⟩

/-- A wait for any edge and a wait for the new level, on a native pin at the other level. -/
theorem witness_ChangeThenServiceEndsTheWait : ∀ r ∈ [Request.waitAny true, .waitState true true],
    let s := waiting 15 r State.reset
    (s.pin 15).req = some r ∧ (s.pin 15).st = .processing ∧ s.regBit .gpinten 15 = true ∧
    (s.pin 15).dir = .input ∧ s.cfg.src[15] = .nativeInterrupt ∧ s.extLevel 15 ≠ true := by decide

theorem witness_RegisterBitsArePins : RegType.iodir ≠ .iocon ∧ RegType.olat ≠ .iocon := by decide

end Sys2Proof.Tests
end

section
/-! The state of the block (spec/10_state.md): which bit of a port register is which pin (R22). -/

namespace Sys2Proof.Machine

theorem pinOf_val (x : Port) (n : BitIdx) : (pinOf x n).val = 8 * x.toBit.toNat + n.val := by
  cases x with
  | a => simp [pinOf, Port.toBit]
  | b => simp [pinOf, Port.toBit]

/-- R22, read from the register's side: the bit of pin 8X+n is bit n of the byte of port X. -/
theorem regBit_pinOf (s : State) (ty : RegType) (x : Port) (n : BitIdx) :
    s.regBit ty (pinOf x n) = (s.reg ty x).getLsbD n.val := by
  rw [State.regBit, portOf_pinOf, bitOf_pinOf, bitAt]

theorem setRegBit_regBit_same_type (s : State) {ty : RegType} (hty : ty ≠ .iocon) (p q : Pin) (v : Level) :
    (s.setRegBit ty p v).regBit ty q = if q = p then v else s.regBit ty q := by
  simp only [setRegBit_regBit s hty, true_and]

/-- Settles O59: the numbering of the pins, the byte a pin's bit stands in, and the one-bit write. -/
theorem registerBitsArePins : Obligations.RegisterBitsArePins :=
  ⟨pinOf_val, fun ty s hty => ⟨regBit_pinOf s ty, setRegBit_regBit_same_type s hty⟩⟩

end Sys2Proof.Machine
end

section
/-! The register port (spec/40_register_port.md): the words of a register event (R61, R87), the fixed
registers `IPOL` and `INTCON` (R102, R105), the write to an undefined address (R113). -/

namespace Sys2Proof

/-- R61: the type index `addr[7:1]` names the register. -/
theorem regOfAddr_of_index {a : Byte} (t : RegType) (h : a.extractLsb' 1 7 = BitVec.ofNat 7 t.index) :
    regOfAddr a = some t := by
  rw [regOfAddr, h]
  cases t <;> rfl

theorem decode_of_class_zero {w : EventWord} (h : classField w = 0x0) : decode w = decodeRd (addrField w) := by
  rw [decode, h]; rfl

theorem decode_of_class_one {w : EventWord} (h : classField w = 0x1) :
    decode w = decodeWr (addrField w) (dataField w) := by
  rw [decode, h]; rfl

theorem decodeRd_ipol {a : Byte} (h : regOfAddr a = some .ipol) : decodeRd a = .rdIpol (portOfAddr a) := by
  rw [decodeRd, h]

theorem decodeRd_intcon {a : Byte} (h : regOfAddr a = some .intcon) : decodeRd a = .rdIntcon (portOfAddr a) := by
  rw [decodeRd, h]

theorem decodeWr_undef {a : Byte} (h : regOfAddr a = none) (v : Byte) : decodeWr a v = .wrUndef a v := by
  rw [decodeWr, h]

end Sys2Proof

namespace Sys2Proof.Machine

theorem exec_rdIpol (x : Port) (s : State) : exec (.rdIpol x) s = .next { s with ret := some 0x00 } := rfl

theorem exec_rdIntcon (x : Port) (s : State) : exec (.rdIntcon x) s = .next { s with ret := some 0x00 } := rfl

theorem exec_wrUndef (a v : Byte) (s : State) : exec (.wrUndef a v) s = .next s := rfl

/-- Settles O12: the words of type index 1 and 4 are the two reads, whose byte is the constant 0x00. -/
theorem fixedRegistersReadZero : Obligations.FixedRegistersReadZero := by
  refine ⟨fun w hclass hindex => ?ipolWord, fun w hclass hindex => ?intconWord,
    fun x s => ⟨exec_rdIpol x s, exec_rdIntcon x s⟩⟩
  case ipolWord =>
    rw [decode_of_class_zero hclass, decodeRd_ipol (regOfAddr_of_index .ipol hindex), portOfAddr]
  case intconWord =>
    rw [decode_of_class_zero hclass, decodeRd_intcon (regOfAddr_of_index .intcon hindex), portOfAddr]

/-- Settles O17: an address from 0x16 up names no register, and the write to it is ignored. -/
theorem undefinedAddressWriteIgnored : Obligations.UndefinedAddressWriteIgnored := by
  refine ⟨fun w hclass haddr => ?_, exec_wrUndef⟩
  have hnone : regOfAddr (addrField w) = none := (regOfAddr_eq_none_iff _).mpr haddr
  rw [decode_of_class_one hclass, decodeWr_undef hnone]

end Sys2Proof.Machine
end

section
/-! The request port (spec/41_request_port.md): the words of a REQ event (R83), the input entry (R147),
and the three requests REQ.NONE, REQ.READ and REQ.WANY (R149, R150, R152). -/

namespace Sys2Proof

theorem decode_of_class_two {w : EventWord} (h : classField w = 0x2) :
    decode w = decodeReq (pinField w) (kindField w).toNat (bit8Field w) (pullField w) := by
  rw [decode, h]; rfl

theorem decode_reqNone {w : EventWord} (hclass : classField w = 0x2) (hkind : kindField w = 1) :
    decode w = .reqNone (pinField w) (w.getLsbD 7) := by
  rw [decode_of_class_two hclass, hkind]; rfl

theorem decode_reqRead {w : EventWord} (hclass : classField w = 0x2) (hkind : kindField w = 2) :
    decode w = .reqRead (pinField w) (w.getLsbD 7) := by
  rw [decode_of_class_two hclass, hkind]; rfl

theorem decode_reqWany {w : EventWord} (hclass : classField w = 0x2) (hkind : kindField w = 4) :
    decode w = .reqWany (pinField w) (w.getLsbD 7) := by
  rw [decode_of_class_two hclass, hkind]; rfl

end Sys2Proof

namespace Sys2Proof.Machine

theorem exec_reqNone (p : Pin) (u : Pull) (s : State) :
    exec (.reqNone p u) s = .next (assign p (.inNone u) s) := rfl

theorem exec_reqRead (p : Pin) (u : Pull) (s : State) :
    exec (.reqRead p u) s = .next (assign p (.inRead u) s) := rfl

theorem exec_reqWany (p : Pin) (u : Pull) (s : State) :
    exec (.reqWany p u) s = .next (assign p (.waitAny u) s) := rfl

/-! ## The input entry (R147) -/

theorem entryInput_idem (p : Pin) (u : Pull) (s : State) :
    entryInput p u (entryInput p u s) = entryInput p u s := by
  refine State.eq_of_views (by simp) (fun ty x => reg_eq_of_regBit fun n => ?bits) (fun q => ?record)
    (by simp) (by simp) (by simp) (by simp) (by simp) (by simp)
  case bits =>
    simp only [entryInput_regBit, entryInput_cfg]
    split
    · rfl
    · split <;> rfl
  case record => by_cases h : q = p <;> simp [h]

/-- A request whose entry is an input entry with pull `u` (R149 to R154). -/
abbrev isInputLike (u : Pull) (r : Request) : Prop :=
  r = .inNone u ∨ r = .inRead u ∨ (∃ t, r = .waitState u t) ∨ r = .waitAny u ∨ (∃ t, r = .waitSpec u t) ∨
    r = .watch u

/-- `EntryInput` comes first: an input-like entry sees of its state only what `EntryInput` leaves of it. -/
theorem entry_congr_of_entryInput {p : Pin} {u : Pull} {r : Request} {s t : State} (hr : isInputLike u r)
    (h : entryInput p u t = entryInput p u s) : entry p r t = entry p r s := by
  rcases hr with rfl | rfl | ⟨_, rfl⟩ | rfl | ⟨_, rfl⟩ | rfl
  · simp only [entry, entryNone, h]
  · simp only [entry, entryRead, h]
  · simp only [entry, entryWaitState, h]
  · simp only [entry, entryWaitAny, h]
  · simp only [entry, entryWaitSpec, h]
  · simp only [entry, entryWatch, h]

/-- Settles O33: the views of the input entry, and its absorption by the entry that repeats it. -/
theorem entryInputSetsDirectionAndPull : Obligations.EntryInputSetsDirectionAndPull := by
  intro p u s t
  have hpins : keepsPinsBut (fun q => q = p) s t := fun q hq => by
    rw [entryInput_pin, if_neg hq]
  have hbits : keepsBitsBut (fun ty q => q = p ∧ (ty = .iodir ∨ ty = .gppu)) s t := fun ty q hw => by
    rw [entryInput_regBit, if_neg fun h => hw ⟨h.2, .inl h.1⟩, if_neg fun h => hw ⟨h.2, .inr h.1⟩]
  refine ⟨by simp [t], by simp [t], by simp [t], hbits _ _ (by simp), hpins, hbits, entryInput_intA p u s,
    entryInput_intB p u s, entryInput_out p u s,
    ⟨entryInput_cfg p u s, entryInput_iocon p u s, entryInput_ext p u s, entryInput_inbox p u s⟩,
    entryInput_ret p u s, fun r hr => ?first⟩
  case first => exact entry_congr_of_entryInput hr (entryInput_idem p u s)

/-! ## The end of an entry: `finish` or `arm` -/

/-- `t` is `e` but for the record and the `GPINTEN` bit of pin `p`, and results. -/
structure KeepsBesidePin (p : Pin) (e t : State) : Prop where
  pin : ∀ q, q ≠ p → t.pin q = e.pin q
  regBit : ∀ ty q, ¬(ty = .gpinten ∧ q = p) → t.regBit ty q = e.regBit ty q
  outside : keepsOutside e t
  ret : t.ret = e.ret
  outputs : outputsFollow e → outputsFollow t

theorem finish_keepsBesidePin (p : Pin) (r : Option Level) (e : State) : KeepsBesidePin p e (finish p r e) where
  pin q hq := by rw [finish_pin, if_neg hq]
  regBit ty q _ := finish_regBit p r e ty q
  outside := ⟨finish_cfg p r e, finish_iocon p r e, finish_ext p r e, finish_inbox p r e⟩
  ret := finish_ret p r e
  outputs := finish_outputsFollow p r

theorem arm_keepsBesidePin (p : Pin) (l : Level) (e : State) : KeepsBesidePin p e (arm p l e) where
  pin q hq := by rw [arm_pin, if_neg hq]
  regBit ty q h := by rw [arm_regBit, if_neg h]
  outside := ⟨arm_cfg p l e, arm_iocon p l e, arm_ext p l e, arm_inbox p l e⟩
  ret := arm_ret p l e
  outputs := arm_outputsFollow p l

/-- The frame of an input-like request whose entry reads no `GPIO` (R149, R152). -/
theorem KeepsBesidePin.readless_frame {p : Pin} {u : Pull} {r : Request} {s t : State}
    (h : KeepsBesidePin p (inputStart p u r s) t) :
    t.regBit .iodir p = s.cfg.iodirIn ∧ t.regBit .gppu p = u ∧ t.regBit .intf p = false ∧
    keepsPinsBut (fun q => q = p) s t ∧
    keepsBitsBut (fun ty q => q = p ∧ (ty = .iodir ∨ ty = .gppu ∨ ty = .gpinten ∨ ty = .intf)) s t ∧
    keepsOutside s t ∧ t.ret = s.ret ∧ outputsFollow t := by
  obtain ⟨hcfg, hiocon, hext, hinbox⟩ := h.outside
  refine ⟨?iodir, ?gppu, ?intf, fun q hq => ?pins, fun ty q hw => ?bits,
    ⟨by simp [hcfg], by simp [hiocon], by simp [hext], by simp [hinbox]⟩, by simp [h.ret],
    h.outputs (inputStart_outputsFollow p u r s)⟩
  case iodir => rw [h.regBit _ _ (by simp)]; simp
  case gppu => rw [h.regBit _ _ (by simp)]; simp
  case intf => rw [h.regBit _ _ (by simp)]; simp
  case pins => rw [h.pin q hq, inputStart_pin, if_neg hq]
  case bits =>
    rw [h.regBit ty q (by rintro ⟨rfl, rfl⟩; simp at hw), inputStart_regBit]
    by_cases hq : q = p
    · have hty : ¬(ty = .iodir ∨ ty = .gppu ∨ ty = .gpinten ∨ ty = .intf) := fun h' => hw ⟨hq, h'⟩
      simp_all
    · simp [hq]

/-- The frame of an input-like request whose entry reads `GPIO` (R150, R151, R153, R154). -/
theorem readsAtEntry_of_entryReads {p : Pin} {u : Pull} {r : Request} {s e t : State} (h : EntryReads p u r s e)
    (k : KeepsBesidePin p e t) : readsAtEntry p u s t := by
  obtain ⟨hcfg, hiocon, hext, hinbox⟩ := k.outside
  refine ⟨?iodir, ?gppu, fun q hq => ?pins, fun q hq => ?gpinten, fun q => ?intf, fun q => ?gpio,
    fun ty q hw => ?bits,
    ⟨hcfg.trans h.cfg, hiocon.trans h.iocon, hext.trans h.ext, hinbox.trans h.inbox⟩, k.ret.trans h.ret,
    k.outputs h.outputs⟩
  case iodir => rw [k.regBit _ _ (by simp), h.iodir, if_pos rfl]
  case gppu => rw [k.regBit _ _ (by simp), h.gppu, if_pos rfl]
  case pins => rw [k.pin q hq, h.pin q hq]
  case gpinten => rw [k.regBit _ _ (by simp [hq]), h.gpinten q hq]
  case intf => rw [k.regBit _ _ (by simp), h.intf]
  case gpio => rw [k.regBit _ _ (by simp), h.gpio]
  case bits =>
    push Not at hw
    obtain ⟨hg, hi, hp, hq⟩ := hw
    rw [k.regBit ty q fun h' => hg h'.1]
    by_cases hd : ty = .iodir
    · rw [hd, h.iodir, if_neg (hq (.inl hd))]
    · by_cases hu : ty = .gppu
      · rw [hu, h.gppu, if_neg (hq (.inr hu))]
      · exact h.other ty q hg hi hp hd hu

/-! ## Results -/

/-- Results that stand in a known order are appended in some order. -/
theorem appendsSome_of_out_eq {s t : State} {rs own : List ResultEvent} (h : t.out = s.out ++ rs ++ own) :
    appendsSome s t rs own := by
  rw [List.append_assoc] at h
  simp [appendsSome, h]

theorem mem_deliveredResults {s : State} {q : Pin} {e : ResultEvent} (h : e ∈ (delivered s q).results) :
    e ∈ deliveredResults s (portOf q) none := by
  rw [deliveredResults_none, List.mem_flatMap]
  exact ⟨bitOf q, mem_bitOrder _, by rwa [pinOf_portOf_bitOf]⟩

/-- What is delivered to a suspended, armed pin that waits for any edge (R177). -/
theorem delivered_waitAny {s : State} {p : Pin} {u : Pull} (hreq : (s.pin p).req = some (.waitAny u))
    (hst : (s.pin p).st = .processing) (harmed : s.regBit .gpinten p = true) :
    delivered s p = if s.regBit .intf p then .ends p (s.pin p) (s.pinLevel p) else .nothing (s.pin p) true := by
  rw [delivered, deliver, if_pos ⟨hst, harmed⟩, hreq]; rfl

/-! ## The requests -/

/-- Settles O26: the state after `EntryInput`, with the request finished at once. -/
theorem reqNoneResult : Obligations.ReqNoneResult := by
  refine ⟨fun w => decode_reqNone, fun p u s => ⟨_, exec_reqNone p u s, ?_⟩⟩
  rw [assign_inNone]
  obtain ⟨hiodir, hgppu, hintf, hpins, hbits, houtside, hret, houtputs⟩ :=
    (finish_keepsBesidePin p none (inputStart p u (.inNone u) s)).readless_frame
  exact ⟨by simp, hiodir, hgppu, by simp, hintf, by simp, hpins, hbits, houtside, hret, houtputs⟩

/-- Settles O27: the entry read of `EntryReads`, then the one `DONE` of the pin. -/
theorem reqReadResult : Obligations.ReqReadResult := by
  refine ⟨fun w => decode_reqRead, fun p u s => ⟨_, exec_reqRead p u s, ?_⟩⟩
  rw [assign_inRead]
  have hread := gpioRead_inputStart p u (.inRead u) s
  refine ⟨?record, ?armed, ?results, readsAtEntry_of_entryReads hread (finish_keepsBesidePin p _ _)⟩
  case record => rw [finish_pin, if_pos rfl, hread.pin_self]
  case armed => rw [finish_regBit, hread.gpinten_self]
  case results => exact appendsSome_of_out_eq (by rw [finish_out, hread.out])

/-- R152: the compound read ends a wait for any edge exactly if the pin is flagged. -/
theorem gpioRead_ends_waitAny {s : State} {p : Pin} {u : Pull} (hreq : (s.pin p).req = some (.waitAny u))
    (hst : (s.pin p).st = .processing) (harmed : s.regBit .gpinten p = true) :
    let t := (gpioRead (portOf p) s).2
    (s.regBit .intf p = true → t.pin p = { s.pin p with st := .done (some (s.pinLevel p)) } ∧
      t.regBit .gpinten p = false ∧ .done p (some (s.pinLevel p)) ∈ t.out.drop s.out.length) ∧
    (s.regBit .intf p = false → t.pin p = s.pin p ∧ t.regBit .gpinten p = true) := by
  have hread := gpioRead_readsPort (portOf p) s
  have hdel := delivered_waitAny hreq hst harmed
  refine ⟨fun hf => ?flagged, fun hf => ?clear⟩
  case flagged =>
    rw [hf, if_pos rfl] at hdel
    refine ⟨by rw [hread.pin, if_pos rfl, hdel]; rfl, by rw [hread.gpinten, if_pos rfl, hdel]; rfl, ?_⟩
    rw [hread.out, List.drop_left]
    exact mem_deliveredResults (by rw [hdel]; exact List.mem_singleton_self _)
  case clear =>
    rw [hf, if_neg Bool.false_ne_true] at hdel
    exact ⟨by rw [hread.pin, if_pos rfl, hdel]; rfl, by rw [hread.gpinten, if_pos rfl, hdel]; rfl⟩

/-- Settles O29: the state after `EntryInput`, armed; the wait ends by `gpioRead_ends_waitAny`. -/
theorem reqWanyResult : Obligations.ReqWanyResult := by
  refine ⟨fun w => decode_reqWany, fun p u s => ⟨_, exec_reqWany p u s, ?_⟩,
    fun p u s => gpioRead_ends_waitAny⟩
  rw [assign_waitAny]
  obtain ⟨hiodir, hgppu, hintf, hpins, hbits, houtside, hret, houtputs⟩ :=
    (arm_keepsBesidePin p (s.extLevel p) (inputStart p u (.waitAny u) s)).readless_frame
  exact ⟨by simp, hiodir, hgppu, by simp, hintf, by simp, hpins, hbits, houtside, hret, houtputs⟩

end Sys2Proof.Machine
end

section
/-! Pin events and the Coordinator (spec/42_pin_events.md): the case table of `Advance` (R177) and the
independence of the two ports under a compound read (R181). -/

namespace Sys2Proof.Machine

/-! ## Advance, request by request (R177) -/

theorem advance_of_not_suspended {p : Pin} {s : State}
    (h : (s.pin p).st ≠ .processing ∨ s.regBit .gpinten p = false) (f l : Level) : advance p f l s = s := by
  rw [advance, if_neg]
  rcases h with hst | harmed
  · simp [hst]
  · simp [harmed]

theorem advance_of_suspended {p : Pin} {s : State} (hst : (s.pin p).st = .processing)
    (harmed : s.regBit .gpinten p = true) (f l : Level) : advance p f l s = resume p f l (s.pin p).req s := by
  rw [advance, if_pos (by simp [hst, harmed])]

theorem resume_waitState (p : Pin) (f l : Level) (u : Pull) (t : Level) (s : State) :
    resume p f l (some (.waitState u t)) s = if l = t then complete p t s else s := by
  simp [resume]

theorem resume_waitAny (p : Pin) (f l : Level) (u : Pull) (s : State) :
    resume p f l (some (.waitAny u)) s = if f = true then complete p l s else s := rfl

theorem resume_waitSpec_not_flagged (p : Pin) (l : Level) (u : Pull) (t : Level) (s : State) :
    resume p false l (some (.waitSpec u t)) s = s := rfl

theorem resume_waitSpec_two_left {p : Pin} {s : State} (hrem : (s.pin p).ews.rem = 2) (l : Level) (u : Pull)
    (t : Level) : resume p true l (some (.waitSpec u t)) s =
      s.setPin p { s.pin p with ews := ⟨(s.pin p).ews.start, 1⟩ } := by
  simp [resume, hrem, decRem_eq]

theorem resume_waitSpec_one_left {p : Pin} {s : State} (hrem : (s.pin p).ews.rem = 1) (l : Level) (u : Pull)
    (t : Level) : resume p true l (some (.waitSpec u t)) s =
      complete p t (s.setPin p { s.pin p with ews := ⟨(s.pin p).ews.start, 0⟩ }) := by
  simp [resume, hrem, decRem_eq]

theorem resume_watch (p : Pin) (f l : Level) (u : Pull) (s : State) :
    resume p f l (some (.watch u)) s = if f = true then { s with out := s.out ++ [.emit p l] } else s := rfl

/-- A request that is no wait has nothing to resume. -/
theorem resume_of_not_waiting {r : Option Request} (h : isWaiting r = false) (p : Pin) (f l : Level) (s : State) :
    resume p f l r s = s := by
  match r with
  | none => rfl
  | some (.output _) => rfl
  | some (.inNone _) => rfl
  | some (.inRead _) => rfl

theorem isWaiting_of_isOutput {r : Option Request} (h : isOutput r = true) : isWaiting r = false := by
  match r with
  | some (.output _) => rfl

/-- Settles O35: `advance` is the identity off the suspended, armed pins and `resume` on them. -/
theorem advanceFollowsTheCaseTable : Obligations.AdvanceFollowsTheCaseTable := by
  intro p f l t u s
  refine ⟨fun h => advance_of_not_suspended h f l, fun hst harmed => ?suspended⟩
  rw [advance_of_suspended hst harmed]
  refine ⟨fun hreq => ?waitState, fun hreq => ?waitAny, fun hreq hf => ?notFlagged, fun hreq hf hrem => ?twoLeft,
    fun hreq hf hrem => ?oneLeft, fun hreq => ?watch, fun hreq => resume_of_not_waiting ?otherwise p f l s⟩
  case waitState => rw [hreq, resume_waitState]
  case waitAny => rw [hreq, resume_waitAny]
  case notFlagged => rw [hreq, hf, resume_waitSpec_not_flagged]
  case twoLeft => rw [hreq, hf, resume_waitSpec_two_left hrem]
  case oneLeft => rw [hreq, hf, resume_waitSpec_one_left hrem]
  case watch => rw [hreq, resume_watch]
  case otherwise =>
    rcases hreq with hnone | houtput | hinNone | hinRead
    · rw [hnone]; rfl
    · exact isWaiting_of_isOutput houtput
    · rw [hinNone]; rfl
    · rw [hinRead]; rfl

/-! ## What a compound read of a port depends on (R181) -/

theorem reg_of_port_eq {s t : State} {x : Port} (h : s.port x = t.port x) {ty : RegType} (hty : ty ≠ .iocon) :
    s.reg ty x = t.reg ty x := by
  cases ty with
  | iocon => exact absurd rfl hty
  | _ => simp only [State.reg, h]

theorem port_eq_of_reg {s t : State} {x : Port} (h : ∀ ty, ty ≠ .iocon → s.reg ty x = t.reg ty x) :
    s.port x = t.port x :=
  PortRegs.ext (h .iodir (by decide)) (h .ipol (by decide)) (h .gpinten (by decide)) (h .defval (by decide))
    (h .intcon (by decide)) (h .gppu (by decide)) (h .intf (by decide)) (h .intcap (by decide))
    (h .gpio (by decide)) (h .olat (by decide))

/-- `s` and `t` have the same registers, pin records and outside levels at port `x`. -/
structure AgreesOn (x : Port) (s t : State) : Prop where
  pin : ∀ n, s.pin (pinOf x n) = t.pin (pinOf x n)
  extLevel : ∀ n, s.extLevel (pinOf x n) = t.extLevel (pinOf x n)
  port : s.port x = t.port x

section
variable {x : Port} {s t : State}

theorem AgreesOn.regBit (h : AgreesOn x s t) {ty : RegType} (hty : ty ≠ .iocon) (n : BitIdx) :
    s.regBit ty (pinOf x n) = t.regBit ty (pinOf x n) :=
  regBit_of_reg_eq (by rw [portOf_pinOf]; exact reg_of_port_eq h.port hty)

theorem AgreesOn.sample (h : AgreesOn x s t) : s.sample x = t.sample x :=
  byte_eq_of_bitAt fun n => by
    rw [bitAt_sample, bitAt_sample]
    exact pinLevel_of (congrArg PinState.dir (h.pin n)) (congrArg PinState.drv (h.pin n)) (h.extLevel n)

theorem AgreesOn.delivered (h : AgreesOn x s t) (n : BitIdx) :
    delivered s (pinOf x n) = delivered t (pinOf x n) :=
  delivered_of (h.pin n) (h.regBit (by decide) n) (h.regBit (by decide) n) (h.extLevel n)

/-- A read of the port leaves two states that agree on it agreeing on it. -/
theorem AgreesOn.readsPort {s' t' : State} (h : AgreesOn x s t) (hs : ReadsPort x s s') (ht : ReadsPort x t t') :
    AgreesOn x s' t' where
  pin n := by rw [hs.pin, ht.pin, portOf_pinOf, if_pos rfl, if_pos rfl, h.delivered]
  extLevel n := by rw [extLevel_of_ext hs.ext, extLevel_of_ext ht.ext, h.extLevel]
  port := port_eq_of_reg fun ty hty => by
    by_cases hg : ty = .gpinten
    · refine reg_eq_of_regBit fun n => ?_
      rw [hg, hs.gpinten, ht.gpinten, portOf_pinOf, if_pos rfl, if_pos rfl, h.delivered]
    · rw [hs.reg ty x hg, ht.reg ty x hg, h.sample, reg_of_port_eq h.port hty]

end

/-- Settles O52: a read stays on its port, and reads of two states that agree there agree there. -/
theorem gpioReadIsPortLocal : Obligations.GpioReadIsPortLocal := by
  refine ⟨fun x s q hq => ?otherPort, fun x s s' hpins hport => ?ownPort⟩
  case otherPort =>
    have hstays := gpioRead_staysOn x s
    exact ⟨hstays.pin q hq, fun ty => hstays.regBit ty q hq⟩
  case ownPort =>
    have hbefore : AgreesOn x s s' := ⟨fun n => (hpins n).1, fun n => (hpins n).2, hport⟩
    have hafter := hbefore.readsPort (gpioRead_readsPort x s) (gpioRead_readsPort x s')
    exact ⟨hbefore.sample, hafter.port, hafter.pin⟩

end Sys2Proof.Machine
end

section
/-! Exceptions (spec/60_exceptions.md): every event has a next state (R190). -/

namespace Sys2Proof.Machine

/-- No operation faults or is refused. The next states are grouped as the spec groups the operations:
reads return a byte, ignored words keep the state, translator writes run their loop over the pins, requests
are assigned, and the pin events, SVC and RESET have an effect of their own. -/
theorem exec_has_next (i : Instr) (s : State) : ∃ t, exec i s = .next t := by
  cases i with
  | rdIodir x | rdIpol x | rdGpinten x | rdDefval x | rdIntcon x | rdIocon x | rdGppu x | rdIntf x | rdIntcap x
  | rdGpio x | rdOlat x => exact ⟨returning (readReg _ x s), rfl⟩
  | rdUndef _ => exact ⟨returning (0x00, s), rfl⟩
  | wrIpol _ _ | wrIntcon _ _ | wrIocon _ _ | wrIntf _ _ | wrIntcap _ _ | wrGpio _ _ | wrUndef _ _
  | reqRsvd _ | rsvdClass _ => exact ⟨s, rfl⟩
  | wrDefval x v => exact ⟨writeDefval x v s, rfl⟩
  | wrIodir x v | wrOlat x v | wrGppu x v | wrGpinten x v => exact ⟨translate _ x v _ s, rfl⟩
  | reqOut p _ | reqNone p _ | reqRead p _ | reqWstate p _ _ | reqWany p _ | reqWspec p _ _ | reqWatch p _ =>
    exact ⟨assign p _ s, rfl⟩
  | pin p b => exact ⟨pinEvent p b s, rfl⟩
  | poll p => exact ⟨pollEvent p s, rfl⟩
  | svc x => exact ⟨serviceEvent x s, rfl⟩
  | reset => exact ⟨resetEvent s, rfl⟩

theorem step_of_fetch_none {s : State} (h : fetch s = none) : step s = .next s := by
  rw [step, h]

theorem step_of_fetch_some {s s' : State} {w : EventWord} (h : fetch s = some (w, s')) :
    step s = exec (decode w) s' := by
  rw [step, h]

theorem step_has_next (s : State) : ∃ t, step s = .next t := by
  rcases fetch_cases s with ⟨_, hidle⟩ | ⟨w, rest, _, htaken⟩
  · exact ⟨s, step_of_fetch_none hidle⟩
  · rw [step_of_fetch_some htaken]
    exact exec_has_next (decode w) _

/-- Settles O9: operation by operation, then for the step, which waits or runs the operation of one word. -/
theorem everyEventHasANextState : Obligations.EveryEventHasANextState :=
  ⟨exec_has_next, step_has_next⟩

end Sys2Proof.Machine
end

section
/-! The encoding (spec/30_encoding.md): the words of the operations and the operations of the words
(R82 to R91), each class through the formats of its words. -/

namespace Sys2Proof

/-! ## The register operations, by register type (R87) -/

/-- The read of a register type. -/
def rdInstr (t : RegType) (x : Port) : Instr :=
  match t with
  | .iodir => .rdIodir x
  | .ipol => .rdIpol x
  | .gpinten => .rdGpinten x
  | .defval => .rdDefval x
  | .intcon => .rdIntcon x
  | .iocon => .rdIocon x
  | .gppu => .rdGppu x
  | .intf => .rdIntf x
  | .intcap => .rdIntcap x
  | .gpio => .rdGpio x
  | .olat => .rdOlat x

/-- The write of a register type. -/
def wrInstr (t : RegType) (x : Port) (v : Byte) : Instr :=
  match t with
  | .iodir => .wrIodir x v
  | .ipol => .wrIpol x v
  | .gpinten => .wrGpinten x v
  | .defval => .wrDefval x v
  | .intcon => .wrIntcon x v
  | .iocon => .wrIocon x v
  | .gppu => .wrGppu x v
  | .intf => .wrIntf x v
  | .intcap => .wrIntcap x v
  | .gpio => .wrGpio x v
  | .olat => .wrOlat x v

theorem decodeRd_of_some {a : Byte} {t : RegType} (h : regOfAddr a = some t) :
    decodeRd a = rdInstr t (portOfAddr a) := by
  rw [decodeRd, h]; cases t <;> rfl

theorem decodeRd_of_none {a : Byte} (h : regOfAddr a = none) : decodeRd a = .rdUndef a := by
  rw [decodeRd, h]

theorem decodeWr_of_some {a : Byte} {t : RegType} (h : regOfAddr a = some t) (v : Byte) :
    decodeWr a v = wrInstr t (portOfAddr a) v := by
  rw [decodeWr, h]; cases t <;> rfl

theorem encode_rdInstr (t : RegType) (x : Port) : encode (rdInstr t x) = formatA 0 (addrOf t x) 0 := by
  cases t <;> rfl

theorem encode_wrInstr (t : RegType) (x : Port) (v : Byte) :
    encode (wrInstr t x v) = formatA 1 (addrOf t x) v := by
  cases t <;> rfl

theorem rdInstr_wellFormed (t : RegType) (x : Port) : (rdInstr t x).wellFormed = true := by
  cases t <;> rfl

theorem wrInstr_wellFormed (t : RegType) (x : Port) (v : Byte) : (wrInstr t x v).wellFormed = true := by
  cases t <;> rfl

/-! ## Decoding a word of each format -/

theorem decode_of_class_three {w : EventWord} (h : classField w = 0x3) :
    decode w = .pin (pinField w) (bit8Field w) := by
  rw [decode, h]; rfl

theorem decode_of_class_four {w : EventWord} (h : classField w = 0x4) : decode w = .poll (pinField w) := by
  rw [decode, h]; rfl

theorem decode_of_class_five {w : EventWord} (h : classField w = 0x5) :
    decode w = .svc (Port.ofBit (bit8Field w)) := by
  rw [decode, h]; rfl

theorem decode_of_class_six {w : EventWord} (h : classField w = 0x6) : decode w = .reset := by
  rw [decode, h]; rfl

theorem decode_of_class_reserved {w : EventWord} (h : 7 ≤ (classField w).toNat) :
    decode w = .rsvdClass (classField w) := by
  unfold decode
  split
  case h_8 => rfl
  all_goals omega

theorem decode_formatA_rd (a v : Byte) : decode (formatA 0 a v) = decodeRd a := by
  rw [decode_of_class_zero (classField_formatA 0 a v), addrField_formatA]

theorem decode_formatA_wr (a v : Byte) : decode (formatA 1 a v) = decodeWr a v := by
  rw [decode_of_class_one (classField_formatA 1 a v), addrField_formatA, dataField_formatA]

theorem decode_formatQ (p : Pin) (k : BitVec 3) (t u : Bool) :
    decode (formatQ p k t u) = decodeReq p k.toNat t u := by
  obtain ⟨hclass, hpin, hkind, hbit8, hpull⟩ := fields_formatQ p k t u
  rw [decode_of_class_two hclass, hpin, hkind, hbit8, hpull]

/-- Decoding inverts the encoder on the well-formed operations. -/
theorem decode_encode (i : Instr) (h : i.wellFormed = true) : decode (encode i) = i := by
  cases i with
  | rdIodir x | rdIpol x | rdGpinten x | rdDefval x | rdIntcon x | rdIocon x | rdGppu x | rdIntf x | rdIntcap x
  | rdGpio x | rdOlat x =>
    rw [encode, decode_formatA_rd, decodeRd_of_some (regOfAddr_addrOf _ x), portOfAddr_addrOf]; rfl
  | wrIodir x v | wrIpol x v | wrGpinten x v | wrDefval x v | wrIntcon x v | wrIocon x v | wrGppu x v
  | wrIntf x v | wrIntcap x v | wrGpio x v | wrOlat x v =>
    rw [encode, decode_formatA_wr, decodeWr_of_some (regOfAddr_addrOf _ x), portOfAddr_addrOf]; rfl
  | rdUndef a =>
    have hnone : regOfAddr a = none := (regOfAddr_eq_none_iff a).mpr (of_decide_eq_true h)
    rw [encode, decode_formatA_rd, decodeRd_of_none hnone]
  | wrUndef a v =>
    have hnone : regOfAddr a = none := (regOfAddr_eq_none_iff a).mpr (of_decide_eq_true h)
    rw [encode, decode_formatA_wr, decodeWr_undef hnone]
  | reqOut p _ | reqNone p _ | reqRead p _ | reqWstate p _ _ | reqWany p _ | reqWspec p _ _ | reqWatch p _
  | reqRsvd p => rw [encode, decode_formatQ]; rfl
  | pin p b =>
    obtain ⟨hclass, hpin, hlevel⟩ := fields_formatP p b 3
    rw [encode, decode_of_class_three hclass, hpin, hlevel]
  | poll p =>
    obtain ⟨hclass, hpin, -⟩ := fields_formatP p false 4
    rw [encode, decode_of_class_four hclass, hpin]
  | svc x =>
    obtain ⟨hclass, hport⟩ := fields_formatS x.toBit 5
    rw [encode, decode_of_class_five hclass, hport, Port.ofBit_toBit]
  | reset => rw [encode, decode_of_class_six (fields_formatS false 6).1]
  | rsvdClass c =>
    have hclass := (fields_formatS false c).1
    have hc : 7 ≤ (classField (formatS c false)).toNat := by rw [hclass]; exact of_decide_eq_true h
    rw [encode, decode_of_class_reserved hc, hclass]

/-- Settles O1, format by format: the fields of an operation's word are its operands. -/
theorem decodeEncodeRoundTrip : Obligations.DecodeEncodeRoundTrip := decode_encode

/-! ## The bits of a word that take part in decoding (R82 to R85, R90) -/

/-- A word as its class, pin, kind, bit 8, pull and ignored low bits, the fields of format Q (R83); the fields
of formats P and S are unions of them (R84, R85). -/
def wordOfFields (c p : BitVec 4) (k : BitVec 3) (t u : BitVec 1) (r : BitVec 7) : EventWord :=
  c ++ p ++ k ++ t ++ u ++ r

/-- The bits of a word below its pull bit, which no operation but the register ones uses. -/
def lowField (w : EventWord) : BitVec 7 := w.extractLsb' 0 7

theorem ofBool_getLsbD (w : EventWord) (i : Nat) : BitVec.ofBool (w.getLsbD i) = w.extractLsb' i 1 := by
  ext j hj
  simp [show j = 0 by omega]

theorem wordOfFields_fields (w : EventWord) :
    wordOfFields (classField w) (BitVec.ofFin (w := 4) (pinField w)) (kindField w) (BitVec.ofBool (bit8Field w))
      (BitVec.ofBool (pullField w)) (lowField w) = w := by
  simp only [bit8Field, pullField, ofBool_getLsbD]
  change w.extractLsb' 16 4 ++ w.extractLsb' 12 4 ++ w.extractLsb' 9 3 ++ w.extractLsb' 8 1 ++ w.extractLsb' 7 1
    ++ w.extractLsb' 0 7 = w
  repeat rw [BitVec.extractLsb'_append_extractLsb'_eq_extractLsb' (by rfl)]
  exact BitVec.extractLsb'_eq_self

theorem wordOfFields_and (c p c' p' : BitVec 4) (k k' : BitVec 3) (t u t' u' : BitVec 1) (r r' : BitVec 7) :
    wordOfFields c p k t u r &&& wordOfFields c' p' k' t' u' r' =
      wordOfFields (c &&& c') (p &&& p') (k &&& k') (t &&& t') (u &&& u') (r &&& r') := by
  have h : (c ++ p ++ k ++ t ++ u ++ r) &&& (c' ++ p' ++ k' ++ t' ++ u' ++ r') =
      (c &&& c') ++ (p &&& p') ++ (k &&& k') ++ (t &&& t') ++ (u &&& u') ++ (r &&& r') := by
    simp only [BitVec.and_append]
  exact h

theorem and_wordOfFields (w : EventWord) (c p : BitVec 4) (k : BitVec 3) (t u : BitVec 1) (r : BitVec 7) :
    w &&& wordOfFields c p k t u r =
      wordOfFields (classField w &&& c) (BitVec.ofFin (w := 4) (pinField w) &&& p) (kindField w &&& k)
        (BitVec.ofBool (bit8Field w) &&& t) (BitVec.ofBool (pullField w) &&& u) (lowField w &&& r) := by
  rw [← wordOfFields_and, wordOfFields_fields]

theorem formatA_fields (w : EventWord) : formatA (classField w) (addrField w) (dataField w) = w := by
  change w.extractLsb' 16 4 ++ w.extractLsb' 8 8 ++ w.extractLsb' 0 8 = w
  repeat rw [BitVec.extractLsb'_append_extractLsb'_eq_extractLsb' (by rfl)]
  exact BitVec.extractLsb'_eq_self

theorem formatA_and_mask (c : BitVec 4) (a v : Byte) : formatA c a v &&& 0xFFF00 = formatA c a 0 := by
  have h : (c ++ a ++ v) &&& (BitVec.allOnes 4 ++ BitVec.allOnes 8 ++ 0#8) = c ++ a ++ 0#8 := by
    simp only [BitVec.and_append, BitVec.and_allOnes, BitVec.and_zero]
  exact h

/-- The mask with each field taken whole or not at all. -/
def maskOf (c p k t u : Bool) : EventWord :=
  wordOfFields (if c then .allOnes 4 else 0) (if p then .allOnes 4 else 0) (if k then .allOnes 3 else 0)
    (if t then .allOnes 1 else 0) (if u then .allOnes 1 else 0) 0

/-- Under a mask that takes each field whole or not at all, a word keeps the fields taken. -/
theorem and_maskOf (w : EventWord) (c p k t u : Bool) :
    w &&& maskOf c p k t u = wordOfFields (if c then classField w else 0)
      (if p then BitVec.ofFin (w := 4) (pinField w) else 0) (if k then kindField w else 0)
      (BitVec.ofBool (t && bit8Field w)) (BitVec.ofBool (u && pullField w)) 0 := by
  rw [maskOf, and_wordOfFields]
  congr 1
  · cases c
    · exact BitVec.and_zero
    · exact BitVec.and_allOnes
  · cases p
    · exact BitVec.and_zero
    · exact BitVec.and_allOnes
  · cases k
    · exact BitVec.and_zero
    · exact BitVec.and_allOnes
  · cases t
    · exact BitVec.and_zero
    · exact BitVec.and_allOnes
  · cases u
    · exact BitVec.and_zero
    · exact BitVec.and_allOnes
  · exact BitVec.and_zero

/-- The used bits of a word of class 2, kind by kind (R83). -/
theorem usedBits_of_class_two {w : EventWord} (h : classField w = 0x2) : usedBits w =
    match (kindField w).toNat with
    | 0 => maskOf true true true true false
    | 3 => maskOf true true true true true
    | 5 => maskOf true true true true true
    | 7 => maskOf true true true false false
    | _ => maskOf true true true false true := by
  rw [usedBits, h]
  rfl

/-- `w` decodes to a well-formed operation, whose word is `w` without its ignored bits. -/
abbrev decodesCanonically (w : EventWord) : Prop :=
  (decode w).wellFormed = true ∧ encode (decode w) = w &&& usedBits w

theorem decodesCanonically_of_class_zero {w : EventWord} (h : classField w = 0x0) : decodesCanonically w := by
  have hword : formatA 0 (addrField w) 0 = w &&& usedBits w := by
    have hused : usedBits w = 0xFFF00 := by rw [usedBits, h]; rfl
    rw [hused, ← formatA_and_mask 0 (addrField w) (dataField w), ← h, formatA_fields]
  rw [decodesCanonically, decode_of_class_zero h, ← hword]
  cases hreg : regOfAddr (addrField w) with
  | none =>
    rw [decodeRd_of_none hreg]
    exact ⟨decide_eq_true ((regOfAddr_eq_none_iff _).mp hreg), rfl⟩
  | some t =>
    rw [decodeRd_of_some hreg, encode_rdInstr, addrOf_regOfAddr hreg]
    exact ⟨rdInstr_wellFormed _ _, rfl⟩

theorem decodesCanonically_of_class_one {w : EventWord} (h : classField w = 0x1) : decodesCanonically w := by
  have hword : formatA 1 (addrField w) (dataField w) = w &&& usedBits w := by
    have hused : usedBits w = .allOnes 20 := by rw [usedBits, h]; rfl
    rw [hused, BitVec.and_allOnes, ← h, formatA_fields]
  rw [decodesCanonically, decode_of_class_one h, ← hword]
  cases hreg : regOfAddr (addrField w) with
  | none =>
    rw [decodeWr_undef hreg]
    exact ⟨decide_eq_true ((regOfAddr_eq_none_iff _).mp hreg), rfl⟩
  | some t =>
    rw [decodeWr_of_some hreg, encode_wrInstr, addrOf_regOfAddr hreg]
    exact ⟨wrInstr_wellFormed _ _ _, rfl⟩

theorem decodesCanonically_of_class_two {w : EventWord} (h : classField w = 0x2) : decodesCanonically w := by
  have hkinds : ∀ k : BitVec 3, k = 0 ∨ k = 1 ∨ k = 2 ∨ k = 3 ∨ k = 4 ∨ k = 5 ∨ k = 6 ∨ k = 7 := by decide
  rw [decodesCanonically, decode_of_class_two h, usedBits_of_class_two h]
  rcases hkinds (kindField w) with hk | hk | hk | hk | hk | hk | hk | hk <;>
  · rw [hk]
    refine ⟨rfl, Eq.trans ?_ (and_maskOf w _ _ _ _ _).symm⟩
    rw [hk, h]
    rfl

theorem formatP_eq (c : BitVec 4) (p : Pin) (l : Level) :
    formatP c p l = wordOfFields c (BitVec.ofFin (w := 4) p) 0 (BitVec.ofBool l) 0 0 := by
  revert c p l; decide

theorem formatS_eq (c : BitVec 4) (b : Bool) : formatS c b = wordOfFields c 0 0 (BitVec.ofBool b) 0 0 := by
  revert c b; decide

/-- The used bits of RESET and of the reserved classes are the class alone (R85, R88). -/
theorem usedBits_of_six_le {w : EventWord} (h : 6 ≤ (classField w).toNat) :
    usedBits w = maskOf true false false false false := by
  unfold usedBits
  generalize (classField w).toNat = n at h
  match n, h with
  | n + 6, _ => rfl

theorem decodesCanonically_of_class_above {w : EventWord} (h : 2 < (classField w).toNat) : decodesCanonically w := by
  have hclasses : ∀ c : BitVec 4, 2 < c.toNat → c = 3 ∨ c = 4 ∨ c = 5 ∨ c = 6 ∨ 7 ≤ c.toNat := by decide
  rcases hclasses _ h with h | h | h | h | h
  · have hused : usedBits w = maskOf true true false true false := by rw [usedBits, h]; rfl
    rw [decodesCanonically, decode_of_class_three h, hused, and_maskOf, h, encode, formatP_eq]
    exact ⟨rfl, rfl⟩
  · have hused : usedBits w = maskOf true true false false false := by rw [usedBits, h]; rfl
    rw [decodesCanonically, decode_of_class_four h, hused, and_maskOf, h, encode, formatP_eq]
    exact ⟨rfl, rfl⟩
  · have hused : usedBits w = maskOf true false false true false := by rw [usedBits, h]; rfl
    rw [decodesCanonically, decode_of_class_five h, hused, and_maskOf, h, encode, formatS_eq, Port.toBit_ofBit]
    exact ⟨rfl, rfl⟩
  · have hused := @usedBits_of_six_le w (by rw [h]; decide)
    rw [decodesCanonically, decode_of_class_six h, hused, and_maskOf, h, encode, formatS_eq]
    exact ⟨rfl, rfl⟩
  · have hused := @usedBits_of_six_le w (by omega)
    rw [decodesCanonically, decode_of_class_reserved h, hused, and_maskOf, encode, formatS_eq]
    exact ⟨decide_eq_true h, rfl⟩

theorem word_decodesCanonically (w : EventWord) : decodesCanonically w := by
  have hclasses : ∀ c : BitVec 4, c = 0 ∨ c = 1 ∨ c = 2 ∨ 2 < c.toNat := by decide
  rcases hclasses (classField w) with h | h | h | h
  · exact decodesCanonically_of_class_zero h
  · exact decodesCanonically_of_class_one h
  · exact decodesCanonically_of_class_two h
  · exact decodesCanonically_of_class_above h

/-- Settles O2, class by class and, in class 2, kind by kind. -/
theorem encodeDecodeKeepsUsedBits : Obligations.EncodeDecodeKeepsUsedBits := word_decodesCanonically

/-- The class takes part in decoding in every word. -/
theorem classField_usedBits (w : EventWord) : classField (usedBits w) = .allOnes 4 := by
  unfold usedBits
  split
  case h_3 => split <;> decide
  all_goals decide

/-- In class 2 the kind takes part too. -/
theorem kindField_usedBits {w : EventWord} (h : classField w = 0x2) : kindField (usedBits w) = .allOnes 3 := by
  rw [usedBits_of_class_two h]
  split <;> decide

theorem classField_and (w m : EventWord) : classField (w &&& m) = classField w &&& classField m :=
  BitVec.extractLsb'_and

theorem kindField_and (w m : EventWord) : kindField (w &&& m) = kindField w &&& kindField m :=
  BitVec.extractLsb'_and

theorem usedBits_congr {w v : EventWord} (hclass : classField w = classField v)
    (hkind : classField w = 0x2 → kindField w = kindField v) : usedBits w = usedBits v := by
  unfold usedBits
  rw [← hclass]
  split
  case h_3 h => rw [hkind (BitVec.eq_of_toNat_eq h)]
  all_goals rfl

/-- Words that agree on the used bits of the first have the same used bits. -/
theorem usedBits_eq_of_agree {w v : EventWord} (h : w &&& usedBits w = v &&& usedBits w) :
    usedBits w = usedBits v := by
  refine usedBits_congr ?_ fun hclass => ?_
  · have hc := congrArg classField h
    rwa [classField_and, classField_and, classField_usedBits, BitVec.and_allOnes, BitVec.and_allOnes] at hc
  · have hk := congrArg kindField h
    rwa [kindField_and, kindField_and, kindField_usedBits hclass, BitVec.and_allOnes, BitVec.and_allOnes] at hk

/-- Settles O3: the two words have one canonical word, which decodes to the operation of each. -/
theorem ignoredBitsDoNotDecode : Obligations.IgnoredBitsDoNotDecode := by
  intro w v h
  obtain ⟨hwf_w, hword_w⟩ := word_decodesCanonically w
  obtain ⟨hwf_v, hword_v⟩ := word_decodesCanonically v
  have hword : encode (decode v) = encode (decode w) := by
    rw [hword_v, hword_w, h, usedBits_eq_of_agree h]
  rw [← decode_encode _ hwf_v, hword, decode_encode _ hwf_w]

/-! ## The opcode map, word by word -/

/-- Settles O4: the address map of class 0. -/
theorem readWordsDecodeByAddress : Obligations.ReadWordsDecodeByAddress := by
  intro w hclass
  rw [decode_of_class_zero hclass]
  refine ⟨?_, ?_, ?_, ?_, ?_, ?_, ?_, ?_, ?_, ?_, ?_, ?_, ?_, ?_, ?_, ?_, ?_, ?_, ?_, ?_, ?_, ?_,
    fun h => decodeRd_of_none ((regOfAddr_eq_none_iff _).mpr h)⟩
  all_goals intro h; rw [h]; rfl

/-- Settles O5: the address map of class 1. -/
theorem writeWordsDecodeByAddress : Obligations.WriteWordsDecodeByAddress := by
  intro w hclass v
  rw [decode_of_class_one hclass]
  refine ⟨?_, ?_, ?_, ?_, ?_, ?_, ?_, ?_, ?_, ?_, ?_, ?_, ?_, ?_, ?_, ?_, ?_, ?_, ?_, ?_, ?_, ?_,
    fun h => decodeWr_undef ((regOfAddr_eq_none_iff _).mpr h) v⟩
  all_goals intro h; rw [h]; rfl

/-- Settles O6: the kinds of class 2, then the classes above. -/
theorem otherWordsDecodeByClassAndKind : Obligations.OtherWordsDecodeByClassAndKind := by
  intro w p bit8 u
  refine ⟨fun hclass => ?kinds, decode_of_class_three, decode_of_class_four, decode_of_class_five,
    decode_of_class_six, decode_of_class_reserved⟩
  case kinds =>
    rw [decode_of_class_two hclass]
    refine ⟨?_, ?_, ?_, ?_, ?_, ?_, ?_, ?_⟩
    all_goals intro hkind; rw [hkind]; rfl

/-- Settles O7: eighteen closed words, decoded. -/
theorem exampleWordsDecode : Obligations.ExampleWordsDecode := by
  unfold Obligations.ExampleWordsDecode; decide

end Sys2Proof
end

section
/-! The state and the register port: the 16-bit view (spec/20_memory.md R66), the step (R70), the two
primitives of the register address space (R63, R64), the reads that only return a stored byte, and the writes
that originate no request (spec/40_register_port.md). -/

namespace Sys2Proof.Machine

/-- Settles O60: port B is the high byte, so that bit `p` is bit `p` of A or bit `p - 8` of B. -/
theorem view16BitsArePins : Obligations.View16BitsArePins := by
  intro ty s p
  rw [State.view16, BitVec.getLsbD_append, State.regBit, bitAt, portOf, bitOf]
  by_cases hp : p.val < 8
  · rw [if_pos hp, if_pos hp]
    exact congrArg _ (Nat.mod_eq_of_lt hp).symm
  · rw [if_neg hp, if_neg hp]
    exact congrArg _ (show p.val - 8 = p.val % 8 by omega)

/-- Settles O8: the step after the fetch. -/
theorem stepRunsDecodedWord : Obligations.StepRunsDecodedWord :=
  fun _ => ⟨fun _ _ hword => step_of_fetch_some (fetch_cons hword), fun hidle => step_of_fetch_none (fetch_nil hidle)⟩

/-! ## Reads and writes by register type -/

theorem exec_rdInstr (t : RegType) (x : Port) (s : State) :
    exec (rdInstr t x) s = .next (returning (readReg t x s)) := by
  cases t <;> rfl

theorem exec_wrInstr (t : RegType) (x : Port) (v : Byte) (s : State) :
    exec (wrInstr t x v) s = .next (writeReg t x v s) := by
  cases t <;> rfl

/-- Settles O10: `RegRead` and the decoder follow one address map. -/
theorem readEventIsRegRead : Obligations.ReadEventIsRegRead := by
  intro a ignored s
  rw [decode_formatA_rd, regRead]
  cases hreg : regOfAddr a with
  | none => rw [decodeRd_of_none hreg]; rfl
  | some t => rw [decodeRd_of_some hreg, exec_rdInstr]; rfl

/-- Settles O11: `RegWrite` and the decoder follow one address map. -/
theorem writeEventIsRegWrite : Obligations.WriteEventIsRegWrite := by
  intro a v s
  rw [decode_formatA_wr, regWrite]
  cases hreg : regOfAddr a with
  | none => rw [decodeWr_undef hreg]; rfl
  | some t => rw [decodeWr_of_some hreg, exec_wrInstr]

/-! ## Reads without a side effect -/

/-- A read of a register type that returns the byte `v` and leaves the state. -/
theorem exec_rdInstr_of_readReg {t : RegType} {x : Port} {s : State} {v : Byte} (h : readReg t x s = (v, s)) :
    exec (rdInstr t x) s = .next { s with ret := some v } := by
  rw [exec_rdInstr, h]; rfl

/-- Settles O13: each of the six read rules returns the register and the state. -/
theorem storedRegistersRead : Obligations.StoredRegistersRead := fun _ =>
  ⟨⟨exec_rdInstr_of_readReg (t := .iodir) (x := .a) rfl, exec_rdInstr_of_readReg (t := .iodir) (x := .b) rfl⟩,
    ⟨exec_rdInstr_of_readReg (t := .gpinten) (x := .a) rfl, exec_rdInstr_of_readReg (t := .gpinten) (x := .b) rfl⟩,
    ⟨exec_rdInstr_of_readReg (t := .defval) (x := .a) rfl, exec_rdInstr_of_readReg (t := .defval) (x := .b) rfl⟩,
    ⟨exec_rdInstr_of_readReg (t := .gppu) (x := .a) rfl, exec_rdInstr_of_readReg (t := .gppu) (x := .b) rfl⟩,
    ⟨exec_rdInstr_of_readReg (t := .intf) (x := .a) rfl, exec_rdInstr_of_readReg (t := .intf) (x := .b) rfl⟩,
    ⟨exec_rdInstr_of_readReg (t := .olat) (x := .a) rfl, exec_rdInstr_of_readReg (t := .olat) (x := .b) rfl⟩⟩

/-- Settles O14: `IOCON` is one byte for both ports, and the other two reads return a constant. -/
theorem decidedRegisterReads : Obligations.DecidedRegisterReads := fun x _ _ =>
  ⟨exec_rdInstr_of_readReg (t := .iocon) (x := x) rfl, exec_rdInstr_of_readReg (t := .intcap) (x := x) rfl, rfl⟩

/-! ## Writes that originate no request -/

/-- The register types whose write is ignored (R112, R115 to R119). -/
def writeIgnored (t : RegType) : Prop :=
  t = .ipol ∨ t = .intcon ∨ t = .iocon ∨ t = .intf ∨ t = .intcap ∨ t = .gpio

theorem exec_wrInstr_of_ignored {t : RegType} (h : writeIgnored t) (x : Port) (v : Byte) (s : State) :
    exec (wrInstr t x v) s = .next s := by
  rcases h with rfl | rfl | rfl | rfl | rfl | rfl <;> rfl

/-- Settles O16: six writes by `writeIgnored`, and two words that are no operation. -/
theorem ignoredEventsChangeNothing : Obligations.IgnoredEventsChangeNothing := fun x v _ _ s =>
  ⟨exec_wrInstr_of_ignored (t := .ipol) (by simp [writeIgnored]) x v s,
    exec_wrInstr_of_ignored (t := .intcon) (by simp [writeIgnored]) x v s,
    exec_wrInstr_of_ignored (t := .iocon) (by simp [writeIgnored]) x v s,
    exec_wrInstr_of_ignored (t := .intf) (by simp [writeIgnored]) x v s,
    exec_wrInstr_of_ignored (t := .intcap) (by simp [writeIgnored]) x v s,
    exec_wrInstr_of_ignored (t := .gpio) (by simp [writeIgnored]) x v s, rfl, rfl⟩

/-- Settles O18: the words of type index 3, then the one field that the write replaces. -/
theorem wrDefvalStoresWhole : Obligations.WrDefvalStoresWhole := by
  refine ⟨fun w hclass hindex => ?_, fun v s => ⟨rfl, rfl⟩⟩
  rw [decode_of_class_one hclass, decodeWr_of_some (regOfAddr_of_index .defval hindex), portOfAddr]; rfl

end Sys2Proof.Machine
end

section
/-! Interrupt outputs (spec/60_exceptions.md R199 to R203): the two levels of an output, and which one the
flags give. -/

namespace Sys2Proof.Machine

/-- An asserted interrupt output in the three configurations (R200): `ODR` (bit 2) pulled low, else push-pull at
`INTPOL` (bit 1). -/
def IntPin.asserted (iocon : Byte) : IntPin :=
  if iocon.getLsbD 2 then { mode := .openDrain, level := false }
  else { mode := .pushPull, level := iocon.getLsbD 1 }

theorem IntPin.asserted_ne_idle (iocon : Byte) : IntPin.asserted iocon ≠ IntPin.idle iocon := by
  unfold IntPin.asserted IntPin.idle
  split <;> simp

theorem IntPin.asserted_mode (iocon : Byte) : (IntPin.asserted iocon).mode = (IntPin.idle iocon).mode := by
  unfold IntPin.asserted IntPin.idle
  split <;> rfl

/-- The output of a port with flags `own`, beside a port with flags `other`, is asserted (R199; MIRROR is
bit 6). -/
def outputAsserted (iocon own other : Byte) : Bool := own != 0x00 || (iocon.getLsbD 6 && other != 0x00)

/-- The pin of an interrupt output, asserted or idle. -/
def outputPin (iocon : Byte) (on : Bool) : IntPin := if on then IntPin.asserted iocon else IntPin.idle iocon

/-- `IntOut` drives both outputs by one rule, each with its own port first (R199). -/
theorem intOut_eq (iocon fa fb : Byte) :
    intOut iocon fa fb = (outputPin iocon (outputAsserted iocon fa fb),
      outputPin iocon (outputAsserted iocon fb fa)) := by
  unfold intOut outputPin outputAsserted IntPin.asserted IntPin.idle
  generalize (fa != 0x00) = a
  generalize (fb != 0x00) = b
  generalize iocon.getLsbD 6 = mirror
  generalize iocon.getLsbD 2 = odr
  generalize iocon.getLsbD 1 = intpol
  revert a b mirror odr intpol
  decide

theorem outputAsserted_iff (iocon own other : Byte) : outputAsserted iocon own other = true ↔
    own ≠ 0x00 ∨ (iocon.getLsbD 6 = true ∧ other ≠ 0x00) := by
  rw [outputAsserted, Bool.or_eq_true, Bool.and_eq_true, bne_iff_ne, bne_iff_ne]

theorem outputAsserted_iff_of_mirror (iocon own other : Byte) : outputAsserted iocon own other = true ↔
    if iocon.getLsbD 6 then own ≠ 0x00 ∨ other ≠ 0x00 else own ≠ 0x00 := by
  rw [outputAsserted_iff]
  cases iocon.getLsbD 6 <;> simp only [Bool.false_eq_true, if_false, if_true, false_and, or_false, true_and]

/-- The levels of one output in the three configurations of R200. -/
theorem outputPin_levels (iocon : Byte) (on : Bool) :
    (iocon.getLsbD 2 = false → iocon.getLsbD 1 = false →
      (outputPin iocon on = ⟨.pushPull, false⟩ ↔ on = true) ∧ (outputPin iocon on = ⟨.pushPull, true⟩ ↔ ¬on = true)) ∧
    (iocon.getLsbD 2 = false → iocon.getLsbD 1 = true →
      (outputPin iocon on = ⟨.pushPull, true⟩ ↔ on = true) ∧ (outputPin iocon on = ⟨.pushPull, false⟩ ↔ ¬on = true)) ∧
    (iocon.getLsbD 2 = true →
      (outputPin iocon on = ⟨.openDrain, false⟩ ↔ on = true) ∧
      (outputPin iocon on = ⟨.openDrain, true⟩ ↔ ¬on = true)) := by
  unfold outputPin IntPin.asserted IntPin.idle
  generalize iocon.getLsbD 2 = odr
  generalize iocon.getLsbD 1 = intpol
  revert on odr intpol
  decide

/-- Settles O44: both outputs follow `outputPin`, whose levels are those of R200. -/
theorem interruptOutputLevels : Obligations.InterruptOutputLevels := by
  intro iocon fa fb o assertedA assertedB
  have hA : o.1 = outputPin iocon (outputAsserted iocon fa fb) := congrArg Prod.fst (intOut_eq iocon fa fb)
  have hB : o.2 = outputPin iocon (outputAsserted iocon fb fa) := congrArg Prod.snd (intOut_eq iocon fa fb)
  have hassertedA : outputAsserted iocon fa fb = true ↔ assertedA := outputAsserted_iff_of_mirror iocon fa fb
  have hassertedB : outputAsserted iocon fb fa = true ↔ assertedB := by
    rw [outputAsserted_iff_of_mirror, or_comm]
  obtain ⟨lowA, highA, openA⟩ := outputPin_levels iocon (outputAsserted iocon fa fb)
  obtain ⟨lowB, highB, openB⟩ := outputPin_levels iocon (outputAsserted iocon fb fa)
  rw [← hA, hassertedA] at lowA highA openA
  rw [← hB, hassertedB] at lowB highB openB
  refine ⟨fun hodr hpol => ?_, fun hodr hpol => ?_, fun hodr => ?_⟩
  · exact ⟨(lowA hodr hpol).1, (lowA hodr hpol).2, lowB hodr hpol⟩
  · exact ⟨(highA hodr hpol).1, (highA hodr hpol).2, highB hodr hpol⟩
  · exact ⟨(openA hodr).1, (openA hodr).2, openB hodr⟩

theorem outputPin_eq_idle_iff (iocon : Byte) (on : Bool) : outputPin iocon on = IntPin.idle iocon ↔ on = false := by
  cases on
  · exact iff_of_true rfl rfl
  · exact iff_of_false (IntPin.asserted_ne_idle iocon) Bool.noConfusion

theorem outputPin_mode (iocon : Byte) (on : Bool) : (outputPin iocon on).mode = (IntPin.idle iocon).mode := by
  cases on
  · rfl
  · exact IntPin.asserted_mode iocon

/-- The output of each port, where the outputs follow the flags. -/
theorem intPin_of_outputsFollow {s : State} (h : outputsFollow s) {x y : Port} (hxy : y ≠ x) :
    s.intPin x = outputPin s.iocon (outputAsserted s.iocon (s.reg .intf x) (s.reg .intf y)) := by
  obtain ⟨hA, hB⟩ := h
  rw [intOut_eq] at hA hB
  cases x with
  | a =>
    cases y with
    | a => exact absurd rfl hxy
    | b => exact hA
  | b =>
    cases y with
    | a => exact hB
    | b => exact absurd rfl hxy

theorem reg_ne_zero_of_regBit {s : State} {ty : RegType} {p : Pin} (h : s.regBit ty p = true) :
    s.reg ty (portOf p) ≠ 0x00 := by
  intro hzero
  rw [State.regBit, hzero, bitAt_zero] at h
  exact Bool.false_ne_true h

theorem exists_port_ne (x : Port) : ∃ y, y ≠ x := by
  cases x
  · exact ⟨.b, by decide⟩
  · exact ⟨.a, by decide⟩

/-- Settles O45: the flag set is one of the port's flags, and the outputs follow. -/
theorem flagRaisedAssertsOutput : Obligations.FlagRaisedAssertsOutput := by
  intro p s t
  have hflag : t.regBit .intf p = true := by simp [t]
  have houtputs : outputsFollow t := raiseFlag_outputsFollow p s
  have hiocon : t.iocon = s.iocon := raiseFlag_iocon p s
  obtain ⟨y, hy⟩ := exists_port_ne (portOf p)
  have hpin := intPin_of_outputsFollow houtputs hy
  have hon : outputAsserted t.iocon (t.reg .intf (portOf p)) (t.reg .intf y) = true :=
    (outputAsserted_iff _ _ _).mpr (.inl (reg_ne_zero_of_regBit hflag))
  rw [hon, hiocon] at hpin
  refine ⟨hflag, ?asserted, ?mode, by simp [t, raiseFlag, updateInt], fun ty q hw => ?bits, raiseFlag_out p s,
    ⟨raiseFlag_cfg p s, hiocon, raiseFlag_ext p s, raiseFlag_inbox p s⟩, raiseFlag_ret p s, houtputs⟩
  case asserted => rw [hpin]; exact IntPin.asserted_ne_idle _
  case mode => rw [hpin, outputPin_mode]
  case bits => rw [raiseFlag_regBit, if_neg fun h => hw ⟨h.2, h.1⟩]

/-- Settles O46: after the read the port has no flag, so that only mirroring can assert its output. -/
theorem gpioReadReleasesOutput : Obligations.GpioReadReleasesOutput := by
  intro x y s hxy t
  have hread : ReadsPort x s t := gpioRead_readsPort x s
  have hclear : t.reg .intf x = 0x00 := by rw [hread.reg _ _ (by decide)]; simp
  have hother : t.reg .intf y = s.reg .intf y := by rw [hread.reg _ _ (by decide)]; simp [hxy]
  have hpinX := intPin_of_outputsFollow hread.outputs hxy
  have hpinY := intPin_of_outputsFollow hread.outputs hxy.symm
  rw [hclear, hother, hread.iocon] at hpinX hpinY
  refine ⟨hclear, fun hfree => ?released, fun hmirror hflag => ⟨?staysX, ?staysY⟩⟩
  case released =>
    rw [hpinX, outputPin_eq_idle_iff, Bool.eq_false_iff, Ne, outputAsserted_iff]
    rintro (hown | ⟨hmirror, hflag⟩)
    · exact hown rfl
    · rcases hfree with hfree | hfree
      · exact Bool.false_ne_true (hfree.symm.trans hmirror)
      · exact hflag hfree
  case staysX =>
    rw [hpinX, (outputAsserted_iff _ _ _).mpr (.inr ⟨hmirror, hflag⟩)]
    exact IntPin.asserted_ne_idle _
  case staysY =>
    rw [hpinY, (outputAsserted_iff _ _ _).mpr (.inl hflag)]
    exact IntPin.asserted_ne_idle _

end Sys2Proof.Machine
end

section
/-! The procedures of the request port and the four requests REQ.OUT, REQ.WSTATE, REQ.WSPEC and REQ.WATCH
(spec/41_request_port.md R143 to R148, R151, R153, R154). -/

namespace Sys2Proof.Machine

/-! ## Complete, Arm and Disarm -/

/-- Settles O32: the views of `complete`. -/
theorem completeEndsTheWait : Obligations.CompleteEndsTheWait := by
  intro p r s t
  refine ⟨by simp [t], by simp [t], by simp [t], complete_out p r s, fun q hq => ?record, fun ty q hw => ?bits,
    ⟨complete_cfg p r s, complete_iocon p r s, complete_ext p r s, complete_inbox p r s⟩, complete_ret p r s,
    complete_outputsFollow p r s⟩
  case record => rw [complete_pin, if_neg hq]
  case bits => rw [complete_regBit, if_neg fun h => hw ⟨h.2, h.1⟩]

/-- Settles O34: the views of `arm` and of `disarm`. -/
theorem armAndDisarmOnePin : Obligations.ArmAndDisarmOnePin := by
  intro p l s
  refine ⟨?arm, ?disarm⟩
  case arm =>
    refine ⟨by simp, by simp, fun q hq => ?armRecord, fun ty q hw => ?armBits, arm_intA p l s, arm_intB p l s,
      arm_out p l s, ⟨arm_cfg p l s, arm_iocon p l s, arm_ext p l s, arm_inbox p l s⟩, arm_ret p l s⟩
    case armRecord => rw [arm_pin, if_neg hq]
    case armBits => rw [arm_regBit, if_neg fun h => hw ⟨h.2, h.1⟩]
  case disarm =>
    refine ⟨by simp, by simp, by simp [disarm, updateInt], fun ty q hw => ?disarmBits, disarm_outputsFollow p s,
      disarm_out p s, ⟨disarm_cfg p s, disarm_iocon p s, disarm_ext p s, disarm_inbox p s⟩, disarm_ret p s⟩
    case disarmBits => rw [disarm_regBit, if_neg fun h => hw ⟨h.2, h.1⟩]

/-! ## Requests -/

theorem exec_reqOut (p : Pin) (l : Level) (s : State) :
    exec (.reqOut p l) s = .next (assign p (.output l) s) := rfl

theorem exec_reqWstate (p : Pin) (t : Level) (u : Pull) (s : State) :
    exec (.reqWstate p t u) s = .next (assign p (.waitState u t) s) := rfl

theorem exec_reqWspec (p : Pin) (t : Level) (u : Pull) (s : State) :
    exec (.reqWspec p t u) s = .next (assign p (.waitSpec u t) s) := rfl

theorem exec_reqWatch (p : Pin) (u : Pull) (s : State) :
    exec (.reqWatch p u) s = .next (assign p (.watch u) s) := rfl

/-- Settles O25: the views of the assignment of `Output`. -/
theorem reqOutResult : Obligations.ReqOutResult := by
  intro p l s
  obtain ⟨hpin, hbits, hout, houtside, hret, houtputs⟩ := assign_output p l s
  refine ⟨_, exec_reqOut p l s, by simp [hpin], by simp [hbits], by simp [hbits], by simp [hbits], by simp [hbits],
    hout, fun q hq => by rw [hpin, if_neg hq], fun ty q hw => ?bits, houtside, hret, houtputs⟩
  case bits =>
    rw [hbits]
    split
    · rename_i hq
      subst hq
      simp only [true_and, not_or] at hw
      simp [hw]
    · rfl

theorem KeepsBesidePin.of_setPin_arm {p : Pin} {l : Level} {e : State} (x : PinState) :
    KeepsBesidePin p e (arm p l (e.setPin p x)) where
  pin q hq := by simp [hq]
  regBit ty q h := by rw [arm_regBit, if_neg h, setPin_regBit]
  outside := ⟨by simp, by simp, by simp, by simp⟩
  ret := by simp
  outputs h := arm_outputsFollow p l (outputsFollow_of h (by simp) (by simp) (by simp) (by simp))

theorem KeepsBesidePin.of_append_arm {p : Pin} {l : Level} {e : State} (r : ResultEvent) :
    KeepsBesidePin p e (arm p l (e.append r)) where
  pin q hq := by simp [hq]
  regBit ty q h := by rw [arm_regBit, if_neg h, append_regBit]
  outside := ⟨by simp, by simp, by simp, by simp⟩
  ret := by simp
  outputs h := arm_outputsFollow p l (outputsFollow_of h (by simp) (by simp) (by simp) (by simp))

/-- Settles O28: the entry read of `EntryReads`, then `finish` at the target and `arm` away from it. -/
theorem reqWstateResult : Obligations.ReqWstateResult := by
  intro p tl u s
  refine ⟨_, exec_reqWstate p tl u s, ?_⟩
  have hread := gpioRead_inputStart p u (.waitState u tl) s
  rw [assign_waitState]
  by_cases hl : s.extLevel p = tl
  · rw [if_pos hl]
    refine ⟨fun _ => ⟨?record, ?armed, ?results⟩, fun h => absurd hl h,
      readsAtEntry_of_entryReads hread (finish_keepsBesidePin p _ _)⟩
    case record => rw [finish_pin, if_pos rfl, hread.pin_self]
    case armed => rw [finish_regBit, hread.gpinten_self]
    case results => exact appendsSome_of_out_eq (by rw [finish_out, hread.out])
  · rw [if_neg hl]
    refine ⟨fun h => absurd h hl, fun _ => ⟨?record', by simp, ?results'⟩,
      readsAtEntry_of_entryReads hread (arm_keepsBesidePin p _ _)⟩
    case record' => rw [arm_pin, if_pos rfl, hread.pin_self]
    case results' => exact appendsSome_of_out_eq (by rw [arm_out, hread.out, List.append_nil])

/-- Settles O30: the entry read, the edge count, then `arm`. -/
theorem reqWspecResult : Obligations.ReqWspecResult := by
  intro p tl u s
  refine ⟨_, exec_reqWspec p tl u s, ?_⟩
  have hread := gpioRead_inputStart p u (.waitSpec u tl) s
  rw [assign_waitSpec]
  refine ⟨?record, by simp, ?results, readsAtEntry_of_entryReads hread (.of_setPin_arm _)⟩
  case record => simp [hread.pin_self]
  case results => exact appendsSome_of_out_eq (by rw [arm_out, setPin_out, hread.out, List.append_nil])

/-- Settles O31: the entry read, its `EMIT`, then `arm`. -/
theorem reqWatchResult : Obligations.ReqWatchResult := by
  intro p u s
  refine ⟨_, exec_reqWatch p u s, ?_⟩
  have hread := gpioRead_inputStart p u (.watch u) s
  rw [assign_watch]
  refine ⟨?record, by simp, ?results, readsAtEntry_of_entryReads hread (.of_append_arm _)⟩
  case record => simp [hread.pin_self]
  case results => exact appendsSome_of_out_eq (by rw [arm_out, append_out, hread.out])

end Sys2Proof.Machine
end

section
/-! Pin events and the Coordinator (spec/42_pin_events.md): `Advance` as one delivery (R177), the compound read
and the events that take one (R110, R175, R176), PIN and POLL (R171, R173). -/

namespace Sys2Proof.Machine

/-! ## Advance as one delivery (R177) -/

/-- `t` has the flags and the interrupt outputs of `s`. -/
structure KeepsFlags (s t : State) : Prop where
  intf : ∀ q, t.regBit .intf q = s.regBit .intf q
  intA : t.intA = s.intA
  intB : t.intB = s.intB

theorem KeepsFlags.refl (s : State) : KeepsFlags s s := ⟨fun _ => rfl, rfl, rfl⟩

/-- A delivery leaves the pin armed with all flags kept, or ends its wait with `complete`. -/
theorem resume_keeps_or_completes (p : Pin) (f l : Level) (r : Option Request) (s : State) :
    ((deliverTo p (s.pin p) f l r).armed = true ∧ KeepsFlags s (resume p f l r s)) ∨
    ((deliverTo p (s.pin p) f l r).armed = false ∧ ∃ v e, resume p f l r s = complete p v e) := by
  have hkeeps := KeepsFlags.refl s
  match r with
  | some (.waitState u t) =>
    rw [resume_waitState]
    by_cases hl : l = t
    · exact .inr ⟨by simp [deliverTo, hl, Delivery.ends], t, s, if_pos hl⟩
    · exact .inl ⟨by simp [deliverTo, hl, Delivery.nothing], by rwa [if_neg hl]⟩
  | some (.waitAny _) =>
    cases f
    · exact .inl ⟨rfl, hkeeps⟩
    · exact .inr ⟨rfl, l, s, rfl⟩
  | some (.waitSpec _ t) =>
    cases f
    · exact .inl ⟨rfl, hkeeps⟩
    · by_cases hr : (s.pin p).ews.rem = 2
      · exact .inl ⟨by simp [deliverTo, hr, Delivery.nothing], by
          rw [resume_waitSpec_two_left hr]; exact ⟨fun q => setPin_regBit s p _ _ q, rfl, rfl⟩⟩
      · refine .inr ⟨by simp [deliverTo, hr, Delivery.ends], t,
          s.setPin p { s.pin p with ews := { (s.pin p).ews with rem := 0 } }, ?_⟩
        simp only [resume, decRem_eq, if_neg hr]; rfl
  | some (.watch _) =>
    cases f
    · exact .inl ⟨rfl, hkeeps⟩
    · exact .inl ⟨rfl, fun q => append_regBit s _ _ q, rfl, rfl⟩
  | some (.output _) | some (.inNone _) | some (.inRead _) | none => exact .inl ⟨rfl, hkeeps⟩

theorem advance_keeps_or_completes (p : Pin) (f l : Level) (s : State) :
    let d := deliver p (s.pin p) (s.regBit .gpinten p) f l
    (d.armed = s.regBit .gpinten p ∧ KeepsFlags s (advance p f l s)) ∨
    (d.armed ≠ s.regBit .gpinten p ∧ ∃ v e, advance p f l s = complete p v e) := by
  intro d
  by_cases h : (s.pin p).st = .processing ∧ s.regBit .gpinten p = true
  · obtain ⟨hst, harmed⟩ := h
    have hd : d = deliverTo p (s.pin p) f l (s.pin p).req := if_pos ⟨hst, harmed⟩
    rw [advance_of_suspended hst harmed, hd, harmed]
    rcases resume_keeps_or_completes p f l (s.pin p).req s with ⟨hstays, hkeeps⟩ | ⟨hends, hcompletes⟩
    · exact .inl ⟨hstays, hkeeps⟩
    · exact .inr ⟨by rw [hends]; decide, hcompletes⟩
  · have hd : d = .nothing (s.pin p) (s.regBit .gpinten p) := if_neg h
    rw [advance_of_not_suspended (by simpa [imp_iff_not_or] using h), hd]
    exact .inl ⟨rfl, .refl s⟩

/-- Settles O40: `DeliversTo` for the pin, and its flag by whether the wait ended. -/
theorem deliveryToOnePin : Obligations.DeliveryToOnePin := by
  intro p f l s d t
  have hdel : DeliversTo p d s t := advance_deliversTo p f l s
  have hbits : keepsBitsBut (fun ty q => q = p ∧ (ty = .gpinten ∨ ty = .intf)) s t := fun ty q hw => by
    by_cases hty : ty = .intf
    · subst hty
      exact hdel.intf_of_ne q fun hq => hw ⟨hq, .inr rfl⟩
    · rw [hdel.regBit ty q hty, if_neg fun h => hw ⟨h.2, .inl h.1⟩]
  have hpin : t.pin p = d.pin := by rw [hdel.pin, if_pos rfl]
  have harmed : t.regBit .gpinten p = d.armed := by rw [hdel.regBit _ _ (by decide), if_pos ⟨rfl, rfl⟩]
  have hpins : keepsPinsBut (fun q => q = p) s t := fun q hq => by rw [hdel.pin, if_neg hq]
  have houtside : keepsOutside s t := ⟨hdel.cfg, hdel.iocon, hdel.ext, hdel.inbox⟩
  rcases advance_keeps_or_completes p f l s with ⟨hstays, hkeeps⟩ | ⟨hends, v, e, hcompletes⟩
  · exact ⟨hpin, harmed, hdel.out, by rw [if_pos hstays]; exact hkeeps.intf p, hpins, hbits,
      fun _ => ⟨hkeeps.intA, hkeeps.intB⟩, fun h => absurd hstays h, houtside, hdel.ret⟩
  · have hflag : t.regBit .intf p = false := by simp only [t, hcompletes]; simp
    have houtputs : outputsFollow t := by simp only [t, hcompletes]; exact complete_outputsFollow p v e
    exact ⟨hpin, harmed, hdel.out, by rw [if_neg hends]; exact hflag, hpins, hbits, fun h => absurd h hends,
      fun _ => houtputs, houtside, hdel.ret⟩

/-! ## The compound read -/

section
variable {x : Port} {s t : State}

theorem ReadsPort.intf (h : ReadsPort x s t) (q : Pin) :
    t.regBit .intf q = if portOf q = x then false else s.regBit .intf q := by
  rw [State.regBit, h.reg _ _ (by decide)]
  split
  · rename_i hq; rw [if_pos hq.2]; exact bitAt_zero _
  · rename_i hq; rw [if_neg fun hx => hq ⟨rfl, hx⟩, if_neg (by simp)]; rfl

theorem ReadsPort.keepsBits (h : ReadsPort x s t) :
    keepsBitsBut (fun ty q => portOf q = x ∧ (ty = .gpio ∨ ty = .intf ∨ ty = .gpinten)) s t := fun ty q hw => by
  by_cases hg : ty = .gpinten
  · rw [hg, h.gpinten, if_neg fun hq => hw ⟨hq, .inr (.inr hg)⟩]
  · refine regBit_of_reg_eq ?_
    rw [h.reg ty _ hg, if_neg fun hi => hw ⟨hi.2, .inr (.inl hi.1)⟩, if_neg fun hi => hw ⟨hi.2, .inl hi.1⟩]

theorem ReadsPort.keepsPins (h : ReadsPort x s t) : keepsPinsBut (fun q => portOf q = x) s t := fun q hq => by
  rw [h.pin, if_neg hq]

theorem ReadsPort.own (h : ReadsPort x s t) (q : Pin) (hq : portOf q = x) :
    t.pin q = (delivered s q).pin ∧ t.regBit .gpinten q = (delivered s q).armed := by
  rw [h.pin, if_pos hq, h.gpinten, if_pos hq]
  exact ⟨rfl, rfl⟩

theorem ReadsPort.gpio (h : ReadsPort x s t) : t.reg .gpio x = s.sample x := by
  rw [h.reg _ _ (by decide)]; simp

theorem ReadsPort.clear (h : ReadsPort x s t) : t.reg .intf x = 0x00 := by
  rw [h.reg _ _ (by decide)]; simp

theorem ReadsPort.appends (h : ReadsPort x s t) : appendsSome s t (deliveredResults s x none) [] :=
  appendsSome_of_out_eq (by rw [h.out, List.append_nil])

theorem ReadsPort.keepsOutside (h : ReadsPort x s t) : keepsOutside s t := ⟨h.cfg, h.iocon, h.ext, h.inbox⟩

end

/-- Settles O36: the views of a compound read, in terms of the state before it. -/
theorem compoundReadDeliversSimultaneously : Obligations.CompoundReadDeliversSimultaneously := by
  intro x s t
  have hread : ReadsPort x s t := gpioRead_readsPort x s
  exact ⟨hread.gpio.symm, fun n => bitAt_sample s x n, hread.pin, hread.gpinten, hread.intf, hread.keepsBits,
    hread.appends, hread.keepsOutside, hread.ret, hread.outputs⟩

theorem exec_rdGpio (x : Port) (s : State) : exec (.rdGpio x) s = .next (returning (gpioRead x s)) := rfl

/-- Returning the byte leaves everything a compound read did. -/
theorem ReadsPort.of_returning {x : Port} {s : State} {r : Byte × State} (h : ReadsPort x s r.2) :
    ReadsPort x { s with ret := some r.1 } (returning r) :=
  { h with ret := rfl }

/-- Settles O15: the compound read, whose byte is returned. -/
theorem gpioReadEventResult : Obligations.GpioReadEventResult := by
  intro x s
  have hread := gpioRead_readsPort x s
  have hbyte := gpioRead_fst x s
  refine ⟨_, exec_rdGpio x s, ?_⟩
  generalize gpioRead x s = r at hread hbyte
  have hafter := hread.of_returning
  refine ⟨⟨r.1, rfl, hafter.gpio.trans hbyte.symm, fun n => ?level⟩, hafter.clear, hafter.own, hafter.keepsPins,
    ?bits, hafter.appends, hread.keepsOutside, hafter.outputs⟩
  case level => exact (congrArg (bitAt · n) hbyte).trans (bitAt_sample s x n)
  case bits => exact hafter.keepsBits

/-- Settles O39: nothing on a clear port, else the compound read. -/
theorem serviceEventResult : Obligations.ServiceEventResult := by
  intro x s
  refine ⟨serviceEvent x s, rfl, ?_⟩
  rcases serviceEvent_cases x s with ⟨hclear, hskips⟩ | ⟨hflagged, hreads⟩
  · exact ⟨fun _ => hskips, fun h => absurd hclear h⟩
  · rw [hreads]
    have hread := gpioRead_readsPort x s
    refine ⟨fun h => absurd h hflagged, fun _ => ⟨hread.clear, fun n => ?level, hread.own, hread.keepsPins,
      hread.keepsBits, hread.appends, hread.keepsOutside, hread.ret, hread.outputs⟩⟩
    case level => rw [← bitAt_reg_pinOf, hread.gpio, bitAt_sample]

end Sys2Proof.Machine
end

section
/-! Equal states, repeated reads (spec/42_pin_events.md section 4), PIN and POLL (R171, R173), level changes on two
pins (spec/60_exceptions.md section 3) and the service of a wait (R72, R175). -/

namespace Sys2Proof.Machine

/-! ## Equal states -/

/-- Two states whose outputs follow are equal when every register bit, every pin record and every other field is. -/
theorem State.eq_of_bits {s t : State} (hs : outputsFollow s) (ht : outputsFollow t) (hcfg : s.cfg = t.cfg)
    (hbit : ∀ ty q, s.regBit ty q = t.regBit ty q) (hpin : ∀ q, s.pin q = t.pin q) (hext : s.ext = t.ext)
    (hout : s.out = t.out) (hinbox : s.inbox = t.inbox) (hret : s.ret = t.ret) : s = t := by
  have hreg : ∀ ty x, s.reg ty x = t.reg ty x := fun ty x => reg_eq_of_regBit fun n => hbit ty _
  have hiocon : s.iocon = t.iocon := hreg .iocon .a
  obtain ⟨hA, hB⟩ := hs
  obtain ⟨hA', hB'⟩ := ht
  exact State.eq_of_views hcfg hreg hpin (by rw [hA, hA', hiocon, hreg, hreg]) (by rw [hB, hB', hiocon, hreg, hreg])
    hext hout hinbox hret

/-! ## What a delivery does to the record of its pin -/

/-- The three outcomes of the case table: the record stays, an edge is counted, or the wait ends. -/
theorem deliverTo_cases (p : Pin) (x : PinState) (f l : Bool) (r : Option Request) : let d := deliverTo p x f l r
    (d.pin = x ∧ d.armed = true) ∨
    (d.armed = true ∧ x.ews.rem = 2 ∧ d.pin = { x with ews := { x.ews with rem := 1 } }) ∨
    (d.armed = false ∧ isWatch r = false ∧ ∃ v e, d.pin = { x with st := .done (some v), ews := e }) := by
  match r with
  | some (.waitState _ t) =>
    by_cases hl : l = t
    · exact .inr (.inr (by simp [deliverTo, hl, Delivery.ends, isWatch]))
    · exact .inl (by simp [deliverTo, hl, Delivery.nothing])
  | some (.waitAny _) =>
    cases f
    · exact .inl ⟨rfl, rfl⟩
    · exact .inr (.inr ⟨rfl, rfl, l, x.ews, rfl⟩)
  | some (.waitSpec _ t) =>
    cases f
    · exact .inl ⟨rfl, rfl⟩
    · by_cases hr : x.ews.rem = 2
      · exact .inr (.inl (by simp [deliverTo, hr, Delivery.nothing]))
      · exact .inr (.inr (by simp [deliverTo, hr, Delivery.ends, isWatch]))
  | some (.watch _) | some (.output _) | some (.inNone _) | some (.inRead _) | none => exact .inl ⟨rfl, rfl⟩

/-- The same for any pin; only a suspended, armed pin has more than the first outcome. -/
theorem deliver_cases (p : Pin) (x : PinState) (armed f l : Bool) : let d := deliver p x armed f l
    (d.pin = x ∧ d.armed = armed) ∨
    (armed = true ∧ d.armed = true ∧ x.ews.rem = 2 ∧ d.pin = { x with ews := { x.ews with rem := 1 } }) ∨
    (armed = true ∧ d.armed = false ∧ isWatch x.req = false ∧
      ∃ v e, d.pin = { x with st := .done (some v), ews := e }) := by
  intro d
  by_cases h : x.st = .processing ∧ armed = true
  · have hd : d = deliverTo p x f l x.req := if_pos h
    rw [hd, h.2]
    rcases deliverTo_cases p x f l x.req with hstays | hcounts | hends
    · exact .inl hstays
    · exact .inr (.inl ⟨rfl, hcounts⟩)
    · exact .inr (.inr ⟨rfl, hends⟩)
  · have hd : d = .nothing x armed := if_neg h
    rw [hd]
    exact .inl ⟨rfl, rfl⟩

/-- The fields of a record that no delivery touches. -/
theorem deliver_fields (p : Pin) (x : PinState) (armed f l : Bool) : let y := (deliver p x armed f l).pin
    y.dir = x.dir ∧ y.pull = x.pull ∧ y.req = x.req ∧ y.drv = x.drv ∧ y.ref = x.ref := by
  intro y
  rcases deliver_cases p x armed f l with ⟨h, -⟩ | ⟨-, -, -, h⟩ | ⟨-, -, -, v, e, h⟩
  all_goals
    have hy := show y = _ from h
    rw [hy]
    exact ⟨rfl, rfl, rfl, rfl, rfl⟩

/-- A delivery that ends no wait leaves the status. -/
theorem deliver_st_of_armed {p : Pin} {x : PinState} {armed f l : Bool}
    (h : (deliver p x armed f l).armed = true) : (deliver p x armed f l).pin.st = x.st := by
  rcases deliver_cases p x armed f l with ⟨hpin, -⟩ | ⟨-, -, -, hpin⟩ | ⟨-, hends, -⟩
  · rw [hpin]
  · rw [hpin]
  · rw [hends] at h; exact absurd h Bool.false_ne_true

/-! ## Repeated reads -/

/-- Without a flag a delivery does something only to a wait for the level delivered. -/
theorem deliver_unflagged {p : Pin} {x : PinState} {armed l : Bool}
    (h : ∀ u, x.st = .processing → armed = true → x.req ≠ some (.waitState u l)) :
    deliver p x armed false l = .nothing x armed := by
  by_cases hs : x.st = .processing ∧ armed = true
  · obtain ⟨hst, rfl⟩ := hs
    have hd : deliver p x true false l = deliverTo p x false l x.req := if_pos ⟨hst, rfl⟩
    have hreq := fun u => h u hst rfl
    rw [hd]
    generalize x.req = r at hreq
    match r with
    | some (.waitState u t) =>
      have hl : l ≠ t := fun hl => hreq u (by rw [hl])
      simp [deliverTo, hl]
    | some (.waitAny _) | some (.waitSpec _ _) | some (.watch _) | some (.output _) | some (.inNone _)
    | some (.inRead _) | none => rfl
  · exact if_neg hs

/-- A delivery ends a suspended, armed wait for the level delivered. -/
theorem deliver_waitState_at {p : Pin} {x : PinState} {u : Pull} {l : Level} (hst : x.st = .processing)
    (hreq : x.req = some (.waitState u l)) (f : Bool) : deliver p x true f l = .ends p x l := by
  rw [deliver, if_pos ⟨hst, rfl⟩, hreq]
  simp [deliverTo]

/-- A second delivery at the same level, without a flag, changes nothing. -/
theorem deliver_again (p : Pin) (x : PinState) (armed f l : Bool) : let d := deliver p x armed f l
    deliver p d.pin d.armed false l = .nothing d.pin d.armed := by
  intro d
  refine deliver_unflagged fun u hst harmed hreq => ?_
  have hsame : d.pin.st = x.st := deliver_st_of_armed harmed
  have hxreq : x.req = some (.waitState u l) := (deliver_fields p x armed f l).2.2.1.symm.trans hreq
  have hxarmed : armed = true := by
    rcases deliver_cases p x armed f l with ⟨-, h⟩ | ⟨h, -⟩ | ⟨h, -⟩
    · exact h.symm.trans harmed
    · exact h
    · exact h
  have hended : d = .ends p x l := by
    simp only [d, hxarmed]
    exact deliver_waitState_at (hsame.symm.trans hst) hxreq f
  rw [hended] at harmed
  exact Bool.false_ne_true harmed

section
variable {s t : State} {q : Pin}

theorem delivered_dir (s : State) (q : Pin) : (delivered s q).pin.dir = (s.pin q).dir := (deliver_fields q _ _ _ _).1

theorem delivered_drv (s : State) (q : Pin) : (delivered s q).pin.drv = (s.pin q).drv :=
  (deliver_fields q _ _ _ _).2.2.2.1

/-- A pin that was delivered to, and has no flag since, has nothing delivered to it (R180). -/
theorem delivered_of_delivered (hpin : t.pin q = (delivered s q).pin)
    (harmed : t.regBit .gpinten q = (delivered s q).armed) (hflag : t.regBit .intf q = false)
    (hext : t.extLevel q = s.extLevel q) : delivered t q = .nothing (t.pin q) (t.regBit .gpinten q) := by
  have hlevel : t.pinLevel q = s.pinLevel q :=
    pinLevel_of (by rw [hpin, delivered_dir]) (by rw [hpin, delivered_drv]) hext
  rw [delivered, hflag, hlevel, hpin, harmed]
  exact deliver_again _ _ _ _ _

end

theorem pinLevel_of_readsPort {x : Port} {s t : State} (h : ReadsPort x s t) (q : Pin) :
    t.pinLevel q = s.pinLevel q := by
  refine pinLevel_of ?_ ?_ (extLevel_of_ext h.ext q)
  · rw [h.pin]; split
    · exact delivered_dir s q
    · rfl
  · rw [h.pin]; split
    · exact delivered_drv s q
    · rfl

/-- Settles O54: the second read finds no flag, the same levels and pins already delivered to. -/
theorem gpioRereadIsIdempotent : Obligations.GpioRereadIsIdempotent := by
  intro x s
  have hread := gpioRead_readsPort x s
  generalize hr : gpioRead x s = r at hread
  have hreread := gpioRead_readsPort x r.2
  have hbyte : r.2.sample x = r.1 := by
    rw [← hr, gpioRead_fst, hr]
    exact byte_eq_of_bitAt fun n => by rw [bitAt_sample, bitAt_sample, pinLevel_of_readsPort hread]
  have hagain : ∀ q, portOf q = x → delivered r.2 q = .nothing (r.2.pin q) (r.2.regBit .gpinten q) := fun q hq =>
    delivered_of_delivered (hread.own q hq).1 (hread.own q hq).2 (by rw [hread.intf, if_pos hq])
      (extLevel_of_ext hread.ext q)
  refine Prod.ext (by rw [gpioRead_fst, hbyte]) (State.eq_of_bits hreread.outputs hread.outputs hreread.cfg
    (fun ty q => ?bits) (fun q => ?record) hreread.ext ?results hreread.inbox hreread.ret)
  case record =>
    rw [hreread.pin]
    split
    · rename_i hq; rw [hagain q hq]; rfl
    · rfl
  case results =>
    have hnone : deliveredResults r.2 x none = [] := by
      rw [deliveredResults_none, List.flatMap_eq_nil_iff]
      exact fun n _ => by rw [hagain _ (portOf_pinOf x n)]; rfl
    rw [hreread.out, hnone, List.append_nil]
  case bits =>
    by_cases hq : portOf q = x
    · subst hq
      by_cases hg : ty = .gpinten
      · rw [hg, hreread.gpinten, if_pos rfl, hagain q rfl]; rfl
      · refine regBit_of_reg_eq ?_
        rw [hreread.reg _ _ hg]
        split
        · rename_i h; rw [h.1, hread.clear]
        · split
          · rename_i h; rw [h.1, hread.gpio, hbyte, ← hr, gpioRead_fst]
          · rfl
    · exact (hreread.keepsBits ty q fun h => hq h.1)

/-! ## PIN and POLL -/

theorem exec_pin (p : Pin) (b : Level) (s : State) : exec (.pin p b) s = .next (pinEvent p b s) := rfl

theorem exec_poll (p : Pin) (s : State) : exec (.poll p) s = .next (pollEvent p s) := rfl

theorem exec_svc (x : Port) (s : State) : exec (.svc x) s = .next (serviceEvent x s) := rfl

/-- Settles O37: the two outcomes of PIN. -/
theorem pinEventResult : Obligations.PinEventResult := by
  intro p b s
  refine ⟨_, exec_pin p b s, ?_⟩
  rcases pinEvent_cases p b s with ⟨hfires, hevent⟩ | ⟨hquiet, hevent⟩
  · rw [hevent]
    refine ⟨fun _ => ⟨by simp, by simp [State.setExt], by simp [raiseFlag, updateInt, State.setExt],
      fun ty q hw => ?bits, raiseFlag_outputsFollow p _, by simp, by simp, by simp, by simp⟩,
      fun h => absurd hfires h⟩
    case bits => rw [raiseFlag_regBit, if_neg fun h => hw ⟨h.2, h.1⟩, setExt_regBit]
  · rw [hevent]
    exact ⟨fun h => absurd h hquiet, fun _ => rfl⟩

/-- Settles O38: the three outcomes of POLL. -/
theorem pollEventResult : Obligations.PollEventResult := by
  intro p s
  refine ⟨_, exec_poll p s, ?_⟩
  intro polled
  rcases pollEvent_cases p s with ⟨hnot, hevent⟩ | ⟨hpolled, hsame, hevent⟩ | ⟨hpolled, hdiffers, hevent⟩
  · rw [hevent]
    exact ⟨fun _ => rfl, fun h => absurd h hnot⟩
  · rw [hevent]
    exact ⟨fun h => absurd hpolled h, fun _ => ⟨by simp, fun q hq => by rw [setPin_pin, if_neg hq], by simp [hsame],
      fun ty q _ => setPin_regBit s p _ ty q, fun h => absurd hsame h, fun _ => ⟨rfl, rfl⟩, rfl,
      ⟨rfl, rfl, rfl, rfl⟩, rfl⟩⟩
  · rw [hevent]
    refine ⟨fun h => absurd hpolled h, fun _ => ⟨by simp, fun q hq => ?record, by simp [hdiffers], fun ty q hw => ?bits,
      fun _ => ?outputs, fun h => absurd h hdiffers, raiseFlag_out p s,
      ⟨raiseFlag_cfg p s, raiseFlag_iocon p s, raiseFlag_ext p s, raiseFlag_inbox p s⟩, raiseFlag_ret p s⟩⟩
    case record => rw [setPin_pin, if_neg hq, raiseFlag_pin]
    case bits => rw [setPin_regBit, raiseFlag_regBit, if_neg fun h => hw ⟨h.2, h.1⟩]
    case outputs => exact outputsFollow_of (raiseFlag_outputsFollow p s) rfl rfl rfl (by simp)

/-! ## Level changes on two pins -/

theorem setExt_comm {p q : Pin} (h : p ≠ q) (a b : Level) (s : State) :
    (s.setExt p a).setExt q b = (s.setExt q b).setExt p a := by
  have hne : p.val ≠ q.val := fun he => h (Fin.ext he)
  simp only [State.setExt]
  rw [Vector.set_comm _ _ hne]

theorem raiseFlag_setExt (p q : Pin) (b : Level) (s : State) :
    raiseFlag p (s.setExt q b) = (raiseFlag p s).setExt q b :=
  State.eq_of_bits (raiseFlag_outputsFollow _ _)
    (outputsFollow_of (raiseFlag_outputsFollow p s) rfl rfl rfl fun x => setExt_reg _ q b _ x)
    (by simp) (fun ty q => by simp) (fun q => by simp) (ext_eq_of_extLevel fun q => by simp)
    (by simp) (by simp) (by simp)

theorem raiseFlag_comm (p q : Pin) (s : State) : raiseFlag p (raiseFlag q s) = raiseFlag q (raiseFlag p s) :=
  State.eq_of_bits (raiseFlag_outputsFollow _ _) (raiseFlag_outputsFollow _ _) (by simp)
    (fun ty r => by
      simp only [raiseFlag_regBit]
      split <;> split <;> rfl)
    (fun r => by simp) (by simp) (by simp) (by simp) (by simp)

/-- The condition of R171 under which PIN sets the flag. -/
abbrev pinFires (p : Pin) (b : Level) (s : State) : Prop :=
  b ≠ s.extLevel p ∧ s.source p = .nativeInterrupt ∧ (s.pin p).dir = .input ∧ s.regBit .gpinten p = true

theorem pinEvent_of_fires {p : Pin} {b : Level} {s : State} (h : pinFires p b s) :
    pinEvent p b s = raiseFlag p (s.setExt p b) := by
  rcases pinEvent_cases p b s with ⟨-, hevent⟩ | ⟨hquiet, -⟩
  · exact hevent
  · exact absurd h hquiet

theorem pinEvent_of_not_fires {p : Pin} {b : Level} {s : State} (h : ¬pinFires p b s) :
    pinEvent p b s = s.setExt p b := by
  rcases pinEvent_cases p b s with ⟨hfires, -⟩ | ⟨-, hevent⟩
  · exact absurd hfires h
  · exact hevent

/-- A level change on another pin is nothing to the condition of R171. -/
theorem pinFires_pinEvent {p q : Pin} (h : p ≠ q) (a b : Level) (s : State) :
    pinFires q b (pinEvent p a s) ↔ pinFires q b s := by
  rcases pinEvent_cases p a s with ⟨-, hevent⟩ | ⟨-, hevent⟩
  · rw [hevent]; simp [pinFires, State.source, h.symm]
  · rw [hevent]; simp [pinFires, h.symm]

theorem pinEvent_comm {p q : Pin} (h : p ≠ q) (a b : Level) (s : State) :
    pinEvent q b (pinEvent p a s) = pinEvent p a (pinEvent q b s) := by
  have hq := pinFires_pinEvent h a b s
  have hp := pinFires_pinEvent h.symm b a s
  by_cases hfp : pinFires p a s <;> by_cases hfq : pinFires q b s
  · rw [pinEvent_of_fires (hq.mpr hfq), pinEvent_of_fires (hp.mpr hfp), pinEvent_of_fires hfp, pinEvent_of_fires hfq,
      ← raiseFlag_setExt p, ← raiseFlag_setExt q, raiseFlag_comm, setExt_comm h]
  · rw [pinEvent_of_not_fires (mt hq.mp hfq), pinEvent_of_fires (hp.mpr hfp), pinEvent_of_fires hfp,
      pinEvent_of_not_fires hfq, ← raiseFlag_setExt, setExt_comm h]
  · rw [pinEvent_of_fires (hq.mpr hfq), pinEvent_of_not_fires (mt hp.mp hfp), pinEvent_of_not_fires hfp,
      pinEvent_of_fires hfq, ← raiseFlag_setExt, setExt_comm h]
  · rw [pinEvent_of_not_fires (mt hq.mp hfq), pinEvent_of_not_fires (mt hp.mp hfp), pinEvent_of_not_fires hfp,
      pinEvent_of_not_fires hfq, setExt_comm h]

theorem outcome_next_inj {s t : State} (h : (.next s : Host.Outcome State Fault Refusal) = .next t) : s = t := by
  injection h

/-- Settles O55: `pinEvent_comm`, over the four outcomes of the two events. -/
theorem pinEventsCommute : Obligations.PinEventsCommute := by
  intro p q a b s s1 s2 t1 t2 hpq h1 ht1 h2 ht2
  have e1 : pinEvent p a s = s1 := outcome_next_inj h1
  have e2 : pinEvent q b s = s2 := outcome_next_inj h2
  rw [exec_pin, ← e1] at ht1
  rw [exec_pin, ← e2] at ht2
  rw [← outcome_next_inj ht1, ← outcome_next_inj ht2, pinEvent_comm hpq]

/-! ## A change, then a service -/

/-- A flagged wait for any edge, and a wait for the level read, end in the delivery (R177). -/
theorem delivered_ends_wait {s : State} {p : Pin} {u : Pull}
    (hreq : (s.pin p).req = some (.waitAny u) ∨ (s.pin p).req = some (.waitState u (s.pinLevel p)))
    (hst : (s.pin p).st = .processing) (harmed : s.regBit .gpinten p = true) (hflag : s.regBit .intf p = true) :
    delivered s p = .ends p (s.pin p) (s.pinLevel p) := by
  rcases hreq with hany | hstate
  · rw [delivered_waitAny hany hst harmed, hflag, if_pos rfl]
  · rw [delivered, harmed, deliver_waitState_at hst hstate]

/-- Settles O58: PIN raises the flag, and the compound read of SVC delivers it at the new level. -/
theorem changeThenServiceEndsTheWait : Obligations.ChangeThenServiceEndsTheWait := by
  intro p b u s hreq hst harmed hdir hsource hlevel
  have hfires : pinFires p b s := ⟨hlevel.symm, hsource, hdir, harmed⟩
  refine ⟨_, _, exec_pin p b s, exec_svc (portOf p) _, ?_⟩
  rw [pinEvent_of_fires hfires]
  have hpin : (raiseFlag p (s.setExt p b)).pin p = s.pin p := by rw [raiseFlag_pin, setExt_pin]
  have harmed' : (raiseFlag p (s.setExt p b)).regBit .gpinten p = true := by simpa using harmed
  have hflag : (raiseFlag p (s.setExt p b)).regBit .intf p = true := by simp
  have hnew : (raiseFlag p (s.setExt p b)).pinLevel p = b := by simp [State.pinLevel, hdir]
  have hout : (raiseFlag p (s.setExt p b)).out = s.out := by simp
  generalize raiseFlag p (s.setExt p b) = s1 at hpin harmed' hflag hnew hout
  have hends : delivered s1 p = .ends p (s1.pin p) b := by
    rw [← hnew]
    exact delivered_ends_wait (by rwa [hpin, hnew]) (by rwa [hpin]) harmed' hflag
  rcases serviceEvent_cases (portOf p) s1 with ⟨hclear, -⟩ | ⟨-, hreads⟩
  · exact absurd hclear (reg_ne_zero_of_regBit hflag)
  · rw [hreads]
    have hread := gpioRead_readsPort (portOf p) s1
    obtain ⟨hrecord, hdisarmed⟩ := hread.own p rfl
    rw [hends] at hrecord hdisarmed
    refine ⟨by rw [hpin, hst], hflag, by rw [hrecord]; rfl, hdisarmed, by rw [hread.intf, if_pos rfl], ?_⟩
    rw [hread.out, ← hout, List.drop_left]
    exact mem_deliveredResults (by rw [hends]; exact List.mem_singleton_self _)

end Sys2Proof.Machine
end

section
/-! Reset (spec/70_reset_and_hazards.md R220 to R222) and the invariants of the power-on state
(spec/10_state.md R35). -/

namespace Sys2Proof.Machine

/-! ## The power-on state -/

section
variable (c : Config) (ext : Vector Level 16)

theorem powerOn_pin (q : Pin) : (State.powerOn c ext).pin q = PinState.reset := by
  simp [State.pin, State.powerOn]

theorem powerOn_reg (ty : RegType) (x : Port) : (State.powerOn c ext).reg ty x =
    if ty = .iocon then c.ioconFixed else if ty = .iodir then c.iodirAllIn else 0x00 := by
  cases ty <;> cases x <;> rfl

theorem bitAt_iodirAllIn (n : BitIdx) : bitAt c.iodirAllIn n = c.iodirIn := by
  unfold Config.iodirAllIn Config.iodirIn
  generalize c.iodirOut = out
  revert n out
  decide

theorem powerOn_regBit_zero {ty : RegType} (h1 : ty ≠ .iocon) (h2 : ty ≠ .iodir) (q : Pin) :
    (State.powerOn c ext).regBit ty q = false := by
  rw [State.regBit, powerOn_reg, if_neg h1, if_neg h2, bitAt_zero]

theorem powerOn_regBit_iodir (q : Pin) : (State.powerOn c ext).regBit .iodir q = c.iodirIn := by
  rw [State.regBit, powerOn_reg, if_neg (by decide), if_pos rfl, bitAt_iodirAllIn]

theorem powerOn_iodirIsOut (q : Pin) : (State.powerOn c ext).iodirIsOut q = false := by
  rw [State.iodirIsOut, powerOn_regBit_iodir]
  exact Bool.not_beq_self c.iodirOut

theorem outputPin_idle (iocon : Byte) : outputPin iocon false = IntPin.idle iocon := rfl

theorem powerOn_outputsFollow : outputsFollow (State.powerOn c ext) := by
  have hnone : outputAsserted c.ioconFixed 0x00 0x00 = false := by simp [outputAsserted]
  have h : intOut c.ioconFixed 0x00 0x00 = (IntPin.idle c.ioconFixed, IntPin.idle c.ioconFixed) := by
    rw [intOut_eq, hnone, outputPin_idle]
  exact ⟨(congrArg Prod.fst h).symm, (congrArg Prod.snd h).symm⟩

theorem powerOn_pinInv (q : Pin) : PinInv (State.powerOn c ext) q := by
  unfold PinInv
  rw [powerOn_pin, powerOn_iodirIsOut, powerOn_regBit_zero c ext (by decide) (by decide),
    powerOn_regBit_zero c ext (by decide) (by decide), powerOn_regBit_zero c ext (by decide) (by decide),
    powerOn_regBit_zero c ext (by decide) (by decide)]
  decide

theorem powerOn_inv : Inv (State.powerOn c ext) :=
  ⟨⟨rfl, rfl, rfl, rfl, rfl, rfl⟩, powerOn_pinInv c ext, powerOn_outputsFollow c ext, rfl⟩

end

/-- Settles O43: the views of the power-on state; `State.reset` is one. -/
theorem powerOnSatisfiesInvariants : Obligations.PowerOnSatisfiesInvariants :=
  ⟨powerOn_inv, powerOn_inv _ _⟩

/-! ## RESET -/

section
variable {s : State} (out : List ResultEvent) (inbox : List EventWord) (ret : Option Byte)

theorem outputsFollow_of_io (h : outputsFollow s) : outputsFollow { s with out := out, inbox := inbox, ret := ret } :=
  outputsFollow_of h rfl rfl rfl fun x => by cases x <;> rfl

theorem inv_of_io (h : Inv s) : Inv { s with out := out, inbox := inbox, ret := ret } := h

end

theorem exec_reset (s : State) : exec .reset s = .next (resetEvent s) := rfl

theorem resetEvent_def (s : State) :
    resetEvent s =
      updateInt ((resetPort .b (resetPort .a (forPins resetPin s))).setReg .iocon .a s.cfg.ioconFixed) := by
  have hcfg : (resetPort .b (resetPort .a (forPins resetPin s))).cfg = s.cfg := by
    rw [resetPort_cfg, resetPort_cfg, forPins_keeps State.cfg resetPin_cfg s]
  rw [← hcfg]; rfl

section
variable (s : State)

theorem resetEvent_outputsFollow : outputsFollow (resetEvent s) := outputsFollow_updateInt _

theorem resetEvent_pin (q : Pin) : (resetEvent s).pin q = PinState.reset := by
  rw [resetEvent_def, updateInt_pin, setReg_pin, resetPort_pin, resetPort_pin, forPins_resetPin_pin]

theorem resetEvent_reg (ty : RegType) (x : Port) : (resetEvent s).reg ty x =
    if ty = .iocon then s.cfg.ioconFixed else if ty = .iodir then s.cfg.iodirAllIn else 0x00 := by
  have hcfg := forPins_keeps State.cfg resetPin_cfg s
  rw [resetEvent_def, updateInt_reg, setReg_reg, resetPort_reg, resetPort_reg, resetPort_cfg, hcfg]
  cases x <;> cases ty <;> rfl

theorem resetEvent_regBit (ty : RegType) (q : Pin) :
    (resetEvent s).regBit ty q = (State.powerOn s.cfg s.ext).regBit ty q :=
  regBit_of_reg_eq (by rw [resetEvent_reg, powerOn_reg])

theorem resetEvent_cfg : (resetEvent s).cfg = s.cfg := by
  rw [resetEvent_def, updateInt_cfg, setReg_cfg, resetPort_cfg, resetPort_cfg, forPins_keeps State.cfg resetPin_cfg s]

theorem resetEvent_ext : (resetEvent s).ext = s.ext := by
  rw [resetEvent_def, updateInt_ext, setReg_ext, resetPort_ext, resetPort_ext, forPins_keeps State.ext resetPin_ext s]

theorem resetEvent_out : (resetEvent s).out = s.out := by
  rw [resetEvent_def, updateInt_out, setReg_out, resetPort_out, resetPort_out, forPins_keeps State.out resetPin_out s]

theorem resetEvent_inbox : (resetEvent s).inbox = s.inbox := by
  rw [resetEvent_def, updateInt_inbox, setReg_inbox, resetPort_inbox, resetPort_inbox,
    forPins_keeps State.inbox resetPin_inbox s]

theorem resetEvent_ret : (resetEvent s).ret = s.ret := by
  rw [resetEvent_def, updateInt_ret, setReg_ret, resetPort_ret, resetPort_ret, forPins_keeps State.ret resetPin_ret s]

/-- The state of RESET is the power-on state of the same parameters and levels (R222). -/
theorem resetEvent_eq :
    resetEvent s = { State.powerOn s.cfg s.ext with out := s.out, inbox := s.inbox, ret := s.ret } :=
  State.eq_of_bits (resetEvent_outputsFollow s) (outputsFollow_of_io _ _ _ (powerOn_outputsFollow s.cfg s.ext))
    (resetEvent_cfg s) (resetEvent_regBit s) (fun q => (resetEvent_pin s q).trans (powerOn_pin s.cfg s.ext q).symm)
    (resetEvent_ext s) (resetEvent_out s) (resetEvent_inbox s) (resetEvent_ret s)

theorem resetEvent_inv : Inv (resetEvent s) := by
  rw [resetEvent_eq]; exact inv_of_io _ _ _ (powerOn_inv s.cfg s.ext)

theorem resetEvent_not_armed (q : Pin) : (resetEvent s).regBit .gpinten q = false :=
  (resetEvent_regBit s _ q).trans (powerOn_regBit_zero _ _ (by decide) (by decide) q)

theorem resetEvent_not_flagged (q : Pin) : (resetEvent s).regBit .intf q = false :=
  (resetEvent_regBit s _ q).trans (powerOn_regBit_zero _ _ (by decide) (by decide) q)

end

/-- Settles O41: the views of `resetEvent`. -/
theorem resetResult : Obligations.ResetResult := fun s => by rw [exec_reset, resetEvent_eq]

theorem pinEvent_of_not_armed {p : Pin} {s : State} (h : s.regBit .gpinten p = false) (b : Level) :
    pinEvent p b s = s.setExt p b :=
  pinEvent_of_not_fires fun ⟨_, _, _, harmed⟩ => Bool.false_ne_true (h.symm.trans harmed)

/-- PIN on a pin that is neither armed nor flagged flags nothing, changes no record and appends nothing. -/
theorem exec_pin_of_not_armed {p : Pin} {s : State} (harmed : s.regBit .gpinten p = false)
    (hflag : s.regBit .intf p = false) (b : Level) :
    ∃ t, exec (.pin p b) s = .next t ∧ t.regBit .intf p = false ∧ t.pins = s.pins ∧ t.out = s.out := by
  refine ⟨_, exec_pin p b s, ?_⟩
  rw [pinEvent_of_not_armed harmed]
  exact ⟨(setExt_regBit s p b .intf p).trans hflag, rfl, rfl⟩

/-- Settles O42: no pin of the reset state is armed, so that no level change fires. -/
theorem resetAbandonsEveryRequest : Obligations.ResetAbandonsEveryRequest := by
  intro s
  refine ⟨_, exec_reset s, resetEvent_out s, fun p => ?_,
    fun p => exec_pin_of_not_armed (resetEvent_not_armed s p) (resetEvent_not_flagged s p)⟩
  rw [resetEvent_pin]
  exact ⟨rfl, rfl, rfl, rfl, resetEvent_not_armed s p, resetEvent_not_flagged s p⟩

end Sys2Proof.Machine
end

section
/-! The translator (spec/40_register_port.md R123 to R127): the loop over the pins of a port, and the two writes
whose passes touch their own pin alone, WR.IODIR and WR.OLAT. -/

namespace Sys2Proof.Machine

/-! ## The loop over the bits, by the number of bits reached -/

/-- A property of the number of bits reached and the state that every pass carries on holds at the end. -/
theorem forBits_reached {P : Nat → State → Prop} {f : BitIdx → State → State} {s : State} (h0 : P 0 s)
    (hpass : ∀ (n : BitIdx) (e : State), P n.val e → P (n.val + 1) (f n e)) : P 8 (forBits f s) :=
  hpass 7 _ <| hpass 6 _ <| hpass 5 _ <| hpass 4 _ <| hpass 3 _ <| hpass 2 _ <| hpass 1 _ <| hpass 0 _ h0

/-- A loop whose passes all leave the state leaves the state. -/
theorem forBits_id {f : BitIdx → State → State} {s : State} (h : ∀ n, f n s = s) : forBits f s = s :=
  forBits_reached (P := fun _ e => e = s) rfl fun n e he => by rw [he, h]

theorem bitOrder_take_succ (n : BitIdx) : bitOrder.take (n.val + 1) = bitOrder.take n.val ++ [n] := by
  revert n; decide

theorem flatMap_ite_singleton {α : Type} (c : BitIdx → Bool) (g : BitIdx → α) (l : List BitIdx) :
    (l.flatMap fun n => if c n then [g n] else []) = (l.filter c).map g := by
  induction l with
  | nil => rfl
  | cons n l ih => cases hc : c n <;> simp [hc, ih]

/-! ## Writes of the byte held -/

theorem exec_wrIodir (x : Port) (data : Byte) (s : State) :
    exec (.wrIodir x data) s = .next (writeIodir x data s) := rfl

theorem exec_wrOlat (x : Port) (data : Byte) (s : State) :
    exec (.wrOlat x data) s = .next (writeOlat x data s) := rfl

theorem exec_wrGppu (x : Port) (data : Byte) (s : State) :
    exec (.wrGppu x data) s = .next (writeGppu x data s) := rfl

theorem exec_wrGpinten (x : Port) (data : Byte) (s : State) :
    exec (.wrGpinten x data) s = .next (writeGpinten x data s) := rfl

/-- Settles O23: a pass whose effective bit is the stored one leaves the state. -/
theorem equalWriteChangesNothing : Obligations.EqualWriteChangesNothing := by
  refine fun x s => ⟨?iodir, ?olat, ?gppu, fun data heq => ?gpinten⟩
  case iodir => rw [exec_wrIodir, writeIodir, translate, forBits_id fun n => by simp [writeIodirPin]]
  case olat => rw [exec_wrOlat, writeOlat, translate, forBits_id fun n => by simp [writeOlatPin]]
  case gppu => rw [exec_wrGppu, writeGppu, translate, forBits_id fun n => by simp [writeGppuPin]]
  case gpinten =>
    rw [exec_wrGpinten, writeGpinten, translate, forBits_id fun n => ?_]
    rw [bitAt_reg_pinOf, heq n]
    simp [writeGpintenPin, State.iodirIsOut]

/-! ## Loops whose passes touch their own pin alone -/

/-- Everything a pass of its own pin can change of the pin: its record and its bit of every register. -/
@[ext]
structure PinView where
  pin : PinState
  bit : RegType → Level

/-- The view of pin `q`. -/
def State.view (s : State) (q : Pin) : PinView := ⟨s.pin q, fun ty => s.regBit ty q⟩

/-- Pass `f` takes the view of pin `p` from `v` to `new`, leaves the other views, and appends `rs`. -/
structure PassesPin (p : Pin) (new : PinView) (rs : List ResultEvent) (e t : State) : Prop where
  own : t.view p = new
  other : ∀ q, q ≠ p → t.view q = e.view q
  out : t.out = e.out ++ rs
  cfg : t.cfg = e.cfg

/-- A loop of such passes takes every pin of the port to its new view. -/
theorem forBits_passes {x : Port} {f : BitIdx → State → State} {s : State} {new : BitIdx → PinView}
    {rs : BitIdx → List ResultEvent}
    (hpass : ∀ n e, e.cfg = s.cfg → e.view (pinOf x n) = s.view (pinOf x n) →
      PassesPin (pinOf x n) (new n) (rs n) e (f n e)) :
    (∀ n, (forBits f s).view (pinOf x n) = new n) ∧ (forBits f s).out = s.out ++ bitOrder.flatMap rs := by
  have hloop := forBits_reached (f := f) (s := s) (P := fun k e => e.cfg = s.cfg ∧
    (∀ n, e.view (pinOf x n) = if n.val < k then new n else s.view (pinOf x n)) ∧
    e.out = s.out ++ (bitOrder.take k).flatMap rs) ⟨rfl, fun n => by simp, by simp⟩ ?pass
  case pass =>
    rintro n e ⟨hcfg, hview, hout⟩
    have h := hpass n e hcfg (by rw [hview, if_neg (Nat.lt_irrefl _)])
    refine ⟨h.cfg.trans hcfg, fun m => ?_, ?_⟩
    · by_cases hm : m = n
      · rw [hm, h.own, if_pos (Nat.lt_succ_self _)]
      · have hlt : m.val < n.val + 1 ↔ m.val < n.val := by
          have : m.val ≠ n.val := fun he => hm (Fin.ext he)
          omega
        rw [h.other _ fun he => hm (pinOf_inj.mp he).2, hview]
        simp only [hlt]
    · rw [h.out, hout, bitOrder_take_succ]; simp
  obtain ⟨-, hview, hout⟩ := hloop
  exact ⟨fun n => by rw [hview, if_pos n.isLt], hout⟩

/-- A pass that leaves the state. -/
theorem PassesPin.refl (p : Pin) (e : State) : PassesPin p (e.view p) [] e e :=
  ⟨rfl, fun _ _ => rfl, by simp, rfl⟩

/-- What the assignment of `Output` leaves of its pin (R148). -/
def outputView (c : Config) (v : PinView) (l : Level) : PinView where
  pin := { v.pin with dir := .output, drv := l, req := some (.output l), st := .done none, ews := ⟨false, 0⟩ }
  bit := fun ty => if ty = .iodir then c.iodirOut else if ty = .olat then l
    else if ty = .gpinten ∨ ty = .intf then false else v.bit ty

/-- What the assignment of `InNone` leaves of its pin (R149). -/
def inNoneView (c : Config) (v : PinView) (u : Pull) : PinView where
  pin := { v.pin with dir := .input, pull := u, req := some (.inNone u), st := .done none, ews := ⟨false, 0⟩ }
  bit := fun ty => if ty = .iodir then c.iodirIn else if ty = .gppu then u
    else if ty = .gpinten ∨ ty = .intf then false else v.bit ty

theorem assign_output_passes (p : Pin) (l : Level) (e : State) :
    PassesPin p (outputView e.cfg (e.view p) l) [.done p none] e (assign p (.output l) e) := by
  obtain ⟨hpin, hbits, hout, ⟨hcfg, -⟩, -⟩ := assign_output p l e
  refine ⟨PinView.ext ?_ ?_, fun q hq => PinView.ext ?_ ?_, hout, hcfg⟩
  · exact (hpin p).trans (if_pos rfl)
  · funext ty; exact (hbits ty p).trans (if_pos rfl)
  · exact (hpin q).trans (if_neg hq)
  · funext ty; exact (hbits ty q).trans (if_neg hq)

theorem assign_inNone_passes (p : Pin) (u : Pull) (e : State) :
    PassesPin p (inNoneView e.cfg (e.view p) u) [.done p none] e (assign p (.inNone u) e) := by
  rw [assign_inNone]
  refine ⟨PinView.ext ?_ ?_, fun q hq => PinView.ext ?_ ?_, by simp, by simp⟩
  · simp [State.view, inNoneView]
  · funext ty; simp [State.view, inNoneView]
  · simp [State.view, hq]
  · funext ty; simp [State.view, hq]

theorem setRegBit_olat_passes (p : Pin) (d : Level) (e : State) :
    PassesPin p ⟨e.pin p, fun ty => if ty = .olat then d else e.regBit ty p⟩ [] e (e.setRegBit .olat p d) := by
  refine ⟨PinView.ext ?_ ?_, fun q hq => PinView.ext ?_ ?_, by simp, by simp⟩
  · simp [State.view]
  · funext ty; simp [State.view]
  · simp [State.view]
  · funext ty; simp [State.view, hq]

/-! ## The interrupt outputs over a loop -/

/-- A loop whose passes keep the outputs following keeps them following. -/
theorem forBits_outputsFollow {f : BitIdx → State → State} (hf : ∀ n e, outputsFollow e → outputsFollow (f n e))
    {s : State} (h : outputsFollow s) : outputsFollow (forBits f s) := forBits_induct hf h

/-- A loop with one pass after which the outputs follow leaves them following. -/
theorem forBits_outputsFollow_of_pass {f : BitIdx → State → State}
    (hf : ∀ n e, outputsFollow e → outputsFollow (f n e)) {m : BitIdx} (hm : ∀ e, outputsFollow (f m e))
    (s : State) : outputsFollow (forBits f s) := by
  refine forBits_reached (P := fun k e => m.val < k → outputsFollow e) (fun h => absurd h (Nat.not_lt_zero _))
    (fun n e he hlt => ?_) m.isLt
  by_cases hn : n = m
  · rw [hn]; exact hm e
  · exact hf n e (he (by have : n.val ≠ m.val := fun h => hn (Fin.ext h); omega))

theorem setRegBit_outputsFollow {ty : RegType} (h1 : ty ≠ .iocon) (h2 : ty ≠ .intf) (p : Pin) (v : Level) {s : State}
    (h : outputsFollow s) : outputsFollow (s.setRegBit ty p v) :=
  outputsFollow_of h (setRegBit_intA s ty p v) (setRegBit_intB s ty p v) (setRegBit_iocon s h1 p v)
    fun x => setRegBit_reg_of_ne s h2.symm x p v

/-! ## The frame of a translator write -/

/-- A loop on port `x` keeps the bits of every register that it keeps at the pins of the port. -/
theorem StaysOn.keepsBits {x : Port} {s t : State} (h : StaysOn x s t) {w : RegType → Pin → Prop}
    (hport : ∀ ty n, ¬w ty (pinOf x n) → t.regBit ty (pinOf x n) = s.regBit ty (pinOf x n)) :
    keepsBitsBut (fun ty q => portOf q = x ∧ w ty q) s t := fun ty q hw => by
  by_cases hq : portOf q = x
  · rw [← pinOf_portOf_bitOf q, hq]
    exact hport ty _ fun hw' => hw ⟨hq, by rwa [← hq, pinOf_portOf_bitOf] at hw'⟩
  · exact h.regBit ty q hq

theorem StaysOn.keepsPins {x : Port} {s t : State} (h : StaysOn x s t) : keepsPinsBut (fun q => portOf q = x) s t :=
  fun q hq => h.pin q hq

theorem StaysOn.keepsOutside {x : Port} {s t : State} (h : StaysOn x s t) : keepsOutside s t :=
  ⟨h.cfg, h.iocon, h.ext, h.inbox⟩

/-! ## WR.IODIR -/

/-- The view that WR.IODIR leaves of a pin with view `v`, for a bit `d` of the data and `old` of the register. -/
def iodirView (c : Config) (d old : Level) (v : PinView) : PinView :=
  if d = old then v else if d = c.iodirOut then outputView c v (v.bit .olat) else inNoneView c v (v.bit .gppu)

theorem writeIodirPin_passes (p : Pin) (d old : Level) (e : State) :
    PassesPin p (iodirView e.cfg d old (e.view p)) (if d != old then [.done p none] else []) e
      (writeIodirPin p d old e) := by
  rcases writeIodirPin_cases p d old e with ⟨hd, h⟩ | ⟨hd, hout, h⟩ | ⟨hd, hin, h⟩ <;> rw [h, iodirView]
  · rw [if_pos hd, if_neg (by simp [hd])]
    exact .refl p e
  · rw [if_neg hd, if_pos hout, if_pos (by simp [hd])]
    exact assign_output_passes p _ e
  · rw [if_neg hd, if_neg hin, if_pos (by simp [hd])]
    exact assign_inNone_passes p _ e

/-- What WR.IODIR leaves of each pin of its port, and its results (R123, R127). -/
theorem writeIodir_view (x : Port) (data : Byte) (s : State) : let t := writeIodir x data s
    (∀ n, t.view (pinOf x n) =
      iodirView s.cfg (bitAt data n) (s.regBit .iodir (pinOf x n)) (s.view (pinOf x n))) ∧
    t.out = s.out ++ bitOrder.flatMap fun n =>
      if bitAt data n != s.regBit .iodir (pinOf x n) then [.done (pinOf x n) none] else [] := by
  refine forBits_passes fun n e hcfg hview => ?_
  rw [← hcfg, ← hview, bitAt_reg_pinOf]
  exact writeIodirPin_passes _ _ _ e

theorem writeIodirPin_outputsFollow (p : Pin) (d old : Level) {e : State} (h : outputsFollow e) :
    outputsFollow (writeIodirPin p d old e) := by
  rcases writeIodirPin_cases p d old e with ⟨-, hw⟩ | ⟨-, -, hw⟩ | ⟨-, -, hw⟩ <;> rw [hw]
  · exact h
  · exact assign_outputsFollow _ _ _
  · exact assign_outputsFollow _ _ _

theorem writeIodirPin_outputsFollow_of_ne (p : Pin) {d old : Level} (hd : d ≠ old) (e : State) :
    outputsFollow (writeIodirPin p d old e) := by
  rcases writeIodirPin_cases p d old e with ⟨heq, -⟩ | ⟨-, -, hw⟩ | ⟨-, -, hw⟩
  · exact absurd heq hd
  · rw [hw]; exact assign_outputsFollow _ _ _
  · rw [hw]; exact assign_outputsFollow _ _ _

theorem exists_bitAt_ne {a b : Byte} (h : a ≠ b) : ∃ n, bitAt a n ≠ bitAt b n := by
  by_contra hn
  push Not at hn
  exact h (byte_eq_of_bitAt hn)

theorem iodirView_of_eq (c : Config) {d old : Level} (h : d = old) (v : PinView) : iodirView c d old v = v := if_pos h

theorem iodirView_of_output {c : Config} {d old : Level} (h : d ≠ old) (ho : d = c.iodirOut) (v : PinView) :
    iodirView c d old v = outputView c v (v.bit .olat) := by
  rw [iodirView, if_neg h, if_pos ho]

theorem iodirView_of_input {c : Config} {d old : Level} (h : d ≠ old) (hi : d ≠ c.iodirOut) (v : PinView) :
    iodirView c d old v = inNoneView c v (v.bit .gppu) := by
  rw [iodirView, if_neg h, if_neg hi]

/-- WR.IODIR leaves the bit written, and of a changed pin neither arming nor flag; every other bit stays. -/
theorem iodirView_bit (c : Config) (d : Level) (v : PinView) : let w := iodirView c d (v.bit .iodir) v
    w.bit .iodir = d ∧ (d ≠ v.bit .iodir → w.bit .gpinten = false ∧ w.bit .intf = false) ∧
    ∀ ty, ¬(ty = .iodir ∨ ty = .gpinten ∨ ty = .intf) → w.bit ty = v.bit ty := by
  intro w
  by_cases h : d = v.bit .iodir
  · have hw : w = v := iodirView_of_eq c h v
    rw [hw]
    exact ⟨h.symm, fun hne => absurd h hne, fun _ _ => rfl⟩
  · by_cases ho : d = c.iodirOut
    · have hw : w = outputView c v (v.bit .olat) := iodirView_of_output h ho v
      rw [hw]
      refine ⟨ho.symm, fun _ => ⟨rfl, rfl⟩, fun ty hty => ?_⟩
      cases ty <;> simp [outputView] at hty ⊢
    · have hw : w = inNoneView c v (v.bit .gppu) := iodirView_of_input h ho v
      rw [hw]
      refine ⟨(Bool.eq_not_of_ne ho).symm, fun _ => ⟨rfl, rfl⟩, fun ty hty => ?_⟩
      cases ty <;> simp [inNoneView] at hty ⊢

theorem State.pin_of_view {s : State} {q : Pin} {v : PinView} (h : s.view q = v) : s.pin q = v.pin :=
  congrArg PinView.pin h

theorem State.regBit_of_view {s : State} {q : Pin} {v : PinView} (h : s.view q = v) (ty : RegType) :
    s.regBit ty q = v.bit ty :=
  congrFun (congrArg PinView.bit h) ty

theorem writeIodir_outputsFollow (x : Port) (data : Byte) {s : State} (h : outputsFollow s) :
    outputsFollow (writeIodir x data s) := by
  rw [writeIodir, translate]
  exact forBits_outputsFollow (fun _ _ => writeIodirPin_outputsFollow _ _ _) h

theorem writeIodir_outputsFollow_of_ne {x : Port} {data : Byte} {s : State} (h : data ≠ s.reg .iodir x) :
    outputsFollow (writeIodir x data s) := by
  obtain ⟨m, hm⟩ := exists_bitAt_ne h
  rw [writeIodir, translate]
  exact forBits_outputsFollow_of_pass
    (f := fun n => writeIodirPin (pinOf x n) (bitAt data n) (bitAt (s.reg .iodir x) n))
    (fun _ _ => writeIodirPin_outputsFollow _ _ _) (writeIodirPin_outputsFollow_of_ne (pinOf x m) hm) s

/-- Settles O19: the view of each pin, then the frame of the loop. -/
theorem wrIodirResult : Obligations.WrIodirResult := by
  intro x data s
  refine ⟨_, exec_wrIodir x data s, ?_⟩
  have hstays := writeIodir_staysOn x data s
  have hfollow := writeIodir_outputsFollow x data (s := s)
  have hfollow' := @writeIodir_outputsFollow_of_ne x data s
  obtain ⟨hview, hout⟩ := writeIodir_view x data s
  generalize writeIodir x data s = t at *
  have hbit := fun n => iodirView_bit s.cfg (bitAt data n) (s.view (pinOf x n))
  refine ⟨byte_eq_of_bitAt fun n => ?byte, fun n => ⟨fun hd => ?same, fun hd => ?changed⟩, hstays.keepsPins,
    hstays.keepsBits fun ty n hw => ?bits, ?results, hstays.keepsOutside, hstays.ret, hfollow, hfollow'⟩
  case byte => rw [bitAt_reg_pinOf, State.regBit_of_view (hview n)]; exact (hbit n).1
  case same =>
    have h := (hview n).trans (iodirView_of_eq s.cfg hd _)
    exact ⟨State.pin_of_view h, State.regBit_of_view h⟩
  case changed =>
    obtain ⟨-, hdisarmed, -⟩ := hbit n
    refine ⟨(State.regBit_of_view (hview n) _).trans (hdisarmed hd).1,
      (State.regBit_of_view (hview n) _).trans (hdisarmed hd).2, fun ho => ?output, fun hi => ?input⟩
    case output => exact State.pin_of_view ((hview n).trans (iodirView_of_output hd ho _))
    case input => exact State.pin_of_view ((hview n).trans (iodirView_of_input hd hi _))
  case bits => exact (State.regBit_of_view (hview n) ty).trans ((hbit n).2.2 ty hw)
  case results => rw [hout, flatMap_ite_singleton]

/-! ## WR.OLAT -/

/-- The view that WR.OLAT leaves of a pin with view `v`, for a bit `d` of the data. -/
def olatView (c : Config) (d : Level) (v : PinView) : PinView :=
  if d = v.bit .olat then v
  else if v.bit .iodir = c.iodirOut then outputView c v d
  else ⟨v.pin, fun ty => if ty = .olat then d else v.bit ty⟩

theorem olatView_of_eq (c : Config) {d : Level} {v : PinView} (h : d = v.bit .olat) : olatView c d v = v := if_pos h

theorem olatView_of_output {c : Config} {d : Level} {v : PinView} (h : d ≠ v.bit .olat)
    (ho : v.bit .iodir = c.iodirOut) :
    olatView c d v = outputView c v d := by
  rw [olatView, if_neg h, if_pos ho]

/-- WR.OLAT at a pin whose bit does not change, or at an input, does no more than latch the bit. -/
theorem olatView_of_latch {c : Config} {d : Level} {v : PinView} (h : d = v.bit .olat ∨ v.bit .iodir ≠ c.iodirOut) :
    olatView c d v = ⟨v.pin, fun ty => if ty = .olat then d else v.bit ty⟩ := by
  rw [olatView]
  split
  · rename_i hd
    refine PinView.ext rfl (funext fun ty => ?_)
    by_cases hty : ty = .olat
    · simp [hty, hd]
    · simp [hty]
  · rename_i hd
    rw [if_neg (h.resolve_left hd)]

theorem writeOlatPin_passes (p : Pin) (d : Level) (e : State) :
    PassesPin p (olatView e.cfg d (e.view p))
      (if d != e.regBit .olat p && e.regBit .iodir p == e.cfg.iodirOut then [.done p none] else []) e
      (writeOlatPin p d (e.regBit .olat p) e) := by
  rcases writeOlatPin_cases p d (e.regBit .olat p) e with ⟨hd, h⟩ | ⟨hd, hout, h⟩ | ⟨hd, hin, h⟩ <;> rw [h]
  · rw [olatView_of_eq e.cfg (v := e.view p) hd, if_neg (by simp [hd])]
    exact .refl p e
  · have ho : e.regBit .iodir p = e.cfg.iodirOut := beq_iff_eq.mp hout
    rw [olatView_of_output (v := e.view p) hd ho, if_pos (by simp [hd, ho])]
    exact assign_output_passes p _ e
  · have hi : e.regBit .iodir p ≠ e.cfg.iodirOut := beq_eq_false_iff_ne.mp hin
    rw [olatView_of_latch (v := e.view p) (.inr hi), if_neg (by simp [hi])]
    exact setRegBit_olat_passes p d e

/-- What WR.OLAT leaves of each pin of its port, and its results (R124, R127). -/
theorem writeOlat_view (x : Port) (data : Byte) (s : State) : let t := writeOlat x data s
    (∀ n, t.view (pinOf x n) = olatView s.cfg (bitAt data n) (s.view (pinOf x n))) ∧
    t.out = s.out ++ bitOrder.flatMap fun n =>
      if bitAt data n != s.regBit .olat (pinOf x n) && s.regBit .iodir (pinOf x n) == s.cfg.iodirOut
      then [.done (pinOf x n) none] else [] := by
  refine forBits_passes fun n e hcfg hview => ?_
  have hbit := State.regBit_of_view hview
  simp only [State.view] at hbit
  rw [← hcfg, ← hview, bitAt_reg_pinOf, ← hbit, ← hbit]
  exact writeOlatPin_passes _ _ e

theorem writeOlatPin_outputsFollow (p : Pin) (d old : Level) {e : State} (h : outputsFollow e) :
    outputsFollow (writeOlatPin p d old e) := by
  rcases writeOlatPin_cases p d old e with ⟨-, hw⟩ | ⟨-, -, hw⟩ | ⟨-, -, hw⟩ <;> rw [hw]
  · exact h
  · exact assign_outputsFollow _ _ _
  · exact setRegBit_outputsFollow (by decide) (by decide) p d h

theorem writeOlat_outputsFollow (x : Port) (data : Byte) {s : State} (h : outputsFollow s) :
    outputsFollow (writeOlat x data s) := by
  rw [writeOlat, translate]
  exact forBits_outputsFollow (fun _ _ => writeOlatPin_outputsFollow _ _ _) h

/-- WR.OLAT leaves the bit written; every bit but it, the arming and the flag stays. -/
theorem olatView_bit (c : Config) (d : Level) (v : PinView) : (olatView c d v).bit .olat = d ∧
    ∀ ty, ¬(ty = .olat ∨ ty = .gpinten ∨ ty = .intf) → (olatView c d v).bit ty = v.bit ty := by
  by_cases h : d = v.bit .olat ∨ v.bit .iodir ≠ c.iodirOut
  · rw [olatView_of_latch h]
    exact ⟨rfl, fun ty hty => if_neg fun e => hty (.inl e)⟩
  · push Not at h
    rw [olatView_of_output h.1 h.2]
    refine ⟨rfl, fun ty hty => ?_⟩
    cases ty <;> simp [outputView] at hty ⊢
    exact h.2.symm

/-- Settles O20: the view of each pin, then the frame of the loop. -/
theorem wrOlatResult : Obligations.WrOlatResult := by
  intro x data s
  refine ⟨_, exec_wrOlat x data s, ?_⟩
  have hstays := writeOlat_staysOn x data s
  have hfollow := writeOlat_outputsFollow x data (s := s)
  obtain ⟨hview, hout⟩ := writeOlat_view x data s
  generalize writeOlat x data s = t at *
  have hbit := fun n => olatView_bit s.cfg (bitAt data n) (s.view (pinOf x n))
  refine ⟨byte_eq_of_bitAt fun n => ?byte, fun n => ⟨fun ⟨hd, ho⟩ => ?output, fun h => ?latch⟩, hstays.keepsPins,
    hstays.keepsBits fun ty n hw => ?bits, ?results, hstays.keepsOutside, hstays.ret, hfollow⟩
  case byte => rw [bitAt_reg_pinOf, State.regBit_of_view (hview n)]; exact (hbit n).1
  case output =>
    have h := (hview n).trans (olatView_of_output hd ho)
    exact ⟨State.regBit_of_view h _, State.regBit_of_view h _, State.pin_of_view h⟩
  case latch =>
    have h := (hview n).trans (olatView_of_latch h)
    exact ⟨State.pin_of_view h, fun ty hty => (State.regBit_of_view h ty).trans (if_neg hty)⟩
  case bits => exact (State.regBit_of_view (hview n) ty).trans ((hbit n).2 ty hw)
  case results => rw [hout, flatMap_ite_singleton]

end Sys2Proof.Machine
end

section
/-! The translator writes whose passes may read `GPIO` (spec/40_register_port.md R125, R126, R129): WR.GPPU and
WR.GPINTEN. The first `Watch` of the loop delivers to every pin that still holds its old request; the reads of later
ones find nothing left to deliver. -/

namespace Sys2Proof.Machine

/-! ## The plan of a write -/

/-- What a write does to the pins of a port, bit by bit: whether it assigns a request, whether that is `Watch` (else
`InNone`), the bit of `GPPU` after it, and whether `GPIO` has been read before the loop reaches a bit. -/
structure Plan where
  assigns : BitIdx → Bool
  watches : BitIdx → Bool
  pull : BitIdx → Pull
  read : Nat → Bool

/-- Exactly the passes that assign `Watch` read `GPIO` (R154). -/
structure Plan.Lawful (pl : Plan) : Prop where
  start : pl.read 0 = false
  next : ∀ n : BitIdx, pl.read (n.val + 1) = (pl.read n.val || (pl.assigns n && pl.watches n))

/-- The request the plan assigns at bit `n`. -/
def Plan.request (pl : Plan) (n : BitIdx) : Request :=
  if pl.watches n then .watch (pl.pull n) else .inNone (pl.pull n)

/-- The record that the assignment leaves of a pin with record `y` and outside level `l` (R149, R154). -/
def Plan.record (pl : Plan) (n : BitIdx) (y : PinState) (l : Level) : PinState :=
  if pl.watches n then
    { y with dir := .input, pull := pl.pull n, req := some (.watch (pl.pull n)), st := .processing,
             ews := ⟨false, 0⟩, ref := l }
  else
    { y with dir := .input, pull := pl.pull n, req := some (.inNone (pl.pull n)), st := .done none, ews := ⟨false, 0⟩ }

/-- The request of bit `n` has been replaced when the loop reaches bit `k`. -/
def Plan.replaced (pl : Plan) (k : Nat) (n : BitIdx) : Bool := decide (n.val < k) && pl.assigns n

/-- The pin of bit `n` has been delivered to, as it stood before the write, when the loop reaches bit `k`. -/
def Plan.deliveredTo (pl : Plan) (k : Nat) (n : BitIdx) : Bool :=
  if pl.replaced k n then pl.read n.val else pl.read k

/-- The result of the assignment at bit `n` itself. -/
def Plan.own (pl : Plan) (s : State) (x : Port) (n : BitIdx) : List ResultEvent :=
  [if pl.watches n then .emit (pinOf x n) (s.extLevel (pinOf x n)) else .done (pinOf x n) none]

/-- The results at the pin of bit `n` when the loop reaches bit `k`. -/
def Plan.results (pl : Plan) (s : State) (x : Port) (k : Nat) (n : BitIdx) : List ResultEvent :=
  (if pl.deliveredTo k n then (delivered s (pinOf x n)).results else []) ++
    (if pl.replaced k n then pl.own s x n else [])

/-- State `e` is what the loop has made of `s` when it reaches bit `k` of port `x`. -/
structure Plan.Reached (pl : Plan) (x : Port) (s : State) (k : Nat) (e : State) : Prop where
  pin : ∀ n, e.pin (pinOf x n) =
    if pl.replaced k n then pl.record n (s.pin (pinOf x n)) (s.extLevel (pinOf x n))
    else if pl.read k then (delivered s (pinOf x n)).pin else s.pin (pinOf x n)
  gpinten : ∀ n, e.regBit .gpinten (pinOf x n) =
    if pl.replaced k n then pl.watches n
    else if pl.read k then (delivered s (pinOf x n)).armed else s.regBit .gpinten (pinOf x n)
  intf : ∀ n, e.regBit .intf (pinOf x n) =
    if pl.read k || pl.replaced k n then false else s.regBit .intf (pinOf x n)
  gppu : ∀ n, e.regBit .gppu (pinOf x n) = if n.val < k then pl.pull n else s.regBit .gppu (pinOf x n)
  iodir : ∀ n, e.regBit .iodir (pinOf x n) =
    if pl.replaced k n then s.cfg.iodirIn else s.regBit .iodir (pinOf x n)
  olat : ∀ n, e.regBit .olat (pinOf x n) = s.regBit .olat (pinOf x n)
  gpio : pl.read k = false → ∀ n, e.regBit .gpio (pinOf x n) = s.regBit .gpio (pinOf x n)
  out : ∃ rs, e.out = s.out ++ rs ∧ rs.Perm (bitOrder.flatMap (pl.results s x k))
  ext : e.ext = s.ext
  cfg : e.cfg = s.cfg

/-- Pass `f` does at every bit what the plan says: it assigns the request, or stores the bit of `GPPU`. -/
def Plan.Performs (pl : Plan) (x : Port) (s : State) (f : BitIdx → State → State) : Prop :=
  ∀ n e, pl.Reached x s n.val e →
    f n e = if pl.assigns n then assign (pinOf x n) (pl.request n) e else e.setRegBit .gppu (pinOf x n) (pl.pull n)

/-! ## One pass -/

section
variable {pl : Plan} {x : Port} {s e : State}

theorem Plan.replaced_zero (n : BitIdx) : pl.replaced 0 n = false := by simp [Plan.replaced]

theorem Plan.replaced_here (n : BitIdx) : pl.replaced n.val n = false := by simp [Plan.replaced]

theorem Plan.replaced_succ_self (n : BitIdx) : pl.replaced (n.val + 1) n = pl.assigns n := by simp [Plan.replaced]

theorem lt_succ_iff_of_ne {n m : BitIdx} (h : m ≠ n) : m.val < n.val + 1 ↔ m.val < n.val := by
  have : m.val ≠ n.val := fun he => h (Fin.ext he)
  omega

theorem Plan.replaced_succ_of_ne {n m : BitIdx} (h : m ≠ n) : pl.replaced (n.val + 1) m = pl.replaced n.val m := by
  simp only [Plan.replaced, lt_succ_iff_of_ne h]

theorem Plan.replaced_end (n : BitIdx) : pl.replaced 8 n = pl.assigns n := by simp [Plan.replaced, n.isLt]

theorem Plan.Reached.start (h : pl.Lawful) : pl.Reached x s 0 s where
  pin n := by simp [Plan.replaced_zero, h.start]
  gpinten n := by simp [Plan.replaced_zero, h.start]
  intf n := by simp [Plan.replaced_zero, h.start]
  gppu n := by simp
  iodir n := by simp [Plan.replaced_zero]
  olat _ := rfl
  gpio _ _ := rfl
  out := ⟨[], by simp, by simp [Plan.results, Plan.deliveredTo, Plan.replaced_zero, h.start]⟩
  ext := rfl
  cfg := rfl

/-- The record that replaces a request has nothing delivered to it without a flag. -/
theorem Plan.deliver_record (pl : Plan) (p : Pin) (n : BitIdx) (y : PinState) (l l' : Level) :
    deliver p (pl.record n y l) (pl.watches n) false l' = .nothing (pl.record n y l) (pl.watches n) := by
  refine deliver_unflagged fun u _ hw hreq => ?_
  rw [Plan.record, hw] at hreq
  simp at hreq

/-- What a read would deliver when the loop has reached bit `k`: nothing to a pin whose request was replaced or that
was delivered to before, else what it would have delivered before the write. -/
theorem Plan.Reached.delivered {k : Nat} (h : pl.Reached x s k e) (n : BitIdx) :
    delivered e (pinOf x n) =
      if pl.read k || pl.replaced k n then .nothing (e.pin (pinOf x n)) (e.regBit .gpinten (pinOf x n))
      else delivered s (pinOf x n) := by
  have hpin := h.pin n
  have harmed := h.gpinten n
  have hflag := h.intf n
  have hext := extLevel_of_ext h.ext (pinOf x n)
  cases hrep : pl.replaced k n with
  | true =>
    simp only [hrep, Bool.or_true, if_true] at hpin harmed hflag ⊢
    rw [Machine.delivered, hpin, harmed, hflag]
    exact pl.deliver_record _ _ _ _ _
  | false =>
    cases hread : pl.read k with
    | true =>
      simp only [hrep, hread, Bool.or_false, Bool.false_eq_true, if_true, if_false] at hpin harmed hflag ⊢
      exact delivered_of_delivered hpin harmed hflag hext
    | false =>
      simp only [hrep, hread, Bool.or_false, Bool.false_eq_true, if_false] at hpin harmed hflag ⊢
      exact delivered_of hpin harmed hflag hext

/-- The record that replaces a request depends on no field that a delivery changes. -/
theorem Plan.Reached.record {k : Nat} (h : pl.Reached x s k e) (n : BitIdx) (hrep : pl.replaced k n = false) :
    pl.record n (e.pin (pinOf x n)) (e.extLevel (pinOf x n)) =
      pl.record n (s.pin (pinOf x n)) (s.extLevel (pinOf x n)) := by
  rw [extLevel_of_ext h.ext, h.pin, hrep]
  split
  · contradiction
  · split
    · obtain ⟨-, -, -, hdrv, href⟩ := deliver_fields (pinOf x n) (s.pin (pinOf x n)) (s.regBit .gpinten (pinOf x n))
        (s.regBit .intf (pinOf x n)) (s.pinLevel (pinOf x n))
      simp only [Plan.record, Machine.delivered, hdrv, href]
    · rfl

theorem flatMap_at {α : Type} (l : List α) (n : BitIdx) : (bitOrder.flatMap fun m => if m = n then l else []) = l := by
  fin_cases n <;> simp [bitOrder]

/-- The results of the pins grow by those of one pass. -/
theorem Plan.results_perm_step {rs : List ResultEvent} {k : Nat} {n : BitIdx} (d : BitIdx → List ResultEvent)
    (hrs : rs.Perm (bitOrder.flatMap (pl.results s x k)))
    (hstep : ∀ m, pl.results s x (n.val + 1) m = pl.results s x k m ++ d m) :
    (rs ++ bitOrder.flatMap d).Perm (bitOrder.flatMap (pl.results s x (n.val + 1))) := by
  have h := List.flatMap_append_perm bitOrder (pl.results s x k) d
  rw [show pl.results s x (n.val + 1) = fun m => pl.results s x k m ++ d m from funext hstep]
  exact (hrs.append_right _).trans h

/-! ## The three kinds of pass -/

theorem Plan.read_succ (hl : pl.Lawful) {n : BitIdx} (h : (pl.assigns n && pl.watches n) = false) :
    pl.read (n.val + 1) = pl.read n.val := by
  rw [hl.next, h, Bool.or_false]

/-- A pass that assigns nothing stores its bit of `GPPU`. -/
theorem Plan.Reached.store (hl : pl.Lawful) {n : BitIdx} (h : pl.Reached x s n.val e) (ha : pl.assigns n = false) :
    pl.Reached x s (n.val + 1) (e.setRegBit .gppu (pinOf x n) (pl.pull n)) := by
  have hread : pl.read (n.val + 1) = pl.read n.val := Plan.read_succ hl (by rw [ha, Bool.false_and])
  have hrep : ∀ m, pl.replaced (n.val + 1) m = pl.replaced n.val m := fun m => by
    by_cases hm : m = n
    · rw [hm, Plan.replaced_succ_self, Plan.replaced_here, ha]
    · exact Plan.replaced_succ_of_ne hm
  have hresults : pl.results s x (n.val + 1) = pl.results s x n.val := by
    funext m; rw [Plan.results, Plan.results, Plan.deliveredTo, Plan.deliveredTo, hrep, hread]
  constructor
  case pin => intro m; rw [setRegBit_pin, hrep, hread]; exact h.pin m
  case gpinten => intro m; rw [setRegBit_gppu_regBit, if_neg (by simp), hrep, hread]; exact h.gpinten m
  case intf => intro m; rw [setRegBit_gppu_regBit, if_neg (by simp), hrep, hread]; exact h.intf m
  case iodir => intro m; rw [setRegBit_gppu_regBit, if_neg (by simp), hrep]; exact h.iodir m
  case olat => intro m; rw [setRegBit_gppu_regBit, if_neg (by simp)]; exact h.olat m
  case gpio =>
    intro hno m
    rw [setRegBit_gppu_regBit, if_neg (by simp)]; exact h.gpio (hread.symm.trans hno) m
  case gppu =>
    intro m
    rw [setRegBit_gppu_regBit]
    by_cases hm : m = n
    · rw [hm, if_pos ⟨rfl, rfl⟩, if_pos (Nat.lt_succ_self _)]
    · rw [if_neg fun he => hm (pinOf_inj.mp he.2).2, h.gppu]
      simp only [lt_succ_iff_of_ne hm]
  case out => rw [setRegBit_out, hresults]; exact h.out
  case ext => rw [setRegBit_ext, h.ext]
  case cfg => rw [setRegBit_cfg, h.cfg]

/-- A pass that assigns `InNone` rewrites its own pin and reports it. -/
theorem Plan.Reached.assignNone (hl : pl.Lawful) {n : BitIdx} (h : pl.Reached x s n.val e) (ha : pl.assigns n = true)
    (hw : pl.watches n = false) : pl.Reached x s (n.val + 1) (assign (pinOf x n) (.inNone (pl.pull n)) e) := by
  have hread : pl.read (n.val + 1) = pl.read n.val := Plan.read_succ hl (by rw [hw, Bool.and_false])
  have hself : pl.replaced (n.val + 1) n = true := by rw [Plan.replaced_succ_self, ha]
  have hpass := assign_inNone_passes (pinOf x n) (pl.pull n) e
  have hext := (assign_staysOn (pinOf x n) (.inNone (pl.pull n)) e).ext
  generalize assign (pinOf x n) (.inNone (pl.pull n)) e = t at hpass hext
  have hother : ∀ m, m ≠ n → t.view (pinOf x m) = e.view (pinOf x m) := fun m hm =>
    hpass.other _ fun he => hm (pinOf_inj.mp he).2
  constructor
  case pin =>
    intro m
    by_cases hm : m = n
    · subst hm
      rw [State.pin_of_view hpass.own, hself, if_pos rfl, ← h.record m (Plan.replaced_here m), Plan.record, hw]; rfl
    · rw [State.pin_of_view (hother m hm), Plan.replaced_succ_of_ne hm, hread]; exact h.pin m
  case gpinten =>
    intro m
    by_cases hm : m = n
    · subst hm; rw [State.regBit_of_view hpass.own, hself, if_pos rfl, hw]; rfl
    · rw [State.regBit_of_view (hother m hm), Plan.replaced_succ_of_ne hm, hread]; exact h.gpinten m
  case intf =>
    intro m
    by_cases hm : m = n
    · subst hm; rw [State.regBit_of_view hpass.own, hself, Bool.or_true, if_pos rfl]; rfl
    · rw [State.regBit_of_view (hother m hm), Plan.replaced_succ_of_ne hm, hread]; exact h.intf m
  case gppu =>
    intro m
    by_cases hm : m = n
    · subst hm; rw [State.regBit_of_view hpass.own, if_pos (Nat.lt_succ_self _)]; rfl
    · rw [State.regBit_of_view (hother m hm)]; simp only [lt_succ_iff_of_ne hm]; exact h.gppu m
  case iodir =>
    intro m
    by_cases hm : m = n
    · subst hm; rw [State.regBit_of_view hpass.own, hself, if_pos rfl, h.cfg]; rfl
    · rw [State.regBit_of_view (hother m hm), Plan.replaced_succ_of_ne hm]; exact h.iodir m
  case olat =>
    intro m
    by_cases hm : m = n
    · subst hm; rw [State.regBit_of_view hpass.own]; exact h.olat m
    · rw [State.regBit_of_view (hother m hm)]; exact h.olat m
  case gpio =>
    intro hno m
    have hkept := h.gpio (hread.symm.trans hno) m
    by_cases hm : m = n
    · subst hm; rw [State.regBit_of_view hpass.own]; exact hkept
    · rw [State.regBit_of_view (hother m hm)]; exact hkept
  case out =>
    obtain ⟨rs, hout, hperm⟩ := h.out
    refine ⟨rs ++ [.done (pinOf x n) none], by rw [hpass.out, hout, List.append_assoc], ?_⟩
    have hd := Plan.results_perm_step (n := n) (fun m => if m = n then [.done (pinOf x n) none] else []) hperm
      fun m => ?_
    · rwa [flatMap_at] at hd
    · by_cases hm : m = n
      · subst hm
        simp [Plan.results, Plan.deliveredTo, Plan.own, hself, Plan.replaced_here, hw]
      · simp [Plan.results, Plan.deliveredTo, Plan.replaced_succ_of_ne hm, hread, hm]
  case ext => rw [hext, h.ext]
  case cfg => rw [hpass.cfg, h.cfg]

/-- What the assignment of `Watch` does to the pins of its port and its results (R154). -/
structure WatchPasses (x : Port) (n : BitIdx) (u : Pull) (e t : State) : Prop where
  pin_self : t.pin (pinOf x n) =
    { e.pin (pinOf x n) with dir := .input, pull := u, req := some (.watch u), st := .processing, ews := ⟨false, 0⟩,
                             ref := e.extLevel (pinOf x n) }
  pin : ∀ m, m ≠ n → t.pin (pinOf x m) = (delivered e (pinOf x m)).pin
  gpinten : ∀ m, t.regBit .gpinten (pinOf x m) = if m = n then true else (delivered e (pinOf x m)).armed
  intf : ∀ m, t.regBit .intf (pinOf x m) = false
  iodir : ∀ m, t.regBit .iodir (pinOf x m) = if m = n then e.cfg.iodirIn else e.regBit .iodir (pinOf x m)
  gppu : ∀ m, t.regBit .gppu (pinOf x m) = if m = n then u else e.regBit .gppu (pinOf x m)
  olat : ∀ m, t.regBit .olat (pinOf x m) = e.regBit .olat (pinOf x m)
  out : t.out = e.out ++ bitOrder.flatMap (fun m => if m = n then [] else (delivered e (pinOf x m)).results) ++
    [.emit (pinOf x n) (e.extLevel (pinOf x n))]
  cfg : t.cfg = e.cfg

theorem assign_watch_passes (x : Port) (n : BitIdx) (u : Pull) (e : State) :
    WatchPasses x n u e (assign (pinOf x n) (.watch u) e) := by
  have hread := gpioRead_inputStart (pinOf x n) u (.watch u) e
  have hne : ∀ {m : BitIdx}, m ≠ n → pinOf x m ≠ pinOf x n := fun hm he => hm (pinOf_inj.mp he).2
  rw [assign_watch]
  generalize (gpioRead (portOf (pinOf x n)) (inputStart (pinOf x n) u (.watch u) e)).2 = r at hread
  constructor
  case pin_self => rw [arm_pin, if_pos rfl, append_pin, hread.pin_self]
  case pin => intro m hm; rw [arm_pin, if_neg (hne hm), append_pin, hread.pin _ (hne hm), if_pos (by simp)]
  case gpinten =>
    intro m
    by_cases hm : m = n
    · subst hm; simp
    · rw [arm_regBit, if_neg fun he => hne hm he.2, append_regBit, hread.gpinten _ (hne hm),
      if_pos (by simp), if_neg hm]
  case intf => intro m; rw [arm_regBit, if_neg (by simp), append_regBit, hread.intf, if_pos (by simp)]
  case iodir =>
    intro m
    rw [arm_regBit, if_neg (by simp), append_regBit, hread.iodir]
    simp only [pinOf_inj, true_and]
  case gppu =>
    intro m
    rw [arm_regBit, if_neg (by simp), append_regBit, hread.gppu]
    simp only [pinOf_inj, true_and]
  case olat =>
    intro m
    rw [arm_regBit, if_neg (by simp), append_regBit]
    exact hread.other _ _ (by decide) (by decide) (by decide) (by decide) (by decide)
  case out =>
    rw [arm_out, append_out, hread.out]
    simp only [deliveredResults, portOf_pinOf, Option.some.injEq, pinOf_inj, true_and]
  case cfg => rw [arm_cfg, append_cfg, hread.cfg]

/-- A pass that assigns `Watch` reads the port: it delivers to the pins not delivered to so far. -/
theorem Plan.Reached.assignWatch (hl : pl.Lawful) {n : BitIdx} (h : pl.Reached x s n.val e) (ha : pl.assigns n = true)
    (hw : pl.watches n = true) : pl.Reached x s (n.val + 1) (assign (pinOf x n) (.watch (pl.pull n)) e) := by
  have hread : pl.read (n.val + 1) = true := by rw [hl.next, ha, hw, Bool.and_true, Bool.or_true]
  have hself : pl.replaced (n.val + 1) n = true := by rw [Plan.replaced_succ_self, ha]
  have hpass := assign_watch_passes x n (pl.pull n) e
  have hext := (assign_staysOn (pinOf x n) (.watch (pl.pull n)) e).ext
  generalize assign (pinOf x n) (.watch (pl.pull n)) e = t at hpass hext
  constructor
  case pin =>
    intro m
    by_cases hm : m = n
    · subst hm
      rw [hpass.pin_self, hself, if_pos rfl, ← h.record m (Plan.replaced_here m), Plan.record, hw]; rfl
    · rw [hpass.pin m hm, h.delivered, Plan.replaced_succ_of_ne hm, hread]
      have hpin := h.pin m
      cases hrep : pl.replaced n.val m <;> cases hr : pl.read n.val <;>
        simp_all [Delivery.nothing]
  case gpinten =>
    intro m
    rw [hpass.gpinten]
    by_cases hm : m = n
    · subst hm; rw [if_pos rfl, hself, if_pos rfl, hw]
    · rw [if_neg hm, h.delivered, Plan.replaced_succ_of_ne hm, hread]
      have harmed := h.gpinten m
      cases hrep : pl.replaced n.val m <;> cases hr : pl.read n.val <;>
        simp_all [Delivery.nothing]
  case intf => intro m; rw [hpass.intf, hread, Bool.true_or, if_pos rfl]
  case gppu =>
    intro m
    rw [hpass.gppu]
    by_cases hm : m = n
    · rw [if_pos hm, hm, if_pos (Nat.lt_succ_self _)]
    · rw [if_neg hm, h.gppu]; simp only [lt_succ_iff_of_ne hm]
  case iodir =>
    intro m
    rw [hpass.iodir]
    by_cases hm : m = n
    · rw [if_pos hm, hm, hself, if_pos rfl, h.cfg]
    · rw [if_neg hm, h.iodir, Plan.replaced_succ_of_ne hm]
  case olat => intro m; rw [hpass.olat, h.olat]
  case gpio => intro hno; rw [hread] at hno; exact absurd hno Bool.false_ne_true.symm
  case out =>
    obtain ⟨rs, hout, hperm⟩ := h.out
    have hsplit := List.flatMap_append_perm bitOrder
      (fun m => if m = n then [] else (Machine.delivered e (pinOf x m)).results)
      (fun m => if m = n then [ResultEvent.emit (pinOf x n) (e.extLevel (pinOf x n))] else [])
    rw [flatMap_at] at hsplit
    refine ⟨_, by rw [hpass.out, hout, List.append_assoc, List.append_assoc], (hsplit.append_left rs).trans ?_⟩
    refine Plan.results_perm_step _ hperm fun m => ?_
    rw [h.delivered, extLevel_of_ext h.ext]
    by_cases hm : m = n
    · subst hm
      simp [Plan.results, Plan.deliveredTo, Plan.own, hself, Plan.replaced_here, hw]
    · cases hrep : pl.replaced n.val m <;> cases hr : pl.read n.val <;>
        simp [Plan.results, Plan.deliveredTo, Plan.replaced_succ_of_ne hm, hread, hm, hrep, hr, Delivery.nothing]
  case ext => rw [hext, h.ext]
  case cfg => rw [hpass.cfg, h.cfg]

/-- The loop of a write that performs a plan reaches the end of it. -/
theorem Plan.Performs.reached {f : BitIdx → State → State} (hf : pl.Performs x s f) (hl : pl.Lawful) :
    pl.Reached x s 8 (forBits f s) := by
  refine forBits_reached (P := pl.Reached x s) (.start hl) fun n e he => ?_
  rw [hf n e he]
  cases ha : pl.assigns n with
  | false => exact he.store hl ha
  | true =>
    rw [if_pos rfl, Plan.request]
    cases hw : pl.watches n with
    | false => exact he.assignNone hl ha hw
    | true => exact he.assignWatch hl ha hw

end

/-- The bits a write that performs a plan keeps at the pins of its port. -/
theorem Plan.Reached.keepsBit {pl : Plan} {x : Port} {s t : State} (h : pl.Reached x s 8 t) (hstays : StaysOn x s t)
    {ty : RegType} {n : BitIdx} (hty : ¬(ty = .gppu ∨ ty = .gpinten ∨ ty = .intf ∨ (ty = .gpio ∧ pl.read 8 = true)))
    (hiodir : ty = .iodir → pl.assigns n = true → s.regBit .iodir (pinOf x n) = s.cfg.iodirIn) :
    t.regBit ty (pinOf x n) = s.regBit ty (pinOf x n) := by
  push Not at hty
  obtain ⟨hgppu, hgpinten, hintf, hgpio⟩ := hty
  cases ty with
  | gppu => exact absurd rfl hgppu
  | gpinten => exact absurd rfl hgpinten
  | intf => exact absurd rfl hintf
  | ipol | defval | intcon | intcap => exact hstays.fixed _ _ (by simp)
  | iocon => exact regBit_of_reg_eq hstays.iocon
  | olat => exact h.olat n
  | gpio => exact h.gpio (Bool.eq_false_iff.mpr (hgpio rfl)) n
  | iodir =>
    rw [h.iodir, Plan.replaced_end]
    split
    · rename_i ha; exact (hiodir rfl ha).symm
    · rfl

/-- Results appended up to order. -/
theorem appendsSome_of_perm {s t : State} {rs l : List ResultEvent} (hout : t.out = s.out ++ rs) (h : rs.Perm l) :
    appendsSome s t l [] := by
  have hlen := h.length_eq
  refine ⟨by rw [hout, List.take_left], ?_, ?_⟩
  · rw [hout, List.drop_left, ← hlen, List.take_length]; exact h
  · rw [hout, List.drop_left, ← hlen, List.drop_length]

/-! ## WR.GPPU -/

section
variable (x : Port) (data : Byte) (s : State)

/-- WR.GPPU changes the bit of an input pin: the write assigns a request there (R125). -/
def gppuAssigns (n : BitIdx) : Bool :=
  bitAt data n != s.regBit .gppu (pinOf x n) && !(s.regBit .iodir (pinOf x n) == s.cfg.iodirOut)

/-- The pin of such a bit is armed before the write. -/
def gppuStarts (n : BitIdx) : Bool := gppuAssigns x data s n && s.regBit .gpinten (pinOf x n)

/-- `GPIO` has been read before the loop of WR.GPPU reaches bit `k`. -/
def gppuRead (k : Nat) : Bool := bitOrder.any fun m => decide (m.val < k) && gppuStarts x data s m

/-- The plan of WR.GPPU: `Watch` for a pin that is armed when the loop reaches it. -/
def gppuPlan : Plan where
  assigns := gppuAssigns x data s
  watches n := if gppuRead x data s n.val then (delivered s (pinOf x n)).armed else s.regBit .gpinten (pinOf x n)
  pull n := bitAt data n
  read := gppuRead x data s

end

/-- One more bit under the bound. -/
theorem bitOrder_any_succ (c : BitIdx → Bool) (n : BitIdx) :
    (bitOrder.any fun m => decide (m.val < n.val + 1) && c m) =
      ((bitOrder.any fun m => decide (m.val < n.val) && c m) || c n) := by
  fin_cases n <;> simp [bitOrder, Bool.or_assoc]

theorem bitOrder_any_zero (c : BitIdx → Bool) : (bitOrder.any fun m => decide (m.val < 0) && c m) = false := by
  simp

theorem bitOrder_any_end (c : BitIdx → Bool) : (bitOrder.any fun m => decide (m.val < 8) && c m) = bitOrder.any c := by
  congr 1
  funext m
  simp [m.isLt]

theorem gppuPlan_lawful (x : Port) (data : Byte) (s : State) : (gppuPlan x data s).Lawful where
  start := bitOrder_any_zero (gppuStarts x data s)
  next n := by
    have hsucc : gppuRead x data s (n.val + 1) = (gppuRead x data s n.val || gppuStarts x data s n) :=
      bitOrder_any_succ _ n
    simp only [gppuPlan, hsucc]
    cases hr : gppuRead x data s n.val with
    | true => simp
    | false => simp [gppuStarts]

theorem gppuPlan_performs (x : Port) (data : Byte) (s : State) :
    (gppuPlan x data s).Performs x s
      (fun n => writeGppuPin (pinOf x n) (bitAt data n) (bitAt (s.reg .gppu x) n)) := by
  intro n e he
  have hiodir : e.iodirIsOut (pinOf x n) = (s.regBit .iodir (pinOf x n) == s.cfg.iodirOut) := by
    rw [State.iodirIsOut, he.iodir, Plan.replaced_here, he.cfg]; rfl
  have hgpinten : e.regBit .gpinten (pinOf x n) = (gppuPlan x data s).watches n := by
    rw [he.gpinten, Plan.replaced_here]; rfl
  have hgppu : e.regBit .gppu (pinOf x n) = s.regBit .gppu (pinOf x n) := by
    rw [he.gppu, if_neg (Nat.lt_irrefl _)]
  have hassigns : (gppuPlan x data s).assigns n =
      (bitAt data n != s.regBit .gppu (pinOf x n) && !e.iodirIsOut (pinOf x n)) := by rw [hiodir]; rfl
  have hpull : (gppuPlan x data s).pull n = bitAt data n := rfl
  beta_reduce
  rw [hassigns, Plan.request, ← hgpinten, hpull, bitAt_reg_pinOf]
  rcases writeGppuPin_cases (pinOf x n) (bitAt data n) (s.regBit .gppu (pinOf x n)) e with
    ⟨hd, h⟩ | ⟨hd, ho, h⟩ | ⟨hd, ho, hg, h⟩ | ⟨hd, ho, hg, h⟩
  · rw [h, hd, bne_self_eq_false, Bool.false_and, if_neg Bool.false_ne_true, ← hgppu, setRegBit_self _ (by decide)]
  · rw [h, ho, Bool.not_true, Bool.and_false, if_neg Bool.false_ne_true]
  · rw [h, ho, hg, if_pos (by simpa using hd), if_pos rfl]
  · rw [h, ho, hg, if_pos (by simpa using hd), if_neg Bool.false_ne_true]

/-- What WR.GPPU makes of the pins of its port. -/
theorem writeGppu_reached (x : Port) (data : Byte) (s : State) :
    (gppuPlan x data s).Reached x s 8 (writeGppu x data s) :=
  (gppuPlan_performs x data s).reached (gppuPlan_lawful x data s)

theorem writeGppuPin_outputsFollow (p : Pin) (d old : Level) {e : State} (h : outputsFollow e) :
    outputsFollow (writeGppuPin p d old e) := by
  rcases writeGppuPin_cases p d old e with ⟨-, hw⟩ | ⟨-, -, hw⟩ | ⟨-, -, -, hw⟩ | ⟨-, -, -, hw⟩ <;> rw [hw]
  · exact h
  · exact setRegBit_outputsFollow (by decide) (by decide) p d h
  · exact assign_outputsFollow _ _ _
  · exact assign_outputsFollow _ _ _

theorem writeGppu_outputsFollow (x : Port) (data : Byte) {s : State} (h : outputsFollow s) :
    outputsFollow (writeGppu x data s) := by
  rw [writeGppu, translate]
  exact forBits_outputsFollow (fun _ _ => writeGppuPin_outputsFollow _ _ _) h

/-- Settles O21: the plan of the write, read at the end of the loop. -/
theorem wrGppuResult : Obligations.WrGppuResult := by
  intro x data s changed isOut starts readBefore read armedAt deliveredTo
  refine ⟨_, exec_wrGppu x data s, ?_⟩
  have hstays := writeGppu_staysOn x data s
  have hfollow := writeGppu_outputsFollow x data (s := s)
  have hend := writeGppu_reached x data s
  generalize writeGppu x data s = t at *
  have hread : (gppuPlan x data s).read 8 = read := bitOrder_any_end _
  have hassigns : ∀ n, (gppuPlan x data s).replaced 8 n = (changed n && !isOut n) := Plan.replaced_end
  have hwatches : ∀ n, (gppuPlan x data s).watches n = armedAt n := fun _ => rfl
  obtain ⟨rs, hout, hperm⟩ := hend.out
  have hpin := hend.pin
  have hgpinten := hend.gpinten
  have hintf := hend.intf
  simp only [hread, hassigns] at hpin hgpinten hintf
  have hchanged : ∀ n, changed n = true → isOut n = false → (changed n && !isOut n) = true :=
    fun n hc ho => by rw [hc, ho]; rfl
  refine ⟨byte_eq_of_bitAt fun n => ?byte,
    fun n => ⟨fun h => ?kept, fun hc ho harm => ?watch, fun hc ho harm => ?none, hintf n⟩,
    hstays.keepsPins, hstays.keepsBits fun ty n hw => ?bits,
    appendsSome_of_perm hout ?results, hstays.keepsOutside, hstays.ret, hfollow⟩
  case byte => rw [bitAt_reg_pinOf, hend.gppu, if_pos n.isLt]; rfl
  case kept =>
    have hnot : (changed n && !isOut n) = false := by rcases h with h | h <;> simp [h]
    rw [hpin, hgpinten, hnot, if_neg Bool.false_ne_true, if_neg Bool.false_ne_true]
    exact ⟨rfl, rfl⟩
  case watch =>
    rw [hpin, hgpinten, hchanged n hc ho, if_pos rfl, if_pos rfl, Plan.record, hwatches, harm]
    exact ⟨rfl, rfl⟩
  case none =>
    rw [hpin, hgpinten, hchanged n hc ho, if_pos rfl, if_pos rfl, Plan.record, hwatches, harm]
    exact ⟨rfl, rfl⟩
  case bits =>
    rw [← hread] at hw
    refine hend.keepsBit hstays hw fun hty ha => ?_
    have ho : isOut n = false := by
      have h' : (changed n && !isOut n) = true := ha
      simpa using (Bool.and_eq_true_iff.mp h').2
    exact Bool.eq_not_of_ne (beq_eq_false_iff_ne.mp ho)
  case results =>
    convert hperm using 2
    funext n
    simp only [Plan.results, Plan.deliveredTo, Plan.own, hread, hassigns, hwatches]
    rfl

/-! ## WR.GPINTEN -/

section
variable (x : Port) (data : Byte) (s : State)

/-- The effective bit of WR.GPINTEN: that of an output pin counts as 0 (R126). -/
def gpintenBit (n : BitIdx) : Bool :=
  if s.regBit .iodir (pinOf x n) = s.cfg.iodirOut then false else bitAt data n

/-- WR.GPINTEN arms the pin of bit `n`. -/
def gpintenArms (n : BitIdx) : Bool := gpintenBit x data s n && !s.regBit .gpinten (pinOf x n)

/-- The plan of WR.GPINTEN: a request where the effective bit changes, `Watch` where it becomes 1. -/
def gpintenPlan : Plan where
  assigns n := gpintenBit x data s n != s.regBit .gpinten (pinOf x n)
  watches n := gpintenBit x data s n
  pull n := s.regBit .gppu (pinOf x n)
  read k := bitOrder.any fun m => decide (m.val < k) && gpintenArms x data s m

end

theorem gpintenPlan_lawful (x : Port) (data : Byte) (s : State) : (gpintenPlan x data s).Lawful where
  start := bitOrder_any_zero (gpintenArms x data s)
  next n := by
    have harms : gpintenArms x data s n =
        ((gpintenBit x data s n != s.regBit .gpinten (pinOf x n)) && gpintenBit x data s n) := by
      rw [gpintenArms]
      cases gpintenBit x data s n <;> cases s.regBit .gpinten (pinOf x n) <;> rfl
    exact (bitOrder_any_succ _ n).trans (by rw [harms]; rfl)

theorem gpintenPlan_performs (x : Port) (data : Byte) (s : State) :
    (gpintenPlan x data s).Performs x s
      (fun n => writeGpintenPin (pinOf x n) (bitAt data n) (bitAt (s.reg .gpinten x) n)) := by
  intro n e he
  have hgppu : e.regBit .gppu (pinOf x n) = s.regBit .gppu (pinOf x n) := by
    rw [he.gppu, if_neg (Nat.lt_irrefl _)]
  have hbit : (if e.iodirIsOut (pinOf x n) then false else bitAt data n) = gpintenBit x data s n := by
    have hiodir : e.regBit .iodir (pinOf x n) = s.regBit .iodir (pinOf x n) := by
      rw [he.iodir, Plan.replaced_here]; rfl
    simp only [gpintenBit, State.iodirIsOut, hiodir, he.cfg, beq_iff_eq]
  have hassigns : (gpintenPlan x data s).assigns n =
      (gpintenBit x data s n != s.regBit .gpinten (pinOf x n)) := rfl
  have hwatches : (gpintenPlan x data s).watches n = gpintenBit x data s n := rfl
  have hpull : (gpintenPlan x data s).pull n = e.regBit .gppu (pinOf x n) := hgppu.symm
  have hcases := writeGpintenPin_cases (pinOf x n) (bitAt data n) (s.regBit .gpinten (pinOf x n)) e
  beta_reduce
  rw [hassigns, Plan.request, hwatches, hpull, bitAt_reg_pinOf]
  rw [hbit] at hcases
  rcases hcases with ⟨heq, h⟩ | ⟨hon, hold, h⟩ | ⟨hoff, hold, h⟩
  · rw [h, heq, bne_self_eq_false, if_neg Bool.false_ne_true, setRegBit_self _ (by decide)]
  · rw [h, hon, hold]; rfl
  · rw [h, hoff, hold]; rfl

/-- What WR.GPINTEN makes of the pins of its port. -/
theorem writeGpinten_reached (x : Port) (data : Byte) (s : State) :
    (gpintenPlan x data s).Reached x s 8 (writeGpinten x data s) :=
  (gpintenPlan_performs x data s).reached (gpintenPlan_lawful x data s)

theorem writeGpintenPin_outputsFollow (p : Pin) (d old : Level) {e : State} (h : outputsFollow e) :
    outputsFollow (writeGpintenPin p d old e) := by
  rcases writeGpintenPin_cases p d old e with ⟨-, hw⟩ | ⟨-, -, hw⟩ | ⟨-, -, hw⟩ <;> rw [hw]
  · exact h
  · exact assign_outputsFollow _ _ _
  · exact assign_outputsFollow _ _ _

theorem writeGpinten_outputsFollow (x : Port) (data : Byte) {s : State} (h : outputsFollow s) :
    outputsFollow (writeGpinten x data s) := by
  rw [writeGpinten, translate]
  exact forBits_outputsFollow (fun _ _ => writeGpintenPin_outputsFollow _ _ _) h

/-- Settles O22: the plan of the write, read at the end of the loop. -/
theorem wrGpintenResult : Obligations.WrGpintenResult := by
  intro x data s old e arms readBefore read deliveredTo
  refine ⟨_, exec_wrGpinten x data s, ?_⟩
  have hstays := writeGpinten_staysOn x data s
  have hfollow := writeGpinten_outputsFollow x data (s := s)
  have hend := writeGpinten_reached x data s
  generalize writeGpinten x data s = t at *
  have hread : (gpintenPlan x data s).read 8 = read := bitOrder_any_end _
  have hassigns : ∀ n, (gpintenPlan x data s).replaced 8 n = (e n != old n) := Plan.replaced_end
  have hwatches : ∀ n, (gpintenPlan x data s).watches n = e n := fun _ => rfl
  obtain ⟨rs, hout, hperm⟩ := hend.out
  have hpin := hend.pin
  have hgpinten := hend.gpinten
  have hintf := hend.intf
  simp only [hread, hassigns] at hpin hgpinten hintf
  refine ⟨fun n => ⟨fun h => ?kept, fun he ho => ?watch, fun he ho => ?none, hintf n⟩,
    hstays.keepsPins, hstays.keepsBits fun ty n hw => ?bits,
    appendsSome_of_perm hout ?results, hstays.keepsOutside, hstays.ret, hfollow⟩
  case kept =>
    have hnot : (e n != old n) = false := by simp [h]
    rw [hpin, hgpinten, hnot, if_neg Bool.false_ne_true, if_neg Bool.false_ne_true]
    exact ⟨rfl, rfl⟩
  case watch =>
    have hchanged : (e n != old n) = true := by rw [he, ho]; rfl
    rw [hpin, hgpinten, hchanged, if_pos rfl, if_pos rfl, Plan.record, hwatches, he]
    exact ⟨rfl, rfl⟩
  case none =>
    have hchanged : (e n != old n) = true := by rw [he, ho]; rfl
    rw [hpin, hgpinten, hchanged, if_pos rfl, if_pos rfl, Plan.record, hwatches, he]
    refine ⟨rfl, ?_, rfl⟩
    rw [hend.iodir, hassigns, hchanged, if_pos rfl]
  case bits =>
    by_cases hg : ty = .gppu
    · rw [hg, hend.gppu, if_pos n.isLt]; rfl
    · rw [← hread] at hw
      refine hend.keepsBit hstays (by tauto) fun hty ha => ?_
      by_contra hin
      have ho : s.regBit .iodir (pinOf x n) = s.cfg.iodirOut := by
        rwa [Config.iodirIn, Bool.not_eq_not] at hin
      have he : e n = false := if_pos ho
      have hold : old n = true := by
        have h' : (e n != old n) = true := ha
        rw [he] at h'
        simpa using h'
      exact hw (.inr (.inr (.inr ⟨hty, ho, hold⟩)))
  case results =>
    convert hperm using 2
    funext n
    simp only [Plan.results, Plan.deliveredTo, Plan.own, hread, hassigns, hwatches]
    by_cases h : e n = old n
    · simp [deliveredTo, h]
    · simp [deliveredTo, h]
      rfl

end Sys2Proof.Machine
end

section
/-! What one event can do (spec/30_encoding.md R87): its effect, by kind of operation, and what the effects do to one
pin. -/

namespace Sys2Proof.Machine

/-! ## The effect of an event -/

/-- The pin and the request of a REQ operation (R148 to R154); none for every other operation. -/
def requestOf : Instr → Option (Pin × Request)
  | .reqOut p l => some (p, .output l)
  | .reqNone p u => some (p, .inNone u)
  | .reqRead p u => some (p, .inRead u)
  | .reqWstate p t u => some (p, .waitState u t)
  | .reqWany p u => some (p, .waitAny u)
  | .reqWspec p t u => some (p, .waitSpec u t)
  | .reqWatch p u => some (p, .watch u)
  | _ => none

/-- The effects an operation can have on state `s`. -/
inductive HasEffect (s : State) : Instr → State → Prop
  /-- A read without a side effect, or an ignored word. -/
  | returns (i : Instr) (r : Option Byte) : HasEffect s i { s with ret := r }
  | reads {x : Port} {r : Byte × State} (h : gpioRead x s = r) : HasEffect s (.rdGpio x) (returning r)
  | storesDefval (x : Port) (v : Byte) : HasEffect s (.wrDefval x v) (s.setReg .defval x v)
  | writesIodir (x : Port) (v : Byte) : HasEffect s (.wrIodir x v) (writeIodir x v s)
  | writesOlat (x : Port) (v : Byte) : HasEffect s (.wrOlat x v) (writeOlat x v s)
  | writesGppu (x : Port) (v : Byte) : HasEffect s (.wrGppu x v) (writeGppu x v s)
  | writesGpinten (x : Port) (v : Byte) : HasEffect s (.wrGpinten x v) (writeGpinten x v s)
  | assigns {i : Instr} {p : Pin} {r : Request} (h : requestOf i = some (p, r)) : HasEffect s i (assign p r s)
  | pin (p : Pin) (b : Level) : HasEffect s (.pin p b) (pinEvent p b s)
  | poll (p : Pin) : HasEffect s (.poll p) (pollEvent p s)
  | svc (x : Port) : HasEffect s (.svc x) (serviceEvent x s)
  | reset : HasEffect s .reset (resetEvent s)

/-- Every operation has one of the effects. -/
theorem hasEffect_of_exec {i : Instr} {s t : State} (h : exec i s = .next t) : HasEffect s i t := by
  cases i with
  | rdIodir _ | rdIpol _ | rdGpinten _ | rdDefval _ | rdIntcon _ | rdIocon _ | rdGppu _ | rdIntf _ | rdIntcap _
  | rdOlat _ | rdUndef _ => rw [← outcome_next_inj h]; exact .returns _ _
  | wrIpol _ _ | wrIntcon _ _ | wrIocon _ _ | wrIntf _ _ | wrIntcap _ _ | wrGpio _ _ | wrUndef _ _ | reqRsvd _
  | rsvdClass _ => rw [← outcome_next_inj h]; exact .returns _ s.ret
  | rdGpio x => rw [← outcome_next_inj h]; exact .reads rfl
  | wrDefval x v => rw [← outcome_next_inj h]; exact .storesDefval x v
  | wrIodir x v => rw [← outcome_next_inj h]; exact .writesIodir x v
  | wrOlat x v => rw [← outcome_next_inj h]; exact .writesOlat x v
  | wrGppu x v => rw [← outcome_next_inj h]; exact .writesGppu x v
  | wrGpinten x v => rw [← outcome_next_inj h]; exact .writesGpinten x v
  | reqOut _ _ | reqNone _ _ | reqRead _ _ | reqWstate _ _ _ | reqWany _ _ | reqWspec _ _ _ | reqWatch _ _ =>
    rw [← outcome_next_inj h]; exact .assigns rfl
  | pin p b => rw [← outcome_next_inj h]; exact .pin p b
  | poll p => rw [← outcome_next_inj h]; exact .poll p
  | svc x => rw [← outcome_next_inj h]; exact .svc x
  | reset => rw [← outcome_next_inj h]; exact .reset

theorem readsPort_of_gpioRead {x : Port} {s : State} {r : Byte × State} (h : gpioRead x s = r) :
    ReadsPort x s r.2 := h ▸ gpioRead_readsPort x s

theorem staysOn_of_gpioRead {x : Port} {s : State} {r : Byte × State} (h : gpioRead x s = r) : StaysOn x s r.2 :=
  (readsPort_of_gpioRead h).staysOn

theorem targetPort_of_requestOf {i : Instr} {p : Pin} {r : Request} (h : requestOf i = some (p, r)) :
    targetPort i = some (portOf p) := by
  cases i <;> simp_all [requestOf, targetPort]

/-! ## The port of an event -/

theorem withRet_regBit (s : State) (r : Option Byte) (ty : RegType) (q : Pin) :
    ({ s with ret := r } : State).regBit ty q = s.regBit ty q := fetched_regBit s s.inbox r ty q

theorem raiseFlag_staysOn (p : Pin) (s : State) : StaysOn (portOf p) s (raiseFlag p s) where
  pin q _ := raiseFlag_pin p s q
  regBit ty q hq := by rw [raiseFlag_regBit, if_neg fun h => hq (by rw [h.2])]
  fixed ty q hf := by rw [raiseFlag_regBit, if_neg (by rintro ⟨rfl, -⟩; simp at hf)]
  out := ⟨[], by simp⟩
  cfg := raiseFlag_cfg p s
  iocon := raiseFlag_iocon p s
  ext := raiseFlag_ext p s
  inbox := raiseFlag_inbox p s
  ret := raiseFlag_ret p s

/-- PIN acts on its own port, but for the outside level. -/
theorem pinEvent_staysOn (p : Pin) (b : Level) (s : State) :
    StaysOn (portOf p) (s.setExt p b) (pinEvent p b s) := by
  rcases pinEvent_cases p b s with ⟨-, h⟩ | ⟨-, h⟩ <;> rw [h]
  · exact raiseFlag_staysOn p _
  · exact .refl _ _

theorem pollEvent_staysOn (p : Pin) (s : State) : StaysOn (portOf p) s (pollEvent p s) := by
  rcases pollEvent_cases p s with ⟨-, h⟩ | ⟨-, -, h⟩ | ⟨-, -, h⟩ <;> rw [h]
  · exact .refl _ s
  · exact setPin_staysOn p _ s
  · exact (raiseFlag_staysOn p s).trans (setPin_staysOn p _ _)

theorem serviceEvent_staysOn (x : Port) (s : State) : StaysOn x s (serviceEvent x s) := by
  rcases serviceEvent_cases x s with ⟨-, h⟩ | ⟨-, h⟩ <;> rw [h]
  · exact .refl x s
  · exact gpioRead_staysOn x s

theorem setReg_defval_regBit (s : State) (x : Port) (v : Byte) {ty : RegType} {q : Pin}
    (h : ty ≠ .defval ∨ portOf q ≠ x) : (s.setReg .defval x v).regBit ty q = s.regBit ty q := by
  refine regBit_of_reg_eq ?_
  rw [setReg_reg, if_neg]
  rintro ⟨rfl, hx | hx⟩
  · exact h.elim (fun h => h rfl) (fun h => h hx)
  · exact RegType.noConfusion hx

/-- Settles O53: every effect of an event with a port stays on that port. -/
theorem eventsStayOnTheirPort : Obligations.EventsStayOnTheirPort := by
  intro i s t x hx hexec q hq
  have of_stays : ∀ {e : State}, StaysOn x s e → e.pin q = s.pin q ∧ ∀ ty, e.regBit ty q = s.regBit ty q :=
    fun h => ⟨h.pin q hq, fun ty => h.regBit ty q hq⟩
  cases hasEffect_of_exec hexec with
  | returns _ r => exact ⟨rfl, fun ty => withRet_regBit s r ty q⟩
  | reads h =>
    obtain rfl := Option.some.inj hx
    obtain ⟨hpin, hbits⟩ := of_stays (staysOn_of_gpioRead h)
    exact ⟨hpin, fun ty => (returning_regBit _ _ _).trans (hbits ty)⟩
  | storesDefval y v =>
    obtain rfl : y = x := Option.some.inj hx
    exact ⟨setReg_pin s _ _ _ q, fun ty => setReg_defval_regBit s y v (.inr hq)⟩
  | writesIodir y v => obtain rfl : y = x := Option.some.inj hx; exact of_stays (writeIodir_staysOn y v s)
  | writesOlat y v => obtain rfl : y = x := Option.some.inj hx; exact of_stays (writeOlat_staysOn y v s)
  | writesGppu y v => obtain rfl : y = x := Option.some.inj hx; exact of_stays (writeGppu_staysOn y v s)
  | writesGpinten y v => obtain rfl : y = x := Option.some.inj hx; exact of_stays (writeGpinten_staysOn y v s)
  | @assigns _ p r h =>
    obtain rfl : portOf p = x := Option.some.inj ((targetPort_of_requestOf h).symm.trans hx)
    exact of_stays (assign_staysOn p r s)
  | pin p b =>
    obtain rfl : portOf p = x := Option.some.inj hx
    have h := pinEvent_staysOn p b s
    exact ⟨h.pin q hq, fun ty => (h.regBit ty q hq).trans (setExt_regBit s p b ty q)⟩
  | poll p => obtain rfl : portOf p = x := Option.some.inj hx; exact of_stays (pollEvent_staysOn p s)
  | svc y => obtain rfl : y = x := Option.some.inj hx; exact of_stays (serviceEvent_staysOn y s)
  | reset => exact absurd hx (by simp [targetPort])

/-! ## Who writes what -/

/-- Every effect appends results. -/
theorem HasEffect.appends {i : Instr} {s t : State} (h : HasEffect s i t) : ∃ rs, t.out = s.out ++ rs := by
  cases h with
  | returns => exact ⟨[], (List.append_nil _).symm⟩
  | reads h => exact (staysOn_of_gpioRead h).out
  | storesDefval x v => exact ⟨[], by simp⟩
  | writesIodir x v => exact (writeIodir_staysOn x v s).out
  | writesOlat x v => exact (writeOlat_staysOn x v s).out
  | writesGppu x v => exact (writeGppu_staysOn x v s).out
  | writesGpinten x v => exact (writeGpinten_staysOn x v s).out
  | @assigns _ p r _ => exact (assign_staysOn p r s).out
  | pin p b => exact (pinEvent_staysOn p b s).out
  | poll p => exact (pollEvent_staysOn p s).out
  | svc x => exact (serviceEvent_staysOn x s).out
  | reset => exact ⟨[], by rw [resetEvent_out, List.append_nil]⟩

/-- Settles O48: the step waits, or has the effect of the word taken. -/
theorem resultTraceIsAppendOnly : Obligations.ResultTraceIsAppendOnly := by
  intro s t h
  rcases fetch_cases s with ⟨-, hidle⟩ | ⟨w, rest, -, htaken⟩
  · rw [step_of_fetch_none hidle] at h
    exact ⟨[], by rw [← outcome_next_inj h, List.append_nil]⟩
  · rw [step_of_fetch_some htaken] at h
    exact (hasEffect_of_exec h).appends

/-- What no event but RESET and WR.DEFVAL writes, beside the outside levels. -/
structure KeepsFixed (s t : State) : Prop where
  cfg : t.cfg = s.cfg
  inbox : t.inbox = s.inbox
  iocon : t.iocon = s.iocon
  reg : ∀ ty x, ty = .ipol ∨ ty = .defval ∨ ty = .intcon ∨ ty = .intcap → t.reg ty x = s.reg ty x

theorem StaysOn.keepsFixed {x : Port} {s t : State} (h : StaysOn x s t) : KeepsFixed s t :=
  ⟨h.cfg, h.inbox, h.iocon, fun ty _ hty => reg_eq_of_regBit fun _ => h.fixed ty _ hty⟩

/-- The claim of `OnlyNamedEventsWrite` for an effect that keeps all of it. -/
theorem KeepsFixed.onlyNamed {s t : State} (h : KeepsFixed s t) {A B C : Prop} (hext : A → t.ext = s.ext) :
    t.cfg = s.cfg ∧ t.inbox = s.inbox ∧ (A → t.ext = s.ext) ∧
    (B → t.iocon = s.iocon ∧
      (∀ x, t.reg .ipol x = s.reg .ipol x ∧ t.reg .intcon x = s.reg .intcon x ∧ t.reg .intcap x = s.reg .intcap x) ∧
      (C → ∀ x, t.reg .defval x = s.reg .defval x)) :=
  ⟨h.cfg, h.inbox, hext, fun _ => ⟨h.iocon,
    fun x => ⟨h.reg .ipol x (by simp), h.reg .intcon x (by simp), h.reg .intcap x (by simp)⟩,
    fun _ x => h.reg .defval x (by simp)⟩⟩

theorem StaysOn.onlyNamed {x : Port} {s t : State} (h : StaysOn x s t) {A B C : Prop} :
    t.cfg = s.cfg ∧ t.inbox = s.inbox ∧ (A → t.ext = s.ext) ∧
    (B → t.iocon = s.iocon ∧
      (∀ x, t.reg .ipol x = s.reg .ipol x ∧ t.reg .intcon x = s.reg .intcon x ∧ t.reg .intcap x = s.reg .intcap x) ∧
      (C → ∀ x, t.reg .defval x = s.reg .defval x)) :=
  h.keepsFixed.onlyNamed fun _ => h.ext

/-- Settles O49, effect by effect. -/
theorem onlyNamedEventsWrite : Obligations.OnlyNamedEventsWrite := by
  intro i s t hexec
  cases hasEffect_of_exec hexec with
  | returns _ r =>
    exact KeepsFixed.onlyNamed ⟨rfl, rfl, rfl, fun ty x _ => fetched_reg s s.inbox r ty x⟩ fun _ => rfl
  | reads hr =>
    have h := staysOn_of_gpioRead hr
    exact KeepsFixed.onlyNamed ⟨h.cfg, h.inbox, h.iocon, fun ty y hty =>
      (returning_reg _ ty y).trans (h.keepsFixed.reg ty y hty)⟩ fun _ => h.ext
  | storesDefval x v =>
    refine ⟨setReg_cfg s _ x v, setReg_inbox s _ x v, fun _ => setReg_ext s _ x v, fun _ => ⟨setReg_iocon s _ x v,
      fun y => ⟨?_, ?_, ?_⟩, fun hnot => absurd rfl (hnot x v)⟩⟩
    all_goals rw [setReg_reg, if_neg (by simp)]
  | writesIodir x v => exact (writeIodir_staysOn x v s).onlyNamed
  | writesOlat x v => exact (writeOlat_staysOn x v s).onlyNamed
  | writesGppu x v => exact (writeGppu_staysOn x v s).onlyNamed
  | writesGpinten x v => exact (writeGpinten_staysOn x v s).onlyNamed
  | @assigns _ p r _ => exact (assign_staysOn p r s).onlyNamed
  | pin p b =>
    have h := pinEvent_staysOn p b s
    have hfixed : KeepsFixed s (pinEvent p b s) := ⟨h.cfg, h.inbox, h.iocon, fun ty x hty =>
      (h.keepsFixed.reg ty x hty).trans (setExt_reg s p b ty x)⟩
    exact hfixed.onlyNamed fun hnot => absurd rfl (hnot p b)
  | poll p => exact (pollEvent_staysOn p s).onlyNamed
  | svc x => exact (serviceEvent_staysOn x s).onlyNamed
  | reset => exact ⟨resetEvent_cfg s, resetEvent_inbox s, fun _ => resetEvent_ext s, fun h => absurd rfl h⟩

end Sys2Proof.Machine
end

section
/-! What an effect does to a pin whose request it does not replace: nothing, or one delivery (R129, R146, R176). The
rules on arming (spec/41_request_port.md section 4), on raising flags (spec/60_exceptions.md R197) and on flags
cleared (spec/42_pin_events.md R180). -/

namespace Sys2Proof.Machine

/-! ## One pin under an effect -/

/-- The record, the arming and the flag of pin `q` stay. -/
structure Untouched (q : Pin) (s t : State) : Prop where
  pin : t.pin q = s.pin q
  gpinten : t.regBit .gpinten q = s.regBit .gpinten q
  intf : t.regBit .intf q = s.regBit .intf q

/-- Pin `q` is delivered to as it stands in `s`, its flag is taken and its results are among those appended. -/
structure DeliveredAt (q : Pin) (s t : State) : Prop where
  pin : t.pin q = (delivered s q).pin
  gpinten : t.regBit .gpinten q = (delivered s q).armed
  intf : t.regBit .intf q = false
  results : ∀ e ∈ (delivered s q).results, e ∈ t.out.drop s.out.length

/-- The request of pin `q` is not replaced: nothing happens to the pin, or one delivery. -/
def KeepsRequest (q : Pin) (s t : State) : Prop := Untouched q s t ∨ DeliveredAt q s t

section
variable {x : Port} {p q : Pin} {u : Pull} {r : Request} {s e t : State}

theorem KeepsRequest.armed (h : KeepsRequest q s t) (ht : t.regBit .gpinten q = true) :
    s.regBit .gpinten q = true := by
  rcases h with hsame | hdel
  · exact hsame.gpinten.symm.trans ht
  · exact armed_of_delivered_armed (hdel.gpinten.symm.trans ht)

theorem KeepsRequest.flagged (h : KeepsRequest q s t) (ht : t.regBit .intf q = true) :
    s.regBit .intf q = true := by
  rcases h with hsame | hdel
  · exact hsame.intf.symm.trans ht
  · exact absurd (hdel.intf.symm.trans ht) Bool.false_ne_true

/-- Where the request stays, only a delivery clears a flag. -/
theorem KeepsRequest.delivered_of_cleared (h : KeepsRequest q s t) (hs : s.regBit .intf q = true)
    (ht : t.regBit .intf q = false) : DeliveredAt q s t := by
  rcases h with hsame | hdel
  · exact absurd (ht.symm.trans (hsame.intf.trans hs)) Bool.false_ne_true
  · exact hdel

theorem untouched_of_view (h : t.view q = s.view q) : Untouched q s t :=
  ⟨State.pin_of_view h, State.regBit_of_view h _, State.regBit_of_view h _⟩

theorem StaysOn.untouched (h : StaysOn x s t) (hq : portOf q ≠ x) : Untouched q s t :=
  ⟨h.pin q hq, h.regBit _ q hq, h.regBit _ q hq⟩

/-- A compound read keeps the request of every pin. -/
theorem ReadsPort.keepsRequest (h : ReadsPort x s t) (q : Pin) : KeepsRequest q s t := by
  by_cases hq : portOf q = x
  · refine .inr ⟨(h.own q hq).1, (h.own q hq).2, by rw [h.intf, if_pos hq], fun ev hev => ?_⟩
    rw [h.out, List.drop_left, ← hq]
    exact mem_deliveredResults hev
  · exact .inl (h.staysOn.untouched hq)

theorem mem_deliveredResults_of_ne {ev : ResultEvent} (hq : q ≠ p) (hport : portOf q = portOf p)
    (h : ev ∈ (delivered s q).results) : ev ∈ deliveredResults s (portOf p) (some p) := by
  rw [deliveredResults, List.mem_flatMap]
  refine ⟨bitOf q, mem_bitOrder _, ?_⟩
  rwa [← hport, pinOf_portOf_bitOf, if_neg fun he => hq (Option.some.inj he)]

/-- An entry read delivers to the other pins of the port. -/
theorem EntryReads.deliveredAt (h : EntryReads p u r s e) (k : KeepsBesidePin p e t)
    (hout : ∃ own, t.out = e.out ++ own) (hq : q ≠ p) (hport : portOf q = portOf p) : DeliveredAt q s t := by
  refine ⟨?_, ?_, ?_, fun ev hev => ?_⟩
  · rw [k.pin q hq, h.pin q hq, if_pos hport]
  · rw [k.regBit _ q fun hw => hq hw.2, h.gpinten q hq, if_pos hport]
  · rw [k.regBit _ q fun hw => hq hw.2, h.intf, if_pos hport]
  · obtain ⟨own, hout⟩ := hout
    rw [hout, h.out, List.append_assoc, List.drop_left, List.mem_append]
    exact .inl (mem_deliveredResults_of_ne hq hport hev)

/-- An entry without a read touches no other pin. -/
theorem KeepsBesidePin.untouched (k : KeepsBesidePin p (inputStart p u r s) t) (hq : q ≠ p) : Untouched q s t where
  pin := by rw [k.pin q hq, inputStart_pin, if_neg hq]
  gpinten := by rw [k.regBit _ q fun hw => hq hw.2]; simp [hq]
  intf := by rw [k.regBit _ q fun hw => hq hw.2]; simp [hq]

end

/-- An assignment keeps the request of every other pin. -/
theorem assign_keepsRequest {p q : Pin} (hq : q ≠ p) (r : Request) (s : State) : KeepsRequest q s (assign p r s) := by
  by_cases hport : portOf q = portOf p
  case neg => exact .inl ((assign_staysOn p r s).untouched hport)
  match r with
  | .output l => exact .inl (untouched_of_view ((assign_output_passes p l s).other q hq))
  | .inNone u => rw [assign_inNone]; exact .inl ((finish_keepsBesidePin p _ _).untouched hq)
  | .waitAny u => rw [assign_waitAny]; exact .inl ((arm_keepsBesidePin p _ _).untouched hq)
  | .inRead u =>
    rw [assign_inRead]
    exact .inr ((gpioRead_inputStart p u _ s).deliveredAt (finish_keepsBesidePin p _ _) ⟨_, finish_out p _ _⟩ hq hport)
  | .waitState u t =>
    have h := gpioRead_inputStart p u (.waitState u t) s
    rw [assign_waitState]
    split
    · exact .inr (h.deliveredAt (finish_keepsBesidePin p _ _) ⟨_, finish_out p _ _⟩ hq hport)
    · exact .inr (h.deliveredAt (arm_keepsBesidePin p _ _) ⟨[], by simp⟩ hq hport)
  | .waitSpec u t =>
    rw [assign_waitSpec]
    exact .inr ((gpioRead_inputStart p u _ s).deliveredAt (.of_setPin_arm _) ⟨[], by simp⟩ hq hport)
  | .watch u =>
    rw [assign_watch]
    exact .inr ((gpioRead_inputStart p u _ s).deliveredAt (.of_append_arm _) ⟨_, by rw [arm_out, append_out]⟩ hq hport)

/-- What an assignment leaves of its own pin: the request, unflagged, and armed exactly if it waits. -/
structure Assigned (p : Pin) (r : Request) (t : State) : Prop where
  req : (t.pin p).req = some r
  intf : t.regBit .intf p = false
  armed : t.regBit .gpinten p = true → (t.pin p).dir = .input ∧ (t.pin p).st = .processing ∧ isWaiting (some r) = true

theorem EntryReads.assigned {p : Pin} {u : Pull} {r : Request} {s e : State} (h : EntryReads p u r s e)
    (v : Option Level) : Assigned p r (finish p v e) where
  req := by rw [finish_pin, if_pos rfl, h.pin_self]
  intf := by rw [finish_regBit, h.intf, if_pos rfl]
  armed harm := by rw [finish_regBit, h.gpinten_self] at harm; exact absurd harm Bool.false_ne_true

theorem assign_assigned (p : Pin) (r : Request) (s : State) : Assigned p r (assign p r s) := by
  match r with
  | .output l =>
    have h := (assign_output_passes p l s).own
    exact ⟨congrArg PinState.req (State.pin_of_view h), State.regBit_of_view h .intf, fun harm =>
      absurd ((State.regBit_of_view h .gpinten).symm.trans harm) Bool.false_ne_true⟩
  | .inNone u => rw [assign_inNone]; exact ⟨by simp, by simp, by simp⟩
  | .inRead u => rw [assign_inRead]; exact (gpioRead_inputStart p u _ s).assigned _
  | .waitAny u => rw [assign_waitAny]; exact ⟨by simp, by simp, fun _ => ⟨by simp, by simp, rfl⟩⟩
  | .waitState u t =>
    have h := gpioRead_inputStart p u (.waitState u t) s
    rw [assign_waitState]
    split
    · exact h.assigned _
    · exact ⟨by simp [h.pin_self], by simp [h.intf], fun _ => ⟨by simp [h.pin_self], by simp [h.pin_self], rfl⟩⟩
  | .waitSpec u t =>
    have h := gpioRead_inputStart p u (.waitSpec u t) s
    rw [assign_waitSpec]
    exact ⟨by simp [h.pin_self], by simp [h.intf], fun _ => ⟨by simp [h.pin_self], by simp [h.pin_self], rfl⟩⟩
  | .watch u =>
    have h := gpioRead_inputStart p u (.watch u) s
    rw [assign_watch]
    exact ⟨by simp [h.pin_self], by simp [h.intf], fun _ => ⟨by simp [h.pin_self], by simp [h.pin_self], rfl⟩⟩

/-! ## One pin under a translator write -/

section
variable (x : Port) (v : Byte) (s : State) (q : Pin)

/-- A pin is at the other port, or the pin of a bit of port `x`. -/
theorem port_ne_or_eq_pinOf (x : Port) (q : Pin) : portOf q ≠ x ∨ ∃ n, q = pinOf x n := by
  by_cases hq : portOf q = x
  · exact .inr ⟨bitOf q, by rw [← hq, pinOf_portOf_bitOf]⟩
  · exact .inl hq

theorem writeIodir_at : let t := writeIodir x v s
    KeepsRequest q s t ∨ (portOf q = x ∧ bitAt v (bitOf q) ≠ s.regBit .iodir q ∧
      t.regBit .gpinten q = false ∧ t.regBit .intf q = false) := by
  intro t
  rcases port_ne_or_eq_pinOf x q with hq | ⟨n, rfl⟩
  · exact .inl (.inl ((writeIodir_staysOn x v s).untouched hq))
  have hview := (writeIodir_view x v s).1 n
  rw [portOf_pinOf, bitOf_pinOf]
  by_cases hd : bitAt v n = s.regBit .iodir (pinOf x n)
  · exact .inl (.inl (untouched_of_view (hview.trans (iodirView_of_eq _ hd _))))
  · obtain ⟨-, hdisarmed, -⟩ := iodirView_bit s.cfg (bitAt v n) (s.view (pinOf x n))
    exact .inr ⟨rfl, hd, (State.regBit_of_view hview _).trans (hdisarmed hd).1,
      (State.regBit_of_view hview _).trans (hdisarmed hd).2⟩

theorem writeOlat_at : let t := writeOlat x v s
    KeepsRequest q s t ∨ (portOf q = x ∧ bitAt v (bitOf q) ≠ s.regBit .olat q ∧ s.iodirIsOut q = true ∧
      t.regBit .gpinten q = false ∧ t.regBit .intf q = false) := by
  intro t
  rcases port_ne_or_eq_pinOf x q with hq | ⟨n, rfl⟩
  · exact .inl (.inl ((writeOlat_staysOn x v s).untouched hq))
  have hview := (writeOlat_view x v s).1 n
  rw [portOf_pinOf, bitOf_pinOf]
  by_cases h : bitAt v n = s.regBit .olat (pinOf x n) ∨ s.regBit .iodir (pinOf x n) ≠ s.cfg.iodirOut
  · have hlatch := hview.trans (olatView_of_latch h)
    exact .inl (.inl ⟨State.pin_of_view hlatch, State.regBit_of_view hlatch _, State.regBit_of_view hlatch _⟩)
  · push Not at h
    have hout := hview.trans (olatView_of_output h.1 h.2)
    exact .inr ⟨rfl, h.1, beq_iff_eq.mpr h.2, State.regBit_of_view hout _, State.regBit_of_view hout _⟩

/-- A write that performs a plan keeps the request of a pin that it assigns none. -/
theorem Plan.Reached.keepsRequest {pl : Plan} {x : Port} {s t : State} (h : pl.Reached x s 8 t) {n : BitIdx}
    (ha : pl.assigns n = false) : KeepsRequest (pinOf x n) s t := by
  have hrep : pl.replaced 8 n = false := (Plan.replaced_end n).trans ha
  have hpin := h.pin n
  have hgpinten := h.gpinten n
  have hintf := h.intf n
  rw [hrep] at hpin hgpinten hintf
  cases hr : pl.read 8 with
  | false =>
    rw [hr] at hpin hgpinten hintf
    exact .inl ⟨hpin, hgpinten, hintf⟩
  | true =>
    rw [hr] at hpin hgpinten hintf
    refine .inr ⟨hpin, hgpinten, hintf, fun ev hev => ?_⟩
    obtain ⟨rs, hout, hperm⟩ := h.out
    rw [hout, List.drop_left, hperm.mem_iff, List.mem_flatMap]
    refine ⟨n, mem_bitOrder n, ?_⟩
    simp [Plan.results, Plan.deliveredTo, hrep, hr, hev]

/-- What it leaves of a pin that it assigns a request. -/
theorem Plan.Reached.assigned {pl : Plan} {x : Port} {s t : State} (h : pl.Reached x s 8 t) {n : BitIdx}
    (ha : pl.assigns n = true) :
    t.pin (pinOf x n) = pl.record n (s.pin (pinOf x n)) (s.extLevel (pinOf x n)) ∧
    t.regBit .gpinten (pinOf x n) = pl.watches n ∧ t.regBit .intf (pinOf x n) = false := by
  have hrep : pl.replaced 8 n = true := (Plan.replaced_end n).trans ha
  refine ⟨?_, ?_, ?_⟩
  · rw [h.pin, hrep, if_pos rfl]
  · rw [h.gpinten, hrep, if_pos rfl]
  · rw [h.intf, hrep, Bool.or_true, if_pos rfl]

/-- A pin that the record of the plan arms is an input in Processing of a `Watch`. -/
theorem Plan.record_armed {pl : Plan} {n : BitIdx} (hw : pl.watches n = true) (y : PinState) (l : Level) :
    (pl.record n y l).dir = .input ∧ (pl.record n y l).st = .processing ∧ isWaiting (pl.record n y l).req = true := by
  rw [Plan.record, hw]; exact ⟨rfl, rfl, rfl⟩

theorem writeGppu_at : let t := writeGppu x v s
    KeepsRequest q s t ∨ (portOf q = x ∧ bitAt v (bitOf q) ≠ s.regBit .gppu q ∧ s.iodirIsOut q = false ∧
      t.regBit .intf q = false ∧ (t.regBit .gpinten q = true → s.regBit .gpinten q = true)) := by
  intro t
  rcases port_ne_or_eq_pinOf x q with hq | ⟨n, rfl⟩
  · exact .inl (.inl ((writeGppu_staysOn x v s).untouched hq))
  have hend := writeGppu_reached x v s
  cases ha : (gppuPlan x v s).assigns n with
  | false => exact .inl (hend.keepsRequest ha)
  | true =>
    obtain ⟨-, hgpinten, hintf⟩ := hend.assigned ha
    have hchanged : (bitAt v n != s.regBit .gppu (pinOf x n)) = true ∧ (!s.iodirIsOut (pinOf x n)) = true :=
      Bool.and_eq_true_iff.mp ha
    rw [portOf_pinOf, bitOf_pinOf]
    refine .inr ⟨rfl, by simpa using hchanged.1, by simpa using hchanged.2, hintf, fun harm => ?_⟩
    have hwatches := hgpinten.symm.trans harm
    cases hr : gppuRead x v s n.val with
    | false => simpa [gppuPlan, hr] using hwatches
    | true => exact armed_of_delivered_armed (by simpa [gppuPlan, hr] using hwatches)

theorem writeGpinten_at : let t := writeGpinten x v s
    KeepsRequest q s t ∨ (portOf q = x ∧
      (if s.iodirIsOut q then false else bitAt v (bitOf q)) ≠ s.regBit .gpinten q ∧ t.regBit .intf q = false ∧
      (t.regBit .gpinten q = true →
        (t.pin q).dir = .input ∧ (t.pin q).st = .processing ∧ isWaiting (t.pin q).req = true)) := by
  intro t
  rcases port_ne_or_eq_pinOf x q with hq | ⟨n, rfl⟩
  · exact .inl (.inl ((writeGpinten_staysOn x v s).untouched hq))
  have hend := writeGpinten_reached x v s
  cases ha : (gpintenPlan x v s).assigns n with
  | false => exact .inl (hend.keepsRequest ha)
  | true =>
    obtain ⟨hpin, hgpinten, hintf⟩ := hend.assigned ha
    have hchanged : gpintenBit x v s n ≠ s.regBit .gpinten (pinOf x n) := bne_iff_ne.mp ha
    rw [portOf_pinOf, bitOf_pinOf]
    refine .inr ⟨rfl, by simpa [gpintenBit, State.iodirIsOut] using hchanged, hintf, fun harm => ?_⟩
    simp only [t, hpin]
    exact Plan.record_armed (hgpinten.symm.trans harm) _ _

end

/-- An assignment replaces the request of its pin, and keeps those of the others. -/
theorem assign_at (p : Pin) (r : Request) (s : State) (q : Pin) :
    KeepsRequest q s (assign p r s) ∨ (q = p ∧ Assigned p r (assign p r s)) := by
  by_cases hq : q = p
  · exact .inr ⟨hq, assign_assigned p r s⟩
  · exact .inl (assign_keepsRequest hq r s)

theorem serviceEvent_keepsRequest (x : Port) (s : State) (q : Pin) : KeepsRequest q s (serviceEvent x s) := by
  rcases serviceEvent_cases x s with ⟨-, h⟩ | ⟨-, h⟩ <;> rw [h]
  · exact .inl ⟨rfl, rfl, rfl⟩
  · exact (gpioRead_readsPort x s).keepsRequest q

/-! ## PIN and POLL at one pin -/

theorem pinEvent_regBit_of_ne (p : Pin) (b : Level) (s : State) {ty : RegType} (hty : ty ≠ .intf) (q : Pin) :
    (pinEvent p b s).regBit ty q = s.regBit ty q := by
  rcases pinEvent_cases p b s with ⟨-, h⟩ | ⟨-, h⟩ <;> rw [h]
  · rw [raiseFlag_regBit, if_neg fun h => hty h.1, setExt_regBit]
  · exact setExt_regBit s p b ty q

theorem pollEvent_regBit_of_ne (p : Pin) (s : State) {ty : RegType} (hty : ty ≠ .intf) (q : Pin) :
    (pollEvent p s).regBit ty q = s.regBit ty q := by
  rcases pollEvent_cases p s with ⟨-, h⟩ | ⟨-, -, h⟩ | ⟨-, -, h⟩ <;> rw [h]
  · exact setPin_regBit s p _ ty q
  · rw [setPin_regBit, raiseFlag_regBit, if_neg fun h => hty h.1]

/-- PIN leaves a flag, or sets that of its own armed input pin (R171). -/
theorem pinEvent_intf (p : Pin) (b : Level) (s : State) (q : Pin) :
    (pinEvent p b s).regBit .intf q = s.regBit .intf q ∨
    ((pinEvent p b s).regBit .intf q = true ∧ q = p ∧ (s.pin q).dir = .input ∧ s.regBit .gpinten q = true) := by
  rcases pinEvent_cases p b s with ⟨⟨-, -, hdir, harmed⟩, h⟩ | ⟨-, h⟩ <;> rw [h]
  · by_cases hq : q = p
    · subst hq; exact .inr ⟨by simp, rfl, hdir, harmed⟩
    · exact .inl (by simp [hq])
  · exact .inl (setExt_regBit s p b .intf q)

/-- POLL leaves a flag, or sets that of its own armed input pin (R173). -/
theorem pollEvent_intf (p : Pin) (s : State) (q : Pin) :
    (pollEvent p s).regBit .intf q = s.regBit .intf q ∨
    ((pollEvent p s).regBit .intf q = true ∧ q = p ∧ (s.pin q).dir = .input ∧ s.regBit .gpinten q = true) := by
  rcases pollEvent_cases p s with ⟨-, h⟩ | ⟨-, -, h⟩ | ⟨⟨-, hdir, harmed⟩, -, h⟩ <;> rw [h]
  · exact .inl rfl
  · exact .inl (setPin_regBit s p _ .intf q)
  · by_cases hq : q = p
    · subst hq; exact .inr ⟨by simp, rfl, hdir, harmed⟩
    · exact .inl (by simp [hq])

/-! ## The whole-machine rules -/

/-- Settles O51: an effect keeps the request of a pin, or replaces it unflagged, or is a level change. -/
theorem onlyLevelChangesRaiseFlags : Obligations.OnlyLevelChangesRaiseFlags := by
  intro i s t q hexec hs ht
  have raised : t.regBit .intf q = s.regBit .intf q ∨ (t.regBit .intf q = false) → False := fun h => by
    rcases h with h | h
    · exact Bool.false_ne_true (hs.symm.trans (h.symm.trans ht))
    · exact Bool.false_ne_true (h.symm.trans ht)
  have kept : ¬KeepsRequest q s t := fun h => Bool.false_ne_true (hs.symm.trans (h.flagged ht))
  cases hasEffect_of_exec hexec with
  | returns _ r => exact absurd (.inl (withRet_regBit s r .intf q)) raised
  | reads h =>
    rw [returning_regBit] at ht
    exact absurd (hs.symm.trans (((readsPort_of_gpioRead h).keepsRequest q).flagged ht)) Bool.false_ne_true
  | storesDefval x v => exact absurd (.inl (setReg_defval_regBit s x v (.inl (by decide)))) raised
  | writesIodir x v =>
    rcases writeIodir_at x v s q with h | ⟨-, -, -, h⟩
    · exact absurd h kept
    · exact absurd (.inr h) raised
  | writesOlat x v =>
    rcases writeOlat_at x v s q with h | ⟨-, -, -, -, h⟩
    · exact absurd h kept
    · exact absurd (.inr h) raised
  | writesGppu x v =>
    rcases writeGppu_at x v s q with h | ⟨-, -, -, h, -⟩
    · exact absurd h kept
    · exact absurd (.inr h) raised
  | writesGpinten x v =>
    rcases writeGpinten_at x v s q with h | ⟨-, -, h, -⟩
    · exact absurd h kept
    · exact absurd (.inr h) raised
  | @assigns _ p r _ =>
    rcases assign_at p r s q with h | ⟨rfl, h⟩
    · exact absurd h kept
    · exact absurd (.inr h.intf) raised
  | pin p b =>
    rcases pinEvent_intf p b s q with h | ⟨-, rfl, hdir, harmed⟩
    · exact absurd (.inl h) raised
    · exact ⟨.inl ⟨b, rfl⟩, hdir, harmed⟩
  | poll p =>
    rcases pollEvent_intf p s q with h | ⟨-, rfl, hdir, harmed⟩
    · exact absurd (.inl h) raised
    · exact ⟨.inr rfl, hdir, harmed⟩
  | svc x => exact absurd (serviceEvent_keepsRequest x s q) kept
  | reset => exact absurd (.inr (resetEvent_not_flagged s q)) raised

/-- The operation of a waiting request is one of the four that wait. -/
theorem waiting_of_requestOf {i : Instr} {q : Pin} {r : Request} (h : requestOf i = some (q, r))
    (hw : isWaiting (some r) = true) :
    (∃ tl u, i = .reqWstate q tl u) ∨ (∃ u, i = .reqWany q u) ∨ (∃ tl u, i = .reqWspec q tl u) ∨
    (∃ u, i = .reqWatch q u) := by
  cases i with
  | reqWstate p t u => obtain ⟨rfl, -⟩ := Prod.mk.inj (Option.some.inj h); exact .inl ⟨t, u, rfl⟩
  | reqWany p u => obtain ⟨rfl, -⟩ := Prod.mk.inj (Option.some.inj h); exact .inr (.inl ⟨u, rfl⟩)
  | reqWspec p t u => obtain ⟨rfl, -⟩ := Prod.mk.inj (Option.some.inj h); exact .inr (.inr (.inl ⟨t, u, rfl⟩))
  | reqWatch p u => obtain ⟨rfl, -⟩ := Prod.mk.inj (Option.some.inj h); exact .inr (.inr (.inr ⟨u, rfl⟩))
  | reqOut p l | reqNone p u | reqRead p u =>
    obtain ⟨-, rfl⟩ := Prod.mk.inj (Option.some.inj h)
    exact absurd hw Bool.false_ne_true
  | _ => exact absurd h (by simp [requestOf])

/-- Settles O50: an effect keeps the request of a pin, and arms it no more than before, or replaces it. -/
theorem onlyWaitingRequestsArm : Obligations.OnlyWaitingRequestsArm := by
  intro i s t q hexec hs ht
  have kept : ¬KeepsRequest q s t := fun h => Bool.false_ne_true (hs.symm.trans (h.armed ht))
  have same : ¬t.regBit .gpinten q = s.regBit .gpinten q := fun h =>
    Bool.false_ne_true (hs.symm.trans (h.symm.trans ht))
  have disarmed : ¬t.regBit .gpinten q = false := fun h => Bool.false_ne_true (h.symm.trans ht)
  cases hasEffect_of_exec hexec with
  | returns _ r => exact absurd (withRet_regBit s r .gpinten q) same
  | reads h =>
    rw [returning_regBit] at ht
    exact absurd (hs.symm.trans (((readsPort_of_gpioRead h).keepsRequest q).armed ht)) Bool.false_ne_true
  | storesDefval x v => exact absurd (setReg_defval_regBit s x v (.inl (by decide))) same
  | writesIodir x v =>
    rcases writeIodir_at x v s q with h | ⟨-, -, h, -⟩
    · exact absurd h kept
    · exact absurd h disarmed
  | writesOlat x v =>
    rcases writeOlat_at x v s q with h | ⟨-, -, -, h, -⟩
    · exact absurd h kept
    · exact absurd h disarmed
  | writesGppu x v =>
    rcases writeGppu_at x v s q with h | ⟨-, -, -, -, h⟩
    · exact absurd h kept
    · exact absurd (hs.symm.trans (h ht)) Bool.false_ne_true
  | writesGpinten x v =>
    rcases writeGpinten_at x v s q with h | ⟨rfl, -, -, h⟩
    · exact absurd h kept
    · exact ⟨.inr (.inr (.inr (.inr ⟨v, rfl⟩))), h ht⟩
  | @assigns _ p r hreq =>
    rcases assign_at p r s q with h | ⟨rfl, h⟩
    · exact absurd h kept
    · obtain ⟨hdir, hst, hwaiting⟩ := h.armed ht
      refine ⟨?_, hdir, hst, by rw [h.req]; exact hwaiting⟩
      rcases waiting_of_requestOf hreq hwaiting with h | h | h | h
      · exact .inl h
      · exact .inr (.inl h)
      · exact .inr (.inr (.inl h))
      · exact .inr (.inr (.inr (.inl h)))
  | pin p b => exact absurd (pinEvent_regBit_of_ne p b s (by decide) q) same
  | poll p => exact absurd (pollEvent_regBit_of_ne p s (by decide) q) same
  | svc x => exact absurd (serviceEvent_keepsRequest x s q) kept
  | reset => exact absurd (resetEvent_not_armed s q) disarmed

/-- The operation of a request for a pin is one of the seven. -/
theorem req_of_requestOf {i : Instr} {q : Pin} {r : Request} (h : requestOf i = some (q, r)) :
    (∃ l, i = .reqOut q l) ∨ (∃ u, i = .reqNone q u) ∨ (∃ u, i = .reqRead q u) ∨
    (∃ tl u, i = .reqWstate q tl u) ∨ (∃ u, i = .reqWany q u) ∨ (∃ tl u, i = .reqWspec q tl u) ∨
    (∃ u, i = .reqWatch q u) := by
  cases i with
  | reqOut p l => obtain ⟨rfl, -⟩ := Prod.mk.inj (Option.some.inj h); exact .inl ⟨l, rfl⟩
  | reqNone p u => obtain ⟨rfl, -⟩ := Prod.mk.inj (Option.some.inj h); exact .inr (.inl ⟨u, rfl⟩)
  | reqRead p u => obtain ⟨rfl, -⟩ := Prod.mk.inj (Option.some.inj h); exact .inr (.inr (.inl ⟨u, rfl⟩))
  | reqWstate p t u | reqWany p u | reqWspec p t u | reqWatch p u =>
    obtain ⟨-, rfl⟩ := Prod.mk.inj (Option.some.inj h)
    exact .inr (.inr (.inr (waiting_of_requestOf h rfl)))
  | _ => exact absurd h (by simp [requestOf])

/-- Settles O57: an effect that clears a flag delivers it, or replaces the request of the pin. -/
theorem noPendingFlagIsLost : Obligations.NoPendingFlagIsLost := by
  intro i s t q hexec hs ht
  have claim := fun h : DeliveredAt q s t => And.intro h.pin (And.intro h.gpinten h.results)
  have kept := fun h : KeepsRequest q s t => claim (h.delivered_of_cleared hs ht)
  have same : ¬t.regBit .intf q = s.regBit .intf q := fun h => Bool.false_ne_true (ht.symm.trans (h.trans hs))
  have unraised : ¬t.regBit .intf q = true := fun h => Bool.false_ne_true (ht.symm.trans h)
  cases hasEffect_of_exec hexec with
  | returns _ r => exact absurd (withRet_regBit s r .intf q) same
  | reads h =>
    have hdel := ((readsPort_of_gpioRead h).keepsRequest q).delivered_of_cleared hs
      ((returning_regBit _ _ _).symm.trans ht)
    exact .inl ⟨hdel.pin, (returning_regBit _ _ _).trans hdel.gpinten, hdel.results⟩
  | storesDefval x v => exact absurd (setReg_defval_regBit s x v (.inl (by decide))) same
  | writesIodir x v =>
    rcases writeIodir_at x v s q with h | ⟨rfl, hbit, -⟩
    · exact .inl (kept h)
    · exact .inr (.inr (.inr (.inr (.inr (.inr (.inr (.inr (.inr ⟨v, .inl ⟨rfl, hbit⟩⟩))))))))
  | writesOlat x v =>
    rcases writeOlat_at x v s q with h | ⟨rfl, hbit, hout, -⟩
    · exact .inl (kept h)
    · exact .inr (.inr (.inr (.inr (.inr (.inr (.inr (.inr (.inr ⟨v, .inr (.inl ⟨rfl, hbit, hout⟩)⟩))))))))
  | writesGppu x v =>
    rcases writeGppu_at x v s q with h | ⟨rfl, hbit, hin, -⟩
    · exact .inl (kept h)
    · exact .inr (.inr (.inr (.inr (.inr (.inr (.inr (.inr (.inr ⟨v, .inr (.inr (.inl ⟨rfl, hbit, hin⟩))⟩))))))))
  | writesGpinten x v =>
    rcases writeGpinten_at x v s q with h | ⟨rfl, hbit, -⟩
    · exact .inl (kept h)
    · exact .inr (.inr (.inr (.inr (.inr (.inr (.inr (.inr (.inr ⟨v, .inr (.inr (.inr ⟨rfl, hbit⟩))⟩))))))))
  | @assigns _ p r hreq =>
    rcases assign_at p r s q with h | ⟨rfl, -⟩
    · exact .inl (kept h)
    · refine .inr (.inr ?_)
      rcases req_of_requestOf hreq with h | h | h | h | h | h | h
      · exact .inl h
      · exact .inr (.inl h)
      · exact .inr (.inr (.inl h))
      · exact .inr (.inr (.inr (.inl h)))
      · exact .inr (.inr (.inr (.inr (.inl h))))
      · exact .inr (.inr (.inr (.inr (.inr (.inl h)))))
      · exact .inr (.inr (.inr (.inr (.inr (.inr (.inl h))))))
  | pin p b =>
    rcases pinEvent_intf p b s q with h | ⟨h, -⟩
    · exact absurd h same
    · exact absurd h unraised
  | poll p =>
    rcases pollEvent_intf p s q with h | ⟨h, -⟩
    · exact absurd h same
    · exact absurd h unraised
  | svc x => exact .inl (kept (serviceEvent_keepsRequest x s q))
  | reset => exact .inr (.inl rfl)

end Sys2Proof.Machine
end

section
/-! The request that the translator leaves is the one the registers express (spec/40_register_port.md R122). -/

namespace Sys2Proof.Machine

section
variable {p : Pin} {s t : State}

theorem derive_of_output (h : s.regBit .iodir p = s.cfg.iodirOut) : derive p s = .output (s.regBit .olat p) := by
  have ho : s.iodirIsOut p = true := beq_iff_eq.mpr h
  rw [derive, ho, if_pos rfl]

theorem derive_of_input (h : s.regBit .iodir p = s.cfg.iodirIn) : derive p s =
    if s.regBit .gpinten p then .watch (s.regBit .gppu p) else .inNone (s.regBit .gppu p) := by
  have hin : s.iodirIsOut p = false := by
    rw [State.iodirIsOut, h]
    exact Bool.not_beq_self s.cfg.iodirOut
  rw [derive, hin, if_neg Bool.false_ne_true]

end

/-- A changed bit of WR.IODIR leaves the derived request. -/
theorem writeIodir_derives {x : Port} {data : Byte} {s : State} {n : BitIdx}
    (hd : bitAt data n ≠ s.regBit .iodir (pinOf x n)) :
    ((writeIodir x data s).pin (pinOf x n)).req = some (derive (pinOf x n) (writeIodir x data s)) := by
  have hview := (writeIodir_view x data s).1 n
  have hcfg := (writeIodir_staysOn x data s).cfg
  generalize writeIodir x data s = t at *
  by_cases ho : bitAt data n = s.cfg.iodirOut
  · have h := hview.trans (iodirView_of_output hd ho _)
    have hiodir : t.regBit .iodir (pinOf x n) = t.cfg.iodirOut := by rw [hcfg]; exact State.regBit_of_view h _
    rw [derive_of_output hiodir, State.regBit_of_view h, State.pin_of_view h]; rfl
  · have h := hview.trans (iodirView_of_input hd ho _)
    have hiodir : t.regBit .iodir (pinOf x n) = t.cfg.iodirIn := by rw [hcfg]; exact State.regBit_of_view h _
    have hgpinten : t.regBit .gpinten (pinOf x n) = false := State.regBit_of_view h _
    rw [derive_of_input hiodir, hgpinten, State.regBit_of_view h, State.pin_of_view h]; rfl

/-- A changed bit of WR.OLAT leaves the derived request of an output pin. -/
theorem writeOlat_derives {x : Port} {data : Byte} {s : State} {n : BitIdx}
    (hd : bitAt data n ≠ s.regBit .olat (pinOf x n)) (ho : s.iodirIsOut (pinOf x n) = true) :
    ((writeOlat x data s).pin (pinOf x n)).req = some (derive (pinOf x n) (writeOlat x data s)) := by
  have h := ((writeOlat_view x data s).1 n).trans (olatView_of_output hd (beq_iff_eq.mp ho))
  have hcfg := (writeOlat_staysOn x data s).cfg
  generalize writeOlat x data s = t at *
  have hiodir : t.regBit .iodir (pinOf x n) = t.cfg.iodirOut := by rw [hcfg]; exact State.regBit_of_view h _
  rw [derive_of_output hiodir, State.regBit_of_view h, State.pin_of_view h]; rfl

/-- The request that a plan assigns is the derived one. -/
theorem Plan.Reached.derives {pl : Plan} {x : Port} {s t : State} (h : pl.Reached x s 8 t) {n : BitIdx}
    (ha : pl.assigns n = true) : (t.pin (pinOf x n)).req = some (derive (pinOf x n) t) := by
  obtain ⟨hpin, hgpinten, -⟩ := h.assigned ha
  have hiodir : t.regBit .iodir (pinOf x n) = t.cfg.iodirIn := by
    rw [h.iodir, Plan.replaced_end, ha, if_pos rfl, h.cfg]
  rw [derive_of_input hiodir, hgpinten, h.gppu, if_pos n.isLt, hpin, Plan.record]
  cases pl.watches n <;> rfl

/-- Settles O24, write by write. -/
theorem translatorAssignsDerivedRequest : Obligations.TranslatorAssignsDerivedRequest := by
  intro x data s t n p
  refine ⟨fun hexec hd => ?iodir, fun hexec hd ho => ?olat, fun hexec hd hin => ?gppu, fun hexec hd hin => ?gpinten⟩
  case iodir => rw [← outcome_next_inj hexec]; exact writeIodir_derives hd
  case olat => rw [← outcome_next_inj hexec]; exact writeOlat_derives hd ho
  case gppu =>
    have ha : (gppuPlan x data s).assigns n = true :=
      Bool.and_eq_true_iff.mpr ⟨bne_iff_ne.mpr hd, by rw [Bool.not_eq_true']; exact hin⟩
    rw [← outcome_next_inj hexec]
    exact (writeGppu_reached x data s).derives ha
  case gpinten =>
    have hbit : gpintenBit x data s n = bitAt data n := if_neg (beq_eq_false_iff_ne.mp hin)
    have ha : (gpintenPlan x data s).assigns n = true := bne_iff_ne.mpr (by rw [hbit]; exact hd)
    rw [← outcome_next_inj hexec]
    exact (writeGpinten_reached x data s).derives ha

end Sys2Proof.Machine
end

section
/-! The invariants of the register file and the pin records (spec/10_state.md R35): every procedure keeps them, so
every effect does, so every step does. -/

namespace Sys2Proof.Machine

/-! ## The invariants of one pin -/

section
variable {p q : Pin} {s t : State}

/-- The invariants of a pin rest on its record, three of its bits and, by its direction, its bit of `GPPU` or `OLAT`. -/
theorem pinInv_of_same (h : PinInv s q) (hcfg : t.cfg = s.cfg) (hpin : t.pin q = s.pin q)
    (hbit : ∀ ty, ty = .gpinten ∨ ty = .intf ∨ ty = .iodir → t.regBit ty q = s.regBit ty q)
    (hgppu : (s.pin q).dir = .input → t.regBit .gppu q = s.regBit .gppu q)
    (holat : (s.pin q).dir = .output → t.regBit .olat q = s.regBit .olat q) : PinInv t q := by
  obtain ⟨harmed, hwaiting, hflag, hout, hreq, hpull, hdrv, hrest⟩ := h
  have hiodir := iodirIsOut_of hcfg (hbit .iodir (by simp))
  unfold PinInv
  rw [hpin, hiodir, hbit .gpinten (by simp), hbit .intf (by simp)]
  exact ⟨harmed, hwaiting, hflag, hout, hreq, fun hd => (hgppu hd).trans (hpull hd),
    fun hd => (holat hd).trans (hdrv hd),
    hrest⟩

/-- A delivery keeps the invariants of its pin: a wait ends only as `Done` and disarmed, and the count of an armed
`WaitSpec` never reaches 0 (R153, R177). -/
theorem pinInv_of_delivered (h : PinInv s q) (hcfg : t.cfg = s.cfg) (hpin : t.pin q = (delivered s q).pin)
    (hgpinten : t.regBit .gpinten q = (delivered s q).armed) (hintf : t.regBit .intf q = false)
    (hbit : ∀ ty, ty = .iodir ∨ ty = .gppu ∨ ty = .olat → t.regBit ty q = s.regBit ty q) : PinInv t q := by
  obtain ⟨harmed, hwaiting, hflag, hout, hreq, hpull, hdrv, hpending, hidle, hwatch, hspec⟩ := h
  have hiodir := iodirIsOut_of hcfg (hbit .iodir (by simp))
  have hcases := deliver_cases q (s.pin q) (s.regBit .gpinten q) (s.regBit .intf q) (s.pinLevel q)
  unfold PinInv
  rw [hpin, hgpinten, hintf, hiodir, hbit .gppu (by simp), hbit .olat (by simp)]
  unfold delivered
  rcases hcases with ⟨hrecord, harmed'⟩ | ⟨hon, harmed', -, hrecord⟩ | ⟨hon, harmed', hnowatch, v, e, hrecord⟩ <;>
    rw [hrecord, harmed']
  · exact ⟨harmed, hwaiting, fun h => absurd h Bool.false_ne_true, hout, hreq, hpull, hdrv, hpending, hidle, hwatch,
      hspec⟩
  · rw [hon] at harmed
    exact ⟨harmed, hwaiting, fun h => absurd h Bool.false_ne_true, hout, hreq, hpull, hdrv, hpending, hidle, hwatch,
      fun _ _ => (by decide : (1 : Fin 3) ≠ 0)⟩
  · have hwaits : isWaiting (s.pin q).req = true := hwaiting (harmed.mp hon)
    have hsome : (s.pin q).req ≠ none := fun hnone => by rw [hnone] at hwaits; exact Bool.false_ne_true hwaits
    exact ⟨by simp, by simp, fun h => absurd h Bool.false_ne_true, hout, hreq, hpull, hdrv, by simp, by simp [hsome],
      fun h => absurd (hnowatch.symm.trans h) Bool.false_ne_true, by simp⟩

/-- The invariants hold of an input pin that has just been given an input request, suspended and armed or done. -/
theorem pinInv_of_input {r : Request} (hdir : (t.pin p).dir = .input) (hreq : (t.pin p).req = some r)
    (hr : isOutput (some r) = false) (hiodir : t.regBit .iodir p = t.cfg.iodirIn)
    (hgppu : t.regBit .gppu p = (t.pin p).pull) (hintf : t.regBit .intf p = false)
    (hst : ((t.pin p).st = .processing ∧ t.regBit .gpinten p = true ∧ isWaiting (some r) = true ∧
        (isWaitSpec (some r) = true → (t.pin p).ews.rem ≠ 0)) ∨
      (∃ v, (t.pin p).st = .done v ∧ t.regBit .gpinten p = false ∧ isWatch (some r) = false)) : PinInv t p := by
  have hin : t.iodirIsOut p = false := by
    rw [State.iodirIsOut, hiodir]
    exact Bool.not_beq_self t.cfg.iodirOut
  unfold PinInv
  rw [hdir, hreq, hin, hintf, hgppu]
  rcases hst with ⟨hst, harmed, hwaiting, hrem⟩ | ⟨v, hst, harmed, hwatch⟩
  · rw [hst, harmed]
    simpa [hr, hwaiting] using hrem
  · rw [hst, harmed]
    simp [hr, hwatch]

end

/-! ## The invariants of the pin that is assigned -/

section
variable {p : Pin} {u : Pull} {r : Request} {s e : State}

/-- A request that is done at its entry read leaves the invariants of its pin. -/
theorem EntryReads.pinInv_finish (h : EntryReads p u r s e) (hr : isOutput (some r) = false)
    (hw : isWatch (some r) = false) (v : Option Level) : PinInv (finish p v e) p :=
  pinInv_of_input (r := r) (by simp [h.pin_self]) (by simp [h.pin_self]) hr (by simp [h.iodir, h.cfg])
    (by simp [h.gppu, h.pin_self]) (by simp [h.intf]) (.inr ⟨v, by simp, by simp [h.gpinten_self], hw⟩)

theorem isOutput_of_isWaiting (hwaiting : isWaiting (some r) = true) : isOutput (some r) = false := by
  cases r with
  | output l => exact absurd hwaiting Bool.false_ne_true
  | _ => rfl

/-- A request that arms after its entry read, with what count and results so ever, leaves the invariants of its pin. -/
theorem EntryReads.pinInv_arm (h : EntryReads p u r s e) {e' : State} {w : EdgeWait} (l : Level)
    (hcfg : e'.cfg = e.cfg) (hpin : e'.pin p = { e.pin p with ews := w })
    (hbit : ∀ ty, e'.regBit ty p = e.regBit ty p) (hwaiting : isWaiting (some r) = true)
    (hrem : isWaitSpec (some r) = true → w.rem ≠ 0) : PinInv (arm p l e') p := by
  exact pinInv_of_input (r := r) (by simp [hpin, h.pin_self]) (by simp [hpin, h.pin_self])
    (isOutput_of_isWaiting hwaiting) (by simp [hbit, hcfg, h.iodir, h.cfg])
    (by simp [hbit, hpin, h.gppu, h.pin_self]) (by simp [hbit, h.intf])
    (.inl ⟨by simp [hpin, h.pin_self], by simp, hwaiting, by simpa [hpin] using hrem⟩)

end

/-- An assignment leaves the invariants of its pin, whatever they were (R147 to R154). -/
theorem assign_pinInv_self (p : Pin) (r : Request) (s : State) : PinInv (assign p r s) p := by
  match r with
  | .output l =>
    obtain ⟨hview, -, -, hcfg⟩ := assign_output_passes p l s
    generalize assign p (.output l) s = t at hview hcfg
    have hbit := State.regBit_of_view hview
    unfold PinInv State.iodirIsOut
    rw [State.pin_of_view hview, hbit, hbit, hbit, hbit, hbit, hcfg]
    simp [outputView, isOutput, isWatch, isWaitSpec]
  | .inNone u =>
    rw [assign_inNone]
    exact pinInv_of_input (r := .inNone u) (by simp) (by simp) rfl (by simp) (by simp) (by simp)
      (.inr ⟨none, by simp, by simp, rfl⟩)
  | .inRead u => rw [assign_inRead]; exact (gpioRead_inputStart p u _ s).pinInv_finish rfl rfl _
  | .waitState u t =>
    have h := gpioRead_inputStart p u (.waitState u t) s
    rw [assign_waitState]
    generalize (gpioRead (portOf p) (inputStart p u (.waitState u t) s)).2 = e at h
    split
    · exact h.pinInv_finish rfl rfl _
    · exact h.pinInv_arm _ rfl rfl (fun _ => rfl) rfl fun hw => absurd hw Bool.false_ne_true
  | .waitAny u =>
    rw [assign_waitAny]
    exact pinInv_of_input (r := .waitAny u) (by simp) (by simp) rfl (by simp) (by simp) (by simp)
      (.inl ⟨by simp, by simp, rfl, fun hw => absurd hw Bool.false_ne_true⟩)
  | .waitSpec u t =>
    rw [assign_waitSpec]
    refine (gpioRead_inputStart p u (.waitSpec u t) s).pinInv_arm _ (setPin_cfg _ p _) (by rw [setPin_pin, if_pos rfl])
      (fun ty => setPin_regBit _ p _ ty p) rfl fun _ => ?_
    dsimp only
    split <;> decide
  | .watch u =>
    have h := gpioRead_inputStart p u (.watch u) s
    rw [assign_watch]
    generalize (gpioRead (portOf p) (inputStart p u (.watch u) s)).2 = e at h
    exact h.pinInv_arm _ (append_cfg _ _) (append_pin _ _ p)
      (fun ty => append_regBit _ _ ty p) rfl fun hw => absurd hw Bool.false_ne_true

/-! ## The invariants of the other pins -/

section
variable {p q : Pin} {s t : State}

/-- A pin that stays, or is delivered to, keeps its invariants. -/
theorem KeepsRequest.pinInv (h : KeepsRequest q s t) (hinv : PinInv s q) (hcfg : t.cfg = s.cfg)
    (hbit : ∀ ty, ty = .iodir ∨ ty = .gppu ∨ ty = .olat → t.regBit ty q = s.regBit ty q) : PinInv t q := by
  rcases h with hsame | hdel
  · refine pinInv_of_same hinv hcfg hsame.pin (fun ty hty => ?_) (fun _ => hbit _ (by simp)) fun _ => hbit _ (by simp)
    rcases hty with rfl | rfl | rfl
    · exact hsame.gpinten
    · exact hsame.intf
    · exact hbit _ (by simp)
  · exact pinInv_of_delivered hinv hcfg hdel.pin hdel.gpinten hdel.intf hbit

theorem EntryReads.config_bit {u : Pull} {r : Request} {e : State} (h : EntryReads p u r s e)
    (k : KeepsBesidePin p e t) (hq : q ≠ p) {ty : RegType} (hty : ty = .iodir ∨ ty = .gppu ∨ ty = .olat) :
    t.regBit ty q = s.regBit ty q := by
  rw [k.regBit ty q fun hw => hq hw.2]
  rcases hty with rfl | rfl | rfl
  · rw [h.iodir, if_neg hq]
  · rw [h.gppu, if_neg hq]
  · exact h.other _ q (by decide) (by decide) (by decide) (by decide) (by decide)

theorem KeepsBesidePin.config_bit {u : Pull} {r : Request} (k : KeepsBesidePin p (inputStart p u r s) t) (hq : q ≠ p)
    (ty : RegType) : t.regBit ty q = s.regBit ty q := by
  rw [k.regBit ty q fun hw => hq hw.2]
  simp [hq]

end

/-- An assignment leaves direction, pull and latch bits of the other pins. -/
theorem assign_config_bit {p q : Pin} (hq : q ≠ p) (r : Request) (s : State) {ty : RegType}
    (hty : ty = .iodir ∨ ty = .gppu ∨ ty = .olat) : (assign p r s).regBit ty q = s.regBit ty q := by
  match r with
  | .output l => exact State.regBit_of_view ((assign_output_passes p l s).other q hq) ty
  | .inNone u => rw [assign_inNone]; exact (finish_keepsBesidePin p _ _).config_bit hq ty
  | .waitAny u => rw [assign_waitAny]; exact (arm_keepsBesidePin p _ _).config_bit hq ty
  | .inRead u => rw [assign_inRead]; exact (gpioRead_inputStart p u _ s).config_bit (finish_keepsBesidePin p _ _) hq hty
  | .waitState u t =>
    have h := gpioRead_inputStart p u (.waitState u t) s
    rw [assign_waitState]
    split
    · exact h.config_bit (finish_keepsBesidePin p _ _) hq hty
    · exact h.config_bit (arm_keepsBesidePin p _ _) hq hty
  | .waitSpec u t => rw [assign_waitSpec]; exact (gpioRead_inputStart p u _ s).config_bit (.of_setPin_arm _) hq hty
  | .watch u => rw [assign_watch]; exact (gpioRead_inputStart p u _ s).config_bit (.of_append_arm _) hq hty

/-! ## The invariants of the state -/

section
variable {s t : State}

/-- An effect that writes no fixed register keeps the invariants if it keeps those of every pin and the outputs
follow after it. -/
theorem inv_of_keepsFixed (h : Inv s) (hfixed : KeepsFixed s t) (hpin : ∀ q, PinInv t q) (hout : outputsFollow t) :
    Inv t := by
  obtain ⟨⟨ipolA, ipolB, intconA, intconB, intcapA, intcapB⟩, -, -, hiocon⟩ := h
  have hreg := hfixed.reg
  exact ⟨⟨(hreg _ _ (by simp)).trans ipolA, (hreg _ _ (by simp)).trans ipolB, (hreg _ _ (by simp)).trans intconA,
    (hreg _ _ (by simp)).trans intconB, (hreg _ _ (by simp)).trans intcapA, (hreg _ _ (by simp)).trans intcapB⟩,
    hpin, hout, by rw [hfixed.iocon, hfixed.cfg, hiocon]⟩

theorem assign_inv (h : Inv s) (p : Pin) (r : Request) : Inv (assign p r s) := by
  obtain ⟨-, hpins, -, -⟩ := id h
  have hstays := assign_staysOn p r s
  refine inv_of_keepsFixed h hstays.keepsFixed (fun q => ?_) (assign_outputsFollow p r s)
  by_cases hq : q = p
  · rw [hq]; exact assign_pinInv_self p r s
  · exact (assign_keepsRequest hq r s).pinInv (hpins q) hstays.cfg fun ty hty => assign_config_bit hq r s hty

theorem ReadsPort.inv {x : Port} (h : ReadsPort x s t) (hinv : Inv s) : Inv t := by
  obtain ⟨-, hpins, -, -⟩ := id hinv
  refine inv_of_keepsFixed hinv h.staysOn.keepsFixed (fun q => ?_) h.outputs
  refine (h.keepsRequest q).pinInv (hpins q) h.cfg fun ty hty => h.keepsBits ty q ?_
  rcases hty with rfl | rfl | rfl <;> simp

theorem iodirIsOut_iff_dir (h : Inv s) (p : Pin) : s.iodirIsOut p = true ↔ (s.pin p).dir = .output := by
  obtain ⟨-, hpins, -, -⟩ := h
  obtain ⟨-, -, -, hdir, -⟩ := hpins p
  exact hdir

/-- Storing a bit of `OLAT` of an input pin keeps the invariants (R124). -/
theorem setRegBit_olat_inv (h : Inv s) {p : Pin} (hin : s.iodirIsOut p = false) (v : Level) :
    Inv (s.setRegBit .olat p v) := by
  obtain ⟨-, hpins, hout, -⟩ := id h
  have hfixed := (setRegBit_staysOn s (ty := .olat) (by decide) p v).keepsFixed
  have hbit := fun ty q => setRegBit_olat_regBit s ty p q v
  refine inv_of_keepsFixed h hfixed (fun q => ?_) (setRegBit_outputsFollow (by decide) (by decide) p v hout)
  refine pinInv_of_same (hpins q) hfixed.cfg (setRegBit_pin s _ p v q) (fun ty hty => ?_) (fun _ => ?_) fun hd => ?_
  · rw [hbit, if_neg (by rcases hty with rfl | rfl | rfl <;> simp)]
  · rw [hbit, if_neg (by simp)]
  · rw [hbit, if_neg]
    rintro ⟨-, rfl⟩
    exact Bool.false_ne_true (hin.symm.trans ((iodirIsOut_iff_dir h q).mpr hd))

/-- Storing a bit of `GPPU` of an output pin keeps the invariants (R125). -/
theorem setRegBit_gppu_inv (h : Inv s) {p : Pin} (ho : s.iodirIsOut p = true) (v : Level) :
    Inv (s.setRegBit .gppu p v) := by
  obtain ⟨-, hpins, hout, -⟩ := id h
  have hfixed := (setRegBit_staysOn s (ty := .gppu) (by decide) p v).keepsFixed
  have hbit := fun ty q => setRegBit_gppu_regBit s ty p q v
  refine inv_of_keepsFixed h hfixed (fun q => ?_) (setRegBit_outputsFollow (by decide) (by decide) p v hout)
  refine pinInv_of_same (hpins q) hfixed.cfg (setRegBit_pin s _ p v q) (fun ty hty => ?_) (fun hd => ?_) fun _ => ?_
  · rw [hbit, if_neg (by rcases hty with rfl | rfl | rfl <;> simp)]
  · rw [hbit, if_neg]
    rintro ⟨-, rfl⟩
    exact Dir.noConfusion (hd.symm.trans ((iodirIsOut_iff_dir h q).mp ho))
  · rw [hbit, if_neg (by simp)]

/-! ## The translator writes -/

theorem writeIodir_inv (h : Inv s) (x : Port) (v : Byte) : Inv (writeIodir x v s) := by
  rw [writeIodir, translate]
  refine forBits_induct (P := Inv) (fun n e he => ?_) h
  rcases writeIodirPin_cases (pinOf x n) (bitAt v n) (bitAt (s.reg .iodir x) n) e with
    ⟨-, hw⟩ | ⟨-, -, hw⟩ | ⟨-, -, hw⟩ <;>
    rw [hw]
  · exact he
  · exact assign_inv he _ _
  · exact assign_inv he _ _

theorem writeOlat_inv (h : Inv s) (x : Port) (v : Byte) : Inv (writeOlat x v s) := by
  rw [writeOlat, translate]
  refine forBits_induct (P := Inv) (fun n e he => ?_) h
  rcases writeOlatPin_cases (pinOf x n) (bitAt v n) (bitAt (s.reg .olat x) n) e with
    ⟨-, hw⟩ | ⟨-, -, hw⟩ | ⟨-, hin, hw⟩ <;>
    rw [hw]
  · exact he
  · exact assign_inv he _ _
  · exact setRegBit_olat_inv he hin _

theorem writeGppu_inv (h : Inv s) (x : Port) (v : Byte) : Inv (writeGppu x v s) := by
  rw [writeGppu, translate]
  refine forBits_induct (P := Inv) (fun n e he => ?_) h
  rcases writeGppuPin_cases (pinOf x n) (bitAt v n) (bitAt (s.reg .gppu x) n) e with
    ⟨-, hw⟩ | ⟨-, ho, hw⟩ | ⟨-, -, -, hw⟩ | ⟨-, -, -, hw⟩ <;> rw [hw]
  · exact he
  · exact setRegBit_gppu_inv he ho _
  · exact assign_inv he _ _
  · exact assign_inv he _ _

theorem writeGpinten_inv (h : Inv s) (x : Port) (v : Byte) : Inv (writeGpinten x v s) := by
  rw [writeGpinten, translate]
  refine forBits_induct (P := Inv) (fun n e he => ?_) h
  rcases writeGpintenPin_cases (pinOf x n) (bitAt v n) (bitAt (s.reg .gpinten x) n) e with
    ⟨-, hw⟩ | ⟨-, -, hw⟩ | ⟨-, -, hw⟩ <;> rw [hw]
  · exact he
  · exact assign_inv he _ _
  · exact assign_inv he _ _

/-! ## PIN, POLL and SVC -/

/-- A flag raised on an armed pin keeps the invariants (R202). -/
theorem raiseFlag_inv (h : Inv s) {p : Pin} (harmed : s.regBit .gpinten p = true) : Inv (raiseFlag p s) := by
  obtain ⟨-, hpins, -, -⟩ := id h
  refine inv_of_keepsFixed h (raiseFlag_staysOn p s).keepsFixed (fun q => ?_) (raiseFlag_outputsFollow p s)
  have hbit : ∀ ty, ty ≠ .intf → (raiseFlag p s).regBit ty q = s.regBit ty q := fun ty hty => by
    rw [raiseFlag_regBit, if_neg fun hw => hty hw.1]
  obtain ⟨hiff, hwaiting, hflag, hrest⟩ := hpins q
  unfold PinInv
  rw [raiseFlag_pin, iodirIsOut_of (raiseFlag_cfg p s) (hbit .iodir (by decide)), hbit .gpinten (by decide),
    hbit .gppu (by decide), hbit .olat (by decide)]
  refine ⟨hiff, hwaiting, fun hf => ?_, hrest⟩
  by_cases hq : q = p
  · rw [hq]; exact harmed
  · rw [raiseFlag_regBit, if_neg fun hw => hq hw.2] at hf
    exact hflag hf

theorem setExt_inv (h : Inv s) (p : Pin) (b : Level) : Inv (s.setExt p b) := by
  obtain ⟨-, hpins, hout, -⟩ := id h
  refine inv_of_keepsFixed h ⟨rfl, rfl, rfl, fun ty x _ => setExt_reg s p b ty x⟩ (fun q => ?_)
    (outputsFollow_of hout rfl rfl rfl fun x => setExt_reg s p b _ x)
  exact pinInv_of_same (hpins q) rfl rfl (fun ty _ => setExt_regBit s p b ty q) (fun _ => setExt_regBit s p b _ q)
    fun _ => setExt_regBit s p b _ q

/-- The poll reference is in no invariant. -/
theorem setPin_ref_inv (h : Inv s) (p : Pin) (l : Level) : Inv (s.setPin p { s.pin p with ref := l }) := by
  obtain ⟨-, hpins, hout, -⟩ := id h
  refine inv_of_keepsFixed h (setPin_staysOn p _ s).keepsFixed (fun q => ?_)
    (outputsFollow_of hout rfl rfl rfl (by simp))
  have hinv := hpins q
  unfold PinInv State.iodirIsOut at *
  simp only [setPin_regBit, setPin_cfg, setPin_pin]
  split
  · rename_i hq; subst hq; exact hinv
  · exact hinv

theorem pinEvent_inv (h : Inv s) (p : Pin) (b : Level) : Inv (pinEvent p b s) := by
  rcases pinEvent_cases p b s with ⟨⟨-, -, -, harmed⟩, hw⟩ | ⟨-, hw⟩ <;> rw [hw]
  · exact raiseFlag_inv (setExt_inv h p b) ((setExt_regBit s p b _ p).trans harmed)
  · exact setExt_inv h p b

theorem pollEvent_inv (h : Inv s) (p : Pin) : Inv (pollEvent p s) := by
  rcases pollEvent_cases p s with ⟨-, hw⟩ | ⟨-, -, hw⟩ | ⟨⟨-, -, harmed⟩, -, hw⟩ <;> rw [hw]
  · exact h
  · exact setPin_ref_inv h p _
  · rw [← raiseFlag_pin p s p]
    exact setPin_ref_inv (raiseFlag_inv h harmed) p _

theorem serviceEvent_inv (h : Inv s) (x : Port) : Inv (serviceEvent x s) := by
  rcases serviceEvent_cases x s with ⟨-, hw⟩ | ⟨-, hw⟩ <;> rw [hw]
  · exact h
  · exact (gpioRead_readsPort x s).inv h

/-! ## The other effects, and the step -/

/-- The stored byte of `DEFVAL` is in no invariant. -/
theorem setReg_defval_inv (h : Inv s) (x : Port) (v : Byte) : Inv (s.setReg .defval x v) := by
  obtain ⟨⟨ipolA, ipolB, intconA, intconB, intcapA, intcapB⟩, hpins, hout, hiocon⟩ := h
  have hbit := fun {ty : RegType} (q : Pin) (hty : ty ≠ .defval) => setReg_defval_regBit s x v (q := q) (.inl hty)
  have hreg : ∀ ty y, ty ≠ .defval → (s.setReg .defval x v).reg ty y = s.reg ty y := fun ty y hty => by
    rw [setReg_reg, if_neg fun hw => hty hw.1]
  refine ⟨⟨(hreg _ _ (by decide)).trans ipolA, (hreg _ _ (by decide)).trans ipolB, (hreg _ _ (by decide)).trans intconA,
    (hreg _ _ (by decide)).trans intconB, (hreg _ _ (by decide)).trans intcapA, (hreg _ _ (by decide)).trans intcapB⟩,
    fun q => ?_, outputsFollow_of hout (by simp) (by simp) (by simp) fun y => hreg _ y (by decide), by simp [hiocon]⟩
  exact pinInv_of_same (hpins q) (setReg_cfg s _ x v) (setReg_pin s _ x v q)
    (fun ty hty => hbit q (by rcases hty with rfl | rfl | rfl <;> decide)) (fun _ => hbit q (by decide))
    fun _ => hbit q (by decide)

theorem HasEffect.inv {i : Instr} (he : HasEffect s i t) (h : Inv s) : Inv t := by
  cases he with
  | returns _ r => exact inv_of_io s.out s.inbox r h
  | @reads x r hr => exact inv_of_io r.2.out r.2.inbox (some r.1) ((readsPort_of_gpioRead hr).inv h)
  | storesDefval x v => exact setReg_defval_inv h x v
  | writesIodir x v => exact writeIodir_inv h x v
  | writesOlat x v => exact writeOlat_inv h x v
  | writesGppu x v => exact writeGppu_inv h x v
  | writesGpinten x v => exact writeGpinten_inv h x v
  | @assigns _ p r _ => exact assign_inv h p r
  | pin p b => exact pinEvent_inv h p b
  | poll p => exact pollEvent_inv h p
  | svc x => exact serviceEvent_inv h x
  | reset => exact resetEvent_inv s

end

/-- Settles O47: the step waits, or has the effect of the word taken. -/
theorem everyStepKeepsInvariants : Obligations.EveryStepKeepsInvariants := by
  intro s t h hstep
  rcases fetch_cases s with ⟨-, hidle⟩ | ⟨w, rest, -, htaken⟩
  · rw [step_of_fetch_none hidle] at hstep
    rw [← outcome_next_inj hstep]
    exact h
  · rw [step_of_fetch_some htaken] at hstep
    exact (hasEffect_of_exec hstep).inv (inv_of_io s.out rest none h)

end Sys2Proof.Machine
end

section
/-! The inert registers (spec/10_state.md R24, R26, R27, R31, R32): two states that differ only there are alike, and
every procedure takes alike states to alike states. -/

namespace Sys2Proof.Machine

/-! ## Alike states -/

/-- A register that no rule but a host read of it reads. -/
abbrev Inert (ty : RegType) : Prop := ty = .ipol ∨ ty = .defval ∨ ty = .intcon ∨ ty = .intcap ∨ ty = .gpio

/-- Two states that differ only in the inert registers. -/
structure Alike (s s' : State) : Prop where
  reg : ∀ ty x, ¬Inert ty → s.reg ty x = s'.reg ty x
  pin : ∀ q, s.pin q = s'.pin q
  intA : s.intA = s'.intA
  intB : s.intB = s'.intB
  cfg : s.cfg = s'.cfg
  ext : s.ext = s'.ext
  out : s.out = s'.out
  inbox : s.inbox = s'.inbox
  ret : s.ret = s'.ret

/-- A register cleared at both ports. -/
theorem clear_reg {u : RegType} (hu : u ≠ .iocon) (s : State) (ty : RegType) (x : Port) :
    ((s.setReg u .a 0x00).setReg u .b 0x00).reg ty x = if ty = u then 0x00 else s.reg ty x := by
  rw [setReg_reg, setReg_reg]
  cases x <;> simp [hu]

theorem eraseInert_reg (s : State) (ty : RegType) (x : Port) :
    (eraseInert s).reg ty x = if Inert ty then 0x00 else s.reg ty x := by
  rw [eraseInert, clear_reg (by decide), clear_reg (by decide), clear_reg (by decide), clear_reg (by decide),
    clear_reg (by decide)]
  cases ty <;> simp [Inert]

/-- A projection that no write of a register changes is kept. -/
theorem eraseInert_keeps {α : Type} (g : State → α) (hg : ∀ s ty x v, g (State.setReg s ty x v) = g s) (s : State) :
    g (eraseInert s) = g s := by
  simp only [eraseInert, hg]

/-- `eraseInert` forgets the inert registers and nothing else. -/
theorem eraseInert_eq_iff {s s' : State} : eraseInert s = eraseInert s' ↔ Alike s s' := by
  constructor
  · intro h
    have kept : ∀ {α : Type} (g : State → α), (∀ s ty x v, g (State.setReg s ty x v) = g s) → g s = g s' :=
      fun g hg => by rw [← eraseInert_keeps g hg s, h, eraseInert_keeps g hg s']
    refine ⟨fun ty x hty => ?_, fun q => kept (fun s => s.pin q) fun s ty x v => setReg_pin s ty x v q,
      kept _ setReg_intA, kept _ setReg_intB, kept _ setReg_cfg, kept _ setReg_ext, kept _ setReg_out,
      kept _ setReg_inbox, kept _ setReg_ret⟩
    have hreg := congrArg (fun e => State.reg e ty x) h
    simpa only [eraseInert_reg, if_neg hty] using hreg
  · intro h
    have kept : ∀ {α : Type} (g : State → α), (∀ s ty x v, g (State.setReg s ty x v) = g s) → g s = g s' →
      g (eraseInert s) = g (eraseInert s') := fun g hg heq => by rw [eraseInert_keeps g hg, heq, eraseInert_keeps g hg]
    refine State.eq_of_views (kept _ setReg_cfg h.cfg) (fun ty x => ?_)
      (fun q => kept (fun s => s.pin q) (fun s ty x v => setReg_pin s ty x v q) (h.pin q)) (kept _ setReg_intA h.intA)
      (kept _ setReg_intB h.intB) (kept _ setReg_ext h.ext) (kept _ setReg_out h.out) (kept _ setReg_inbox h.inbox)
      (kept _ setReg_ret h.ret)
    rw [eraseInert_reg, eraseInert_reg]
    split
    · rfl
    · exact h.reg ty x ‹_›

theorem Alike.of_eq {s s' : State} (h : s = s') : Alike s s' := by
  subst h
  exact ⟨fun _ _ _ => rfl, fun _ => rfl, rfl, rfl, rfl, rfl, rfl, rfl, rfl⟩

/-! ## The updates of the state -/

section
variable {s s' e e' : State}

theorem Alike.ite {c : Prop} [Decidable c] (ht : Alike s s') (he : Alike e e') :
    Alike (if c then s else e) (if c then s' else e') := by
  split
  · exact ht
  · exact he

/-- A loop of passes that keep states alike keeps them alike. -/
theorem Alike.forBits {f f' : BitIdx → State → State} (hf : ∀ n e e', Alike e e' → Alike (f n e) (f' n e'))
    (h : Alike s s') : Alike (forBits f s) (forBits f' s') :=
  hf 7 _ _ <| hf 6 _ _ <| hf 5 _ _ <| hf 4 _ _ <| hf 3 _ _ <| hf 2 _ _ <| hf 1 _ _ <| hf 0 _ _ h

variable (h : Alike s s')
include h

theorem Alike.regBit {ty : RegType} (hty : ¬Inert ty) (q : Pin) : s.regBit ty q = s'.regBit ty q :=
  regBit_of_reg_eq (h.reg ty _ hty)

theorem Alike.iodirIsOut (q : Pin) : s.iodirIsOut q = s'.iodirIsOut q :=
  iodirIsOut_of h.cfg (h.regBit (by simp) q)

theorem Alike.extLevel (q : Pin) : s.extLevel q = s'.extLevel q := extLevel_of_ext h.ext q

theorem Alike.source (q : Pin) : s.source q = s'.source q := by rw [State.source, State.source, h.cfg]

theorem Alike.setReg (ty : RegType) (x : Port) (v : Byte) : Alike (s.setReg ty x v) (s'.setReg ty x v) where
  reg u y hu := by
    rw [setReg_reg, setReg_reg]
    split
    · rfl
    · exact h.reg u y hu
  pin q := by rw [setReg_pin, setReg_pin, h.pin]
  intA := by rw [setReg_intA, setReg_intA, h.intA]
  intB := by rw [setReg_intB, setReg_intB, h.intB]
  cfg := by rw [setReg_cfg, setReg_cfg, h.cfg]
  ext := by rw [setReg_ext, setReg_ext, h.ext]
  out := by rw [setReg_out, setReg_out, h.out]
  inbox := by rw [setReg_inbox, setReg_inbox, h.inbox]
  ret := by rw [setReg_ret, setReg_ret, h.ret]

theorem Alike.setRegBit {ty : RegType} (hty : ¬Inert ty) (p : Pin) (v : Level) :
    Alike (s.setRegBit ty p v) (s'.setRegBit ty p v) := by
  rw [State.setRegBit, State.setRegBit, h.reg ty _ hty]
  exact h.setReg ty _ _

theorem Alike.setPin (p : Pin) (g : PinState → PinState) :
    Alike (s.setPin p (g (s.pin p))) (s'.setPin p (g (s'.pin p))) where
  reg u y hu := by rw [setPin_reg, setPin_reg, h.reg u y hu]
  pin q := by rw [setPin_pin, setPin_pin, h.pin, h.pin]
  intA := h.intA
  intB := h.intB
  cfg := h.cfg
  ext := h.ext
  out := h.out
  inbox := h.inbox
  ret := h.ret

theorem Alike.append (r : ResultEvent) : Alike (s.append r) (s'.append r) where
  reg u y hu := by rw [append_reg, append_reg, h.reg u y hu]
  pin := h.pin
  intA := h.intA
  intB := h.intB
  cfg := h.cfg
  ext := h.ext
  out := congrArg (· ++ [r]) h.out
  inbox := h.inbox
  ret := h.ret

theorem Alike.updateInt : Alike (updateInt s) (updateInt s') where
  reg u y hu := by rw [updateInt_reg, updateInt_reg, h.reg u y hu]
  pin := h.pin
  intA := by
    rw [Machine.updateInt, Machine.updateInt, ← reg_iocon s .a, ← reg_iocon s' .a, h.reg .iocon .a (by simp),
      h.reg .intf .a (by simp), h.reg .intf .b (by simp)]
  intB := by
    rw [Machine.updateInt, Machine.updateInt, ← reg_iocon s .a, ← reg_iocon s' .a, h.reg .iocon .a (by simp),
      h.reg .intf .a (by simp), h.reg .intf .b (by simp)]
  cfg := h.cfg
  ext := h.ext
  out := h.out
  inbox := h.inbox
  ret := h.ret

theorem Alike.setExt (p : Pin) (b : Level) : Alike (s.setExt p b) (s'.setExt p b) where
  reg u y hu := by rw [setExt_reg, setExt_reg, h.reg u y hu]
  pin := h.pin
  intA := h.intA
  intB := h.intB
  cfg := h.cfg
  ext := congrArg (fun e => e.set p b) h.ext
  out := h.out
  inbox := h.inbox
  ret := h.ret

theorem Alike.setRet {r r' : Option Byte} (hr : r = r') : Alike { s with ret := r } { s' with ret := r' } where
  reg u y hu := by
    have hs := fetched_reg s s.inbox r u y
    have hs' := fetched_reg s' s'.inbox r' u y
    exact hs.trans ((h.reg u y hu).trans hs'.symm)
  pin := h.pin
  intA := h.intA
  intB := h.intB
  cfg := h.cfg
  ext := h.ext
  out := h.out
  inbox := h.inbox
  ret := hr

/-! ## The procedures -/

theorem Alike.raiseFlag (p : Pin) : Alike (raiseFlag p s) (raiseFlag p s') := (h.setRegBit (by simp) p true).updateInt

theorem Alike.arm (p : Pin) (l : Level) : Alike (arm p l s) (arm p l s') :=
  (h.setRegBit (by simp) p true).setPin p fun x => { x with ref := l }

theorem Alike.disarm (p : Pin) : Alike (disarm p s) (disarm p s') :=
  ((h.setRegBit (by simp) p false).setRegBit (by simp) p false).updateInt

theorem Alike.setStatus (p : Pin) (v : Status) : Alike (setStatus p v s) (setStatus p v s') :=
  h.setPin p fun x => { x with st := v }

theorem Alike.finish (p : Pin) (r : Option Level) : Alike (finish p r s) (finish p r s') :=
  (h.setStatus p (.done r)).append (.done p r)

theorem Alike.complete (p : Pin) (r : Level) : Alike (complete p r s) (complete p r s') :=
  (h.disarm p).finish p (some r)

theorem Alike.resume (p : Pin) (f l : Level) (r : Option Request) : Alike (resume p f l r s) (resume p f l r s') := by
  match r with
  | some (.waitState _ t) => exact .ite (h.complete p t) h
  | some (.waitAny _) => exact .ite (h.complete p l) h
  | some (.waitSpec _ t) =>
    have hcount := h.setPin p fun x => { x with ews := { x.ews with rem := decRem x.ews.rem } }
    simp only [Machine.resume, h.pin] at hcount ⊢
    exact .ite (.ite (hcount.complete p t) hcount) h
  | some (.watch _) => exact .ite (h.append (.emit p l)) h
  | some (.output _) | some (.inNone _) | some (.inRead _) | none => exact h

theorem Alike.advance (p : Pin) (f l : Level) : Alike (advance p f l s) (advance p f l s') := by
  rw [Machine.advance, Machine.advance, h.pin, h.regBit (by simp)]
  exact .ite (h.resume p f l _) h

theorem Alike.sample (x : Port) : s.sample x = s'.sample x :=
  byte_eq_of_bitAt fun n => by
    rw [bitAt_sample, bitAt_sample]
    exact pinLevel_of (congrArg PinState.dir (h.pin _)) (congrArg PinState.drv (h.pin _)) (h.extLevel _)

theorem Alike.gpioRead (x : Port) :
    (gpioRead x s).1 = (gpioRead x s').1 ∧ Alike (gpioRead x s).2 (gpioRead x s').2 := by
  refine ⟨h.sample x, ?_⟩
  have hlevel := fun n => pinLevel_of (congrArg PinState.dir (h.pin (pinOf x n))) (congrArg PinState.drv (h.pin _))
    (h.extLevel _)
  rw [gpioRead_snd, gpioRead_snd]
  simp only [hlevel, h.regBit (ty := .intf) (by simp)]
  refine .forBits (fun n e e' he => he.advance _ _ _) ?_
  rw [readStart, readStart, h.sample]
  exact ((h.setReg .gpio x _).setReg .intf x _).updateInt

/-! ## Assigning a request -/

theorem Alike.entryInput (p : Pin) (u : Pull) : Alike (entryInput p u s) (entryInput p u s') := by
  rw [Machine.entryInput, Machine.entryInput, h.cfg]
  have hdir := (h.setRegBit (ty := .iodir) (by simp) p s'.cfg.iodirIn).setPin p fun x => { x with dir := .input }
  exact (hdir.setRegBit (ty := .gppu) (by simp) p u).setPin p fun x => { x with pull := u }

theorem Alike.entryOutput (p : Pin) (l : Level) : Alike (entryOutput p l s) (entryOutput p l s') := by
  rw [Machine.entryOutput, Machine.entryOutput, h.cfg]
  have hbits := (h.setRegBit (ty := .iodir) (by simp) p s'.cfg.iodirOut).setRegBit (ty := .olat) (by simp) p l
  exact (hbits.setPin p fun x => { x with drv := l, dir := .output }).finish p none

theorem Alike.entryWaitSpec (p : Pin) (u : Pull) (t : Level) :
    Alike (entryWaitSpec p u t s) (entryWaitSpec p u t s') := by
  obtain ⟨hbyte, hstate⟩ := (h.entryInput p u).gpioRead (portOf p)
  rw [Machine.entryWaitSpec, Machine.entryWaitSpec]
  generalize Machine.gpioRead (portOf p) (Machine.entryInput p u s) = r at hbyte hstate ⊢
  generalize Machine.gpioRead (portOf p) (Machine.entryInput p u s') = r' at hbyte hstate ⊢
  rw [hbyte]
  generalize bitAt r'.1 (bitOf p) = v
  exact (hstate.setPin p fun x => { x with ews := ⟨v, if v != t then 1 else 2⟩ }).arm p v

theorem Alike.entry (p : Pin) (r : Request) : Alike (entry p r s) (entry p r s') := by
  have hread := fun u => (h.entryInput p u).gpioRead (portOf p)
  match r with
  | .output l => exact h.entryOutput p l
  | .inNone u => exact (h.entryInput p u).finish p none
  | .inRead u =>
    obtain ⟨hbyte, hstate⟩ := hread u
    rw [Machine.entry, Machine.entry, entryRead, entryRead, hbyte]
    exact hstate.finish p _
  | .waitState u t =>
    obtain ⟨hbyte, hstate⟩ := hread u
    rw [Machine.entry, Machine.entry, entryWaitState, entryWaitState, hbyte]
    exact .ite (hstate.finish p _) (hstate.arm p _)
  | .waitAny u =>
    have hinput := h.entryInput p u
    rw [Machine.entry, Machine.entry, entryWaitAny, entryWaitAny, hinput.extLevel]
    exact hinput.arm p _
  | .waitSpec u t => exact h.entryWaitSpec p u t
  | .watch u =>
    obtain ⟨hbyte, hstate⟩ := hread u
    rw [Machine.entry, Machine.entry, entryWatch, entryWatch, hbyte]
    exact (hstate.append _).arm p _

theorem Alike.assign (p : Pin) (r : Request) : Alike (assign p r s) (assign p r s') := by
  have hreq := (h.disarm p).setPin p fun x => { x with req := some r, ews := ⟨false, 0⟩ }
  exact ((hreq.setStatus p .pending).setStatus p .processing).entry p r

/-! ## The translator -/

theorem Alike.writeIodir (x : Port) (v : Byte) : Alike (writeIodir x v s) (writeIodir x v s') := by
  rw [Machine.writeIodir, Machine.writeIodir, h.reg .iodir x (by simp)]
  refine .forBits (fun n e e' he => ?_) h
  rw [writeIodirPin, writeIodirPin, he.cfg, he.regBit (by simp), he.regBit (by simp)]
  exact .ite (.ite (he.assign _ _) (he.assign _ _)) he

theorem Alike.writeOlat (x : Port) (v : Byte) : Alike (writeOlat x v s) (writeOlat x v s') := by
  rw [Machine.writeOlat, Machine.writeOlat, h.reg .olat x (by simp)]
  refine .forBits (fun n e e' he => ?_) h
  rw [writeOlatPin, writeOlatPin, he.iodirIsOut]
  exact .ite (.ite (he.assign _ _) (he.setRegBit (by simp) _ _)) he

theorem Alike.writeGppu (x : Port) (v : Byte) : Alike (writeGppu x v s) (writeGppu x v s') := by
  rw [Machine.writeGppu, Machine.writeGppu, h.reg .gppu x (by simp)]
  refine .forBits (fun n e e' he => ?_) h
  rw [writeGppuPin, writeGppuPin, he.iodirIsOut, he.regBit (by simp)]
  exact .ite (.ite (he.setRegBit (by simp) _ _) (.ite (he.assign _ _) (he.assign _ _))) he

theorem Alike.writeGpinten (x : Port) (v : Byte) : Alike (writeGpinten x v s) (writeGpinten x v s') := by
  rw [Machine.writeGpinten, Machine.writeGpinten, h.reg .gpinten x (by simp)]
  refine .forBits (fun n e e' he => ?_) h
  rw [writeGpintenPin, writeGpintenPin, he.iodirIsOut, he.regBit (by simp)]
  exact .ite (.ite (he.assign _ _) (he.assign _ _)) he

/-! ## The events -/

theorem Alike.sourceEnabled (p : Pin) : sourceEnabled p s = sourceEnabled p s' := by
  rw [Machine.sourceEnabled, Machine.sourceEnabled, h.pin, h.regBit (by simp)]

theorem Alike.pinEvent (p : Pin) (b : Level) : Alike (pinEvent p b s) (pinEvent p b s') := by
  have hlevel := h.setExt p b
  rw [Machine.pinEvent, Machine.pinEvent, h.extLevel, hlevel.source, hlevel.sourceEnabled]
  exact .ite (hlevel.raiseFlag p) hlevel

theorem Alike.pollEvent (p : Pin) : Alike (pollEvent p s) (pollEvent p s') := by
  rw [Machine.pollEvent, Machine.pollEvent, h.source, h.sourceEnabled, h.extLevel, h.pin]
  have hflag : Alike (if s'.extLevel p != (s'.pin p).ref then Machine.raiseFlag p s else s)
    (if s'.extLevel p != (s'.pin p).ref then Machine.raiseFlag p s' else s') := .ite (h.raiseFlag p) h
  dsimp only
  rw [hflag.extLevel]
  exact .ite (hflag.setPin p fun x => { x with ref := _ }) h

theorem Alike.serviceEvent (x : Port) : Alike (serviceEvent x s) (serviceEvent x s') := by
  rw [Machine.serviceEvent, Machine.serviceEvent, h.reg .intf x (by simp)]
  exact .ite (h.gpioRead x).2 h

theorem Alike.resetEvent : resetEvent s = resetEvent s' := by
  rw [resetEvent_eq, resetEvent_eq, h.cfg, h.ext, h.out, h.inbox, h.ret]

theorem Alike.readGpio (x : Port) :
    Alike (returning (Machine.gpioRead x s)) (returning (Machine.gpioRead x s')) :=
  (h.gpioRead x).2.setRet (congrArg some (h.gpioRead x).1)

/-- Every operation but RD.DEFVAL takes alike states to alike states. -/
theorem Alike.exec {i : Instr} (hi : ∀ x, i ≠ .rdDefval x) :
    ∃ t t', exec i s = .next t ∧ exec i s' = .next t' ∧ Alike t t' := by
  have hread := fun (ty : RegType) (x : Port) (hty : ¬Inert ty) => 
    h.setRet (congrArg some (h.reg ty x hty))
  cases i with
  | rdDefval x => exact absurd rfl (hi x)
  | rdIodir x => exact ⟨_, _, rfl, rfl, hread .iodir x (by simp)⟩
  | rdGpinten x => exact ⟨_, _, rfl, rfl, hread .gpinten x (by simp)⟩
  | rdIocon x => exact ⟨_, _, rfl, rfl, hread .iocon x (by simp)⟩
  | rdGppu x => exact ⟨_, _, rfl, rfl, hread .gppu x (by simp)⟩
  | rdIntf x => exact ⟨_, _, rfl, rfl, hread .intf x (by simp)⟩
  | rdOlat x => exact ⟨_, _, rfl, rfl, hread .olat x (by simp)⟩
  | rdIpol _ | rdIntcon _ | rdIntcap _ | rdUndef _ => exact ⟨_, _, rfl, rfl, h.setRet rfl⟩
  | rdGpio x => exact ⟨_, _, rfl, rfl, h.readGpio x⟩
  | wrIpol _ _ | wrIntcon _ _ | wrIocon _ _ | wrIntf _ _ | wrIntcap _ _ | wrGpio _ _ | wrUndef _ _ | reqRsvd _
  | rsvdClass _ => exact ⟨_, _, rfl, rfl, h⟩
  | wrDefval x v => exact ⟨_, _, rfl, rfl, h.setReg .defval x v⟩
  | wrIodir x v => exact ⟨_, _, rfl, rfl, h.writeIodir x v⟩
  | wrOlat x v => exact ⟨_, _, rfl, rfl, h.writeOlat x v⟩
  | wrGppu x v => exact ⟨_, _, rfl, rfl, h.writeGppu x v⟩
  | wrGpinten x v => exact ⟨_, _, rfl, rfl, h.writeGpinten x v⟩
  | reqOut p _ | reqNone p _ | reqRead p _ | reqWstate p _ _ | reqWany p _ | reqWspec p _ _ | reqWatch p _ =>
    exact ⟨_, _, rfl, rfl, h.assign p _⟩
  | pin p b => exact ⟨_, _, rfl, rfl, h.pinEvent p b⟩
  | poll p => exact ⟨_, _, rfl, rfl, h.pollEvent p⟩
  | svc x => exact ⟨_, _, rfl, rfl, h.serviceEvent x⟩
  | reset => exact ⟨_, _, rfl, rfl, .of_eq h.resetEvent⟩

end

/-- Settles O56: every operation takes alike states to alike states. -/
theorem inertRegistersInfluenceNothing : Obligations.InertRegistersInfluenceNothing := by
  intro i s s' t t' hi halike hs hs'
  obtain ⟨e, e', he, he', hafter⟩ := (eraseInert_eq_iff.mp halike).exec hi
  rw [← outcome_next_inj (he.symm.trans hs), ← outcome_next_inj (he'.symm.trans hs')]
  exact eraseInert_eq_iff.mpr hafter

end Sys2Proof.Machine
end
